-- ==== Sys2Proof/Word.lean ====
section
/-! DEFINITION. The bit-vector types of the machine (00_scope.md R7, R9, R10). -/

namespace Sys2Proof

/-- A byte of the backing store or of a cache block (20_memory.md R50). -/
abbrev Byte := BitVec 8

/-- XLEN = 64: a register, the pc, an address, an ALU result (00_scope.md R7, R10). -/
abbrev Word := BitVec 64

/-- ILEN = 32: an instruction word (30_encoding.md R110). -/
abbrev InstWord := BitVec 32

/-- A register index, 0 to 31 (10_state.md R21). -/
abbrev RegIdx := BitVec 5

end Sys2Proof
end

