-- ==== Sys2Proof/Machine/MicroOp.lean ====
section
/-! DEFINITION. The control fields and the structures the stages pass on (00_scope.md R12; 10_state.md R30 to R34).
They live during one instruction only and are no state (10_state.md R20). The document numbers none of the
enumerations (decision D18). -/

namespace Sys2Proof.Machine

/-- Source of ALU operand A. -/
inductive ASrc where
  | reg
  | pc
  deriving DecidableEq, Repr

/-- Source of ALU operand B. -/
inductive BSrc where
  | reg
  | imm
  deriving DecidableEq, Repr

/-- ALU operation (40_pipeline.md R152). -/
inductive AluOp where
  | add
  | sub
  | xor
  | or
  | and
  deriving DecidableEq, Repr

/-- Branch condition (40_pipeline.md R153); no word decodes to `always` (R148). -/
inductive BrCond where
  | never
  | always
  | eq
  | neq
  | lt
  | ge
  | ltu
  | geu
  deriving DecidableEq, Repr

/-- What the writeback stage commits. -/
inductive WbSrc where
  | alu
  | mem
  deriving DecidableEq, Repr

/-- Next-pc selector (40_pipeline.md R154). -/
inductive PcSrc where
  | pc4
  | alu
  deriving DecidableEq, Repr

/-- Fetch output `F` (10_state.md R30). -/
structure FetchOut where
  pc : Word
  inst : InstWord
  deriving DecidableEq, Repr

/-- Micro-op `U`, the decode stage's output (10_state.md R31). -/
structure MicroOp where
  pc : Word
  rd : RegIdx
  rs1Val : Word
  rs2Val : Word
  imm : Word
  aSrc : ASrc
  bSrc : BSrc
  aluOp : AluOp
  brCond : BrCond
  wbSrc : WbSrc
  regWe : Bool
  memRe : Bool
  memWe : Bool
  deriving DecidableEq, Repr

/-- AGEX result `X` (10_state.md R32). -/
structure AgexOut where
  pc : Word
  rd : RegIdx
  rs2Val : Word
  wbSrc : WbSrc
  regWe : Bool
  memRe : Bool
  memWe : Bool
  aluResult : Word
  pcSrc : PcSrc
  deriving DecidableEq, Repr

/-- Memory-stage result `M` (10_state.md R33). -/
structure MemOut where
  pc : Word
  rd : RegIdx
  wbSrc : WbSrc
  regWe : Bool
  pcSrc : PcSrc
  aluResult : Word
  memData : Word
  deriving DecidableEq, Repr

/-- Writeback result `W` (10_state.md R34). -/
structure WbOut where
  nextPc : Word
  deriving DecidableEq, Repr

end Sys2Proof.Machine
end

