-- ==== Sys2Proof/Machine/Encoding.lean ====
section
/-! DEFINITION. The bit-field extraction utility, sign extension, the field positions and every number of the
encoding, each in one place (30_encoding.md R111, R116 to R121; 93_implementation_defined.md G2). The opcode and
funct3 numbers and the places of rd, rs1, rs2 are marked in the spec as RISC-V's, from general knowledge
(PRESUMED by the spec, its decision D2: log entry 10). -/

namespace Sys2Proof

/-- `extract_bits(word, msb, lsb)`, the unsigned integer formed by bits `msb` down to `lsb`, defined for
`31 >= msb >= lsb` (40_pipeline.md R142; 00_scope.md R9). -/
def extractBits (w : InstWord) (msb lsb : Nat) : BitVec (msb - lsb + 1) := w.extractLsb msb lsb

/-- `sext_N`: bit `N-1` copied into bits 63 down to `N` (40_pipeline.md R143). -/
def sext {n : Nat} (f : BitVec n) : Word := f.signExtend 64

/-- `inst[6:0]` -/
def opcodeOf (w : InstWord) : BitVec 7 := extractBits w 6 0

/-- `inst[11:7]` -/
def rdOf (w : InstWord) : RegIdx := extractBits w 11 7

/-- `inst[14:12]` -/
def funct3Of (w : InstWord) : BitVec 3 := extractBits w 14 12

/-- `inst[19:15]` -/
def rs1Of (w : InstWord) : RegIdx := extractBits w 19 15

/-- `inst[24:20]` -/
def rs2Of (w : InstWord) : RegIdx := extractBits w 24 20

/-- `inst[31:25]` -/
def funct7Of (w : InstWord) : BitVec 7 := extractBits w 31 25

/-- The I immediate, `inst[31:20]` (30_encoding.md R113). -/
def immIOf (w : InstWord) : BitVec 12 := extractBits w 31 20

/-- The S immediate, `inst[31:25] ++ inst[11:7]` (30_encoding.md R114). -/
def immSOf (w : InstWord) : BitVec 12 := extractBits w 31 25 ++ extractBits w 11 7

/-- The B immediate, `inst[31] ++ inst[7] ++ inst[30:25] ++ inst[11:8] ++ 0` (30_encoding.md R115). -/
def immBOf (w : InstWord) : BitVec 13 :=
  extractBits w 31 31 ++ extractBits w 7 7 ++ extractBits w 30 25 ++ extractBits w 11 8 ++ 0#1

/-! Opcodes, 30_encoding.md R117. -/

/-- OP, class R-type -/
def opcodeOp : BitVec 7 := 0b0110011#7

/-- OP-IMM, class I-type -/
def opcodeOpImm : BitVec 7 := 0b0010011#7

/-- LOAD -/
def opcodeLoad : BitVec 7 := 0b0000011#7

/-- STORE -/
def opcodeStore : BitVec 7 := 0b0100011#7

/-- BRANCH -/
def opcodeBranch : BitVec 7 := 0b1100011#7

/-- Whether a 7-bit opcode is one of the five the decoder recognises (30_encoding.md R117, R123). -/
def opcodeSupported (op : BitVec 7) : Bool :=
  op == opcodeOp || op == opcodeOpImm || op == opcodeLoad || op == opcodeStore || op == opcodeBranch

/-! funct3 of the ALU operations, 30_encoding.md R119. -/

/-- ADD and SUB -/
def funct3AddSub : BitVec 3 := 0b000#3

/-- XOR -/
def funct3Xor : BitVec 3 := 0b100#3

/-- OR -/
def funct3Or : BitVec 3 := 0b110#3

/-- AND -/
def funct3And : BitVec 3 := 0b111#3

/-- The funct7 that marks subtract (30_encoding.md R120, decision D3). -/
def funct7Sub : BitVec 7 := 0b0100000#7

/-- funct3 of the canonical load LD and store SD (30_encoding.md R122). -/
def funct3Dword : BitVec 3 := 0b011#3

/-! funct3 of the branch conditions, 30_encoding.md R121. -/

/-- BEQ -/
def funct3Beq : BitVec 3 := 0b000#3

/-- BNE -/
def funct3Bne : BitVec 3 := 0b001#3

/-- BLT -/
def funct3Blt : BitVec 3 := 0b100#3

/-- BGE -/
def funct3Bge : BitVec 3 := 0b101#3

/-- BLTU -/
def funct3Bltu : BitVec 3 := 0b110#3

/-- BGEU -/
def funct3Bgeu : BitVec 3 := 0b111#3

end Sys2Proof
end

