-- ==== Sys2Proof/Syntax.lean ====
section
/-! DEFINITION. The instructions: one constructor for each row of spec/opcode_table.json, in the table's order
(30_encoding.md R129). A constructor carries every bit of its word that its row leaves free, so that no two words
share a term: `f7` is `inst[31:25]`, which the decoder ignores in the rows that carry it (30_encoding.md R120). -/

namespace Sys2Proof

/-- An instruction. Register operands are named as in the formats of 30_encoding.md R112 to R115; an I or S
immediate is its 12 encoded bits, a B immediate the 13-bit byte offset whose bit 0 is zero. -/
inductive Instr where
  /-- 41_alu_reg.md R182 -/
  | sub (rd rs1 rs2 : RegIdx)
  /-- 41_alu_reg.md R181: every `f7` but 0x20 -/
  | add (f7 : BitVec 7) (rd rs1 rs2 : RegIdx)
  /-- 41_alu_reg.md R183 -/
  | xor (f7 : BitVec 7) (rd rs1 rs2 : RegIdx)
  /-- 41_alu_reg.md R184 -/
  | or (f7 : BitVec 7) (rd rs1 rs2 : RegIdx)
  /-- 41_alu_reg.md R185 -/
  | and (f7 : BitVec 7) (rd rs1 rs2 : RegIdx)
  /-- 41_alu_reg.md R186: the slot executes as ADD -/
  | opF3_001 (f7 : BitVec 7) (rd rs1 rs2 : RegIdx)
  /-- 41_alu_reg.md R187: the slot executes as ADD -/
  | opF3_010 (f7 : BitVec 7) (rd rs1 rs2 : RegIdx)
  /-- 41_alu_reg.md R188: the slot executes as ADD -/
  | opF3_011 (f7 : BitVec 7) (rd rs1 rs2 : RegIdx)
  /-- 41_alu_reg.md R189: the slot executes as ADD -/
  | opF3_101 (f7 : BitVec 7) (rd rs1 rs2 : RegIdx)
  /-- 42_alu_imm.md R201 -/
  | addi (rd rs1 : RegIdx) (imm : BitVec 12)
  /-- 42_alu_imm.md R202 -/
  | xori (rd rs1 : RegIdx) (imm : BitVec 12)
  /-- 42_alu_imm.md R203 -/
  | ori (rd rs1 : RegIdx) (imm : BitVec 12)
  /-- 42_alu_imm.md R204 -/
  | andi (rd rs1 : RegIdx) (imm : BitVec 12)
  /-- 42_alu_imm.md R205: the slot executes as ADDI -/
  | opImmF3_001 (rd rs1 : RegIdx) (imm : BitVec 12)
  /-- 42_alu_imm.md R206: the slot executes as ADDI -/
  | opImmF3_010 (rd rs1 : RegIdx) (imm : BitVec 12)
  /-- 42_alu_imm.md R207: the slot executes as ADDI -/
  | opImmF3_011 (rd rs1 : RegIdx) (imm : BitVec 12)
  /-- 42_alu_imm.md R208: the slot executes as ADDI -/
  | opImmF3_101 (rd rs1 : RegIdx) (imm : BitVec 12)
  /-- 43_load.md R221 -/
  | ld (rd rs1 : RegIdx) (imm : BitVec 12)
  /-- 43_load.md R222: an 8-byte load -/
  | loadF3_000 (rd rs1 : RegIdx) (imm : BitVec 12)
  /-- 43_load.md R223: an 8-byte load -/
  | loadF3_001 (rd rs1 : RegIdx) (imm : BitVec 12)
  /-- 43_load.md R224: an 8-byte load -/
  | loadF3_010 (rd rs1 : RegIdx) (imm : BitVec 12)
  /-- 43_load.md R225: an 8-byte load -/
  | loadF3_100 (rd rs1 : RegIdx) (imm : BitVec 12)
  /-- 43_load.md R226: an 8-byte load -/
  | loadF3_101 (rd rs1 : RegIdx) (imm : BitVec 12)
  /-- 43_load.md R227: an 8-byte load -/
  | loadF3_110 (rd rs1 : RegIdx) (imm : BitVec 12)
  /-- 43_load.md R228: an 8-byte load -/
  | loadF3_111 (rd rs1 : RegIdx) (imm : BitVec 12)
  /-- 44_store.md R231 -/
  | sd (rs1 rs2 : RegIdx) (imm : BitVec 12)
  /-- 44_store.md R232: an 8-byte store -/
  | storeF3_000 (rs1 rs2 : RegIdx) (imm : BitVec 12)
  /-- 44_store.md R233: an 8-byte store -/
  | storeF3_001 (rs1 rs2 : RegIdx) (imm : BitVec 12)
  /-- 44_store.md R234: an 8-byte store -/
  | storeF3_010 (rs1 rs2 : RegIdx) (imm : BitVec 12)
  /-- 44_store.md R235: an 8-byte store -/
  | storeF3_100 (rs1 rs2 : RegIdx) (imm : BitVec 12)
  /-- 44_store.md R236: an 8-byte store -/
  | storeF3_101 (rs1 rs2 : RegIdx) (imm : BitVec 12)
  /-- 44_store.md R237: an 8-byte store -/
  | storeF3_110 (rs1 rs2 : RegIdx) (imm : BitVec 12)
  /-- 44_store.md R238: an 8-byte store -/
  | storeF3_111 (rs1 rs2 : RegIdx) (imm : BitVec 12)
  /-- 45_branch.md R241 -/
  | beq (rs1 rs2 : RegIdx) (imm : BitVec 13)
  /-- 45_branch.md R242 -/
  | bne (rs1 rs2 : RegIdx) (imm : BitVec 13)
  /-- 45_branch.md R243 -/
  | blt (rs1 rs2 : RegIdx) (imm : BitVec 13)
  /-- 45_branch.md R244 -/
  | bge (rs1 rs2 : RegIdx) (imm : BitVec 13)
  /-- 45_branch.md R245 -/
  | bltu (rs1 rs2 : RegIdx) (imm : BitVec 13)
  /-- 45_branch.md R246 -/
  | bgeu (rs1 rs2 : RegIdx) (imm : BitVec 13)
  /-- 45_branch.md R247: never taken -/
  | branchF3_010 (rs1 rs2 : RegIdx) (imm : BitVec 13)
  /-- 45_branch.md R248: never taken -/
  | branchF3_011 (rs1 rs2 : RegIdx) (imm : BitVec 13)
  /-- 46_unsupported.md R260: every word whose opcode is none of the five -/
  | unsupported (inst : InstWord)
  deriving DecidableEq, Repr

end Sys2Proof
end

