-- ==== Sys2Proof/WellFormed.lean ====
section
/-! DEFINITION. Which terms of `Instr` stand for a word, and which of those words a RISC-V assembler emits. -/

namespace Sys2Proof

/-- A branch offset has an implicit zero in bit 0, which no word encodes (30_encoding.md R115). -/
def offsetEven (imm : BitVec 13) : Bool := !imm.getLsbD 0

/-- The terms that some word encodes: ADD carries any funct7 but the subtract mark (30_encoding.md R120), a
branch offset is even (R115), and UNSUPPORTED carries a word whose opcode is none of the five (R123). Every other
combination of operands is a word's (R124). -/
def Instr.wf : Instr → Bool
  | .sub _ _ _ => true
  | .add f7 _ _ _ => f7 != funct7Sub
  | .xor _ _ _ _ => true
  | .or _ _ _ _ => true
  | .and _ _ _ _ => true
  | .opF3_001 _ _ _ _ => true
  | .opF3_010 _ _ _ _ => true
  | .opF3_011 _ _ _ _ => true
  | .opF3_101 _ _ _ _ => true
  | .addi _ _ _ => true
  | .xori _ _ _ => true
  | .ori _ _ _ => true
  | .andi _ _ _ => true
  | .opImmF3_001 _ _ _ => true
  | .opImmF3_010 _ _ _ => true
  | .opImmF3_011 _ _ _ => true
  | .opImmF3_101 _ _ _ => true
  | .ld _ _ _ => true
  | .loadF3_000 _ _ _ => true
  | .loadF3_001 _ _ _ => true
  | .loadF3_010 _ _ _ => true
  | .loadF3_100 _ _ _ => true
  | .loadF3_101 _ _ _ => true
  | .loadF3_110 _ _ _ => true
  | .loadF3_111 _ _ _ => true
  | .sd _ _ _ => true
  | .storeF3_000 _ _ _ => true
  | .storeF3_001 _ _ _ => true
  | .storeF3_010 _ _ _ => true
  | .storeF3_100 _ _ _ => true
  | .storeF3_101 _ _ _ => true
  | .storeF3_110 _ _ _ => true
  | .storeF3_111 _ _ _ => true
  | .beq _ _ imm => offsetEven imm
  | .bne _ _ imm => offsetEven imm
  | .blt _ _ imm => offsetEven imm
  | .bge _ _ imm => offsetEven imm
  | .bltu _ _ imm => offsetEven imm
  | .bgeu _ _ imm => offsetEven imm
  | .branchF3_010 _ _ imm => offsetEven imm
  | .branchF3_011 _ _ imm => offsetEven imm
  | .unsupported inst => !opcodeSupported (opcodeOf inst)

/-- Whether a standard RISC-V assembler emits the instruction's word for one of the 17 mnemonics (30_encoding.md
R124; the `canonical_mask` of R129). The machine runs the other words too (92_eei_decisions.md D25): a claim about
RISC-V programs takes this predicate as a premise, no instruction is refused for it. -/
def Instr.canonical : Instr → Bool
  | .sub _ _ _ => true
  | .add f7 _ _ _ => f7 == 0#7
  | .xor f7 _ _ _ => f7 == 0#7
  | .or f7 _ _ _ => f7 == 0#7
  | .and f7 _ _ _ => f7 == 0#7
  | .opF3_001 _ _ _ _ => false
  | .opF3_010 _ _ _ _ => false
  | .opF3_011 _ _ _ _ => false
  | .opF3_101 _ _ _ _ => false
  | .addi _ _ _ => true
  | .xori _ _ _ => true
  | .ori _ _ _ => true
  | .andi _ _ _ => true
  | .opImmF3_001 _ _ _ => false
  | .opImmF3_010 _ _ _ => false
  | .opImmF3_011 _ _ _ => false
  | .opImmF3_101 _ _ _ => false
  | .ld _ _ _ => true
  | .loadF3_000 _ _ _ => false
  | .loadF3_001 _ _ _ => false
  | .loadF3_010 _ _ _ => false
  | .loadF3_100 _ _ _ => false
  | .loadF3_101 _ _ _ => false
  | .loadF3_110 _ _ _ => false
  | .loadF3_111 _ _ _ => false
  | .sd _ _ _ => true
  | .storeF3_000 _ _ _ => false
  | .storeF3_001 _ _ _ => false
  | .storeF3_010 _ _ _ => false
  | .storeF3_100 _ _ _ => false
  | .storeF3_101 _ _ _ => false
  | .storeF3_110 _ _ _ => false
  | .storeF3_111 _ _ _ => false
  | .beq _ _ _ => true
  | .bne _ _ _ => true
  | .blt _ _ _ => true
  | .bge _ _ _ => true
  | .bltu _ _ _ => true
  | .bgeu _ _ _ => true
  | .branchF3_010 _ _ _ => false
  | .branchF3_011 _ _ _ => false
  | .unsupported _ => false

end Sys2Proof
end

