-- ==== Sys2Proof/Decode.lean ====
section
/-! DEFINITION. The decoder, total on every word and on every list of bytes (30_encoding.md R130), and the
encoder, written from the formats of 30_encoding.md R112 to R115. -/

namespace Sys2Proof

/-- Little-endian value of a list of bytes, the first the least significant (20_memory.md R53). -/
def leValue : List Byte → Nat
  | [] => 0
  | b :: bs => b.toNat + 256 * leValue bs

/-- The `n` low bytes of a number, least significant first (20_memory.md R53). -/
def leBytes : Nat → Nat → List Byte
  | 0, _ => []
  | n + 1, v => BitVec.ofNat 8 v :: leBytes n (v / 256)

/-- Opcode OP by funct3, and funct7 for funct3 = 0 only (30_encoding.md R119, R120; 40_pipeline.md R147). -/
def decodeOp (f3 : BitVec 3) (f7 : BitVec 7) (rd rs1 rs2 : RegIdx) : Instr :=
  if f3 = funct3AddSub then
    if f7 = funct7Sub then .sub rd rs1 rs2 else .add f7 rd rs1 rs2
  else if f3 = funct3Xor then .xor f7 rd rs1 rs2
  else if f3 = funct3Or then .or f7 rd rs1 rs2
  else if f3 = funct3And then .and f7 rd rs1 rs2
  else if f3 = 0b001#3 then .opF3_001 f7 rd rs1 rs2
  else if f3 = 0b010#3 then .opF3_010 f7 rd rs1 rs2
  else if f3 = 0b011#3 then .opF3_011 f7 rd rs1 rs2
  else .opF3_101 f7 rd rs1 rs2

/-- Opcode OP-IMM by funct3 (30_encoding.md R119). -/
def decodeOpImm (f3 : BitVec 3) (rd rs1 : RegIdx) (imm : BitVec 12) : Instr :=
  if f3 = funct3AddSub then .addi rd rs1 imm
  else if f3 = funct3Xor then .xori rd rs1 imm
  else if f3 = funct3Or then .ori rd rs1 imm
  else if f3 = funct3And then .andi rd rs1 imm
  else if f3 = 0b001#3 then .opImmF3_001 rd rs1 imm
  else if f3 = 0b010#3 then .opImmF3_010 rd rs1 imm
  else if f3 = 0b011#3 then .opImmF3_011 rd rs1 imm
  else .opImmF3_101 rd rs1 imm

/-- Opcode LOAD: the row by funct3, which the hardware ignores (30_encoding.md R122). -/
def decodeLoad (f3 : BitVec 3) (rd rs1 : RegIdx) (imm : BitVec 12) : Instr :=
  if f3 = funct3Dword then .ld rd rs1 imm
  else if f3 = 0b000#3 then .loadF3_000 rd rs1 imm
  else if f3 = 0b001#3 then .loadF3_001 rd rs1 imm
  else if f3 = 0b010#3 then .loadF3_010 rd rs1 imm
  else if f3 = 0b100#3 then .loadF3_100 rd rs1 imm
  else if f3 = 0b101#3 then .loadF3_101 rd rs1 imm
  else if f3 = 0b110#3 then .loadF3_110 rd rs1 imm
  else .loadF3_111 rd rs1 imm

/-- Opcode STORE: the row by funct3, which the hardware ignores (30_encoding.md R122). -/
def decodeStore (f3 : BitVec 3) (rs1 rs2 : RegIdx) (imm : BitVec 12) : Instr :=
  if f3 = funct3Dword then .sd rs1 rs2 imm
  else if f3 = 0b000#3 then .storeF3_000 rs1 rs2 imm
  else if f3 = 0b001#3 then .storeF3_001 rs1 rs2 imm
  else if f3 = 0b010#3 then .storeF3_010 rs1 rs2 imm
  else if f3 = 0b100#3 then .storeF3_100 rs1 rs2 imm
  else if f3 = 0b101#3 then .storeF3_101 rs1 rs2 imm
  else if f3 = 0b110#3 then .storeF3_110 rs1 rs2 imm
  else .storeF3_111 rs1 rs2 imm

/-- Opcode BRANCH by funct3 (30_encoding.md R121). -/
def decodeBranch (f3 : BitVec 3) (rs1 rs2 : RegIdx) (imm : BitVec 13) : Instr :=
  if f3 = funct3Beq then .beq rs1 rs2 imm
  else if f3 = funct3Bne then .bne rs1 rs2 imm
  else if f3 = funct3Blt then .blt rs1 rs2 imm
  else if f3 = funct3Bge then .bge rs1 rs2 imm
  else if f3 = funct3Bltu then .bltu rs1 rs2 imm
  else if f3 = funct3Bgeu then .bgeu rs1 rs2 imm
  else if f3 = 0b010#3 then .branchF3_010 rs1 rs2 imm
  else .branchF3_011 rs1 rs2 imm

/-- The decoder: total, and rejecting by the constructor `unsupported` alone, on `inst[6:0]` alone (30_encoding.md
R123, R130). -/
def decodeWord (w : InstWord) : Instr :=
  if opcodeOf w = opcodeOp then decodeOp (funct3Of w) (funct7Of w) (rdOf w) (rs1Of w) (rs2Of w)
  else if opcodeOf w = opcodeOpImm then decodeOpImm (funct3Of w) (rdOf w) (rs1Of w) (immIOf w)
  else if opcodeOf w = opcodeLoad then decodeLoad (funct3Of w) (rdOf w) (rs1Of w) (immIOf w)
  else if opcodeOf w = opcodeStore then decodeStore (funct3Of w) (rs1Of w) (rs2Of w) (immSOf w)
  else if opcodeOf w = opcodeBranch then decodeBranch (funct3Of w) (rs1Of w) (rs2Of w) (immBOf w)
  else .unsupported w

/-- Why a list of bytes is no instruction. -/
inductive DecodeError where
  /-- Fewer than the 4 bytes every instruction has (30_encoding.md R110). -/
  | truncated
  deriving DecidableEq, Repr

/-- Decoding of bytes as they lie in memory, lowest address first: four bytes, little-endian (20_memory.md R53,
R57); the answer carries the bytes that follow. -/
def decodeBytes : List Byte → Except DecodeError (Instr × List Byte)
  | b0 :: b1 :: b2 :: b3 :: rest => .ok (decodeWord (BitVec.ofNat 32 (leValue [b0, b1, b2, b3])), rest)
  | _ => .error .truncated

/-- R format (30_encoding.md R112). -/
def encodeR (f7 : BitVec 7) (rs2 rs1 : RegIdx) (f3 : BitVec 3) (rd : RegIdx) (op : BitVec 7) : InstWord :=
  f7 ++ rs2 ++ rs1 ++ f3 ++ rd ++ op

/-- I format (30_encoding.md R113). -/
def encodeI (imm : BitVec 12) (rs1 : RegIdx) (f3 : BitVec 3) (rd : RegIdx) (op : BitVec 7) : InstWord :=
  imm ++ rs1 ++ f3 ++ rd ++ op

/-- S format: `imm[11:5]`, rs2, rs1, funct3, `imm[4:0]` (30_encoding.md R114). -/
def encodeS (imm : BitVec 12) (rs2 rs1 : RegIdx) (f3 : BitVec 3) (op : BitVec 7) : InstWord :=
  (imm.extractLsb 11 5 ++ rs2 ++ rs1 ++ f3 ++ imm.extractLsb 4 0 ++ op : BitVec 32)

/-- B format: `imm[12]`, `imm[10:5]`, rs2, rs1, funct3, `imm[4:1]`, `imm[11]` (30_encoding.md R115). -/
def encodeB (imm : BitVec 13) (rs2 rs1 : RegIdx) (f3 : BitVec 3) (op : BitVec 7) : InstWord :=
  (imm.extractLsb 12 12 ++ imm.extractLsb 10 5 ++ rs2 ++ rs1 ++ f3 ++ imm.extractLsb 4 1 ++
    imm.extractLsb 11 11 ++ op : BitVec 32)

/-- The word of an instruction. -/
def encode : Instr → InstWord
  | .sub rd rs1 rs2 => encodeR funct7Sub rs2 rs1 funct3AddSub rd opcodeOp
  | .add f7 rd rs1 rs2 => encodeR f7 rs2 rs1 funct3AddSub rd opcodeOp
  | .xor f7 rd rs1 rs2 => encodeR f7 rs2 rs1 funct3Xor rd opcodeOp
  | .or f7 rd rs1 rs2 => encodeR f7 rs2 rs1 funct3Or rd opcodeOp
  | .and f7 rd rs1 rs2 => encodeR f7 rs2 rs1 funct3And rd opcodeOp
  | .opF3_001 f7 rd rs1 rs2 => encodeR f7 rs2 rs1 0b001#3 rd opcodeOp
  | .opF3_010 f7 rd rs1 rs2 => encodeR f7 rs2 rs1 0b010#3 rd opcodeOp
  | .opF3_011 f7 rd rs1 rs2 => encodeR f7 rs2 rs1 0b011#3 rd opcodeOp
  | .opF3_101 f7 rd rs1 rs2 => encodeR f7 rs2 rs1 0b101#3 rd opcodeOp
  | .addi rd rs1 imm => encodeI imm rs1 funct3AddSub rd opcodeOpImm
  | .xori rd rs1 imm => encodeI imm rs1 funct3Xor rd opcodeOpImm
  | .ori rd rs1 imm => encodeI imm rs1 funct3Or rd opcodeOpImm
  | .andi rd rs1 imm => encodeI imm rs1 funct3And rd opcodeOpImm
  | .opImmF3_001 rd rs1 imm => encodeI imm rs1 0b001#3 rd opcodeOpImm
  | .opImmF3_010 rd rs1 imm => encodeI imm rs1 0b010#3 rd opcodeOpImm
  | .opImmF3_011 rd rs1 imm => encodeI imm rs1 0b011#3 rd opcodeOpImm
  | .opImmF3_101 rd rs1 imm => encodeI imm rs1 0b101#3 rd opcodeOpImm
  | .ld rd rs1 imm => encodeI imm rs1 funct3Dword rd opcodeLoad
  | .loadF3_000 rd rs1 imm => encodeI imm rs1 0b000#3 rd opcodeLoad
  | .loadF3_001 rd rs1 imm => encodeI imm rs1 0b001#3 rd opcodeLoad
  | .loadF3_010 rd rs1 imm => encodeI imm rs1 0b010#3 rd opcodeLoad
  | .loadF3_100 rd rs1 imm => encodeI imm rs1 0b100#3 rd opcodeLoad
  | .loadF3_101 rd rs1 imm => encodeI imm rs1 0b101#3 rd opcodeLoad
  | .loadF3_110 rd rs1 imm => encodeI imm rs1 0b110#3 rd opcodeLoad
  | .loadF3_111 rd rs1 imm => encodeI imm rs1 0b111#3 rd opcodeLoad
  | .sd rs1 rs2 imm => encodeS imm rs2 rs1 funct3Dword opcodeStore
  | .storeF3_000 rs1 rs2 imm => encodeS imm rs2 rs1 0b000#3 opcodeStore
  | .storeF3_001 rs1 rs2 imm => encodeS imm rs2 rs1 0b001#3 opcodeStore
  | .storeF3_010 rs1 rs2 imm => encodeS imm rs2 rs1 0b010#3 opcodeStore
  | .storeF3_100 rs1 rs2 imm => encodeS imm rs2 rs1 0b100#3 opcodeStore
  | .storeF3_101 rs1 rs2 imm => encodeS imm rs2 rs1 0b101#3 opcodeStore
  | .storeF3_110 rs1 rs2 imm => encodeS imm rs2 rs1 0b110#3 opcodeStore
  | .storeF3_111 rs1 rs2 imm => encodeS imm rs2 rs1 0b111#3 opcodeStore
  | .beq rs1 rs2 imm => encodeB imm rs2 rs1 funct3Beq opcodeBranch
  | .bne rs1 rs2 imm => encodeB imm rs2 rs1 funct3Bne opcodeBranch
  | .blt rs1 rs2 imm => encodeB imm rs2 rs1 funct3Blt opcodeBranch
  | .bge rs1 rs2 imm => encodeB imm rs2 rs1 funct3Bge opcodeBranch
  | .bltu rs1 rs2 imm => encodeB imm rs2 rs1 funct3Bltu opcodeBranch
  | .bgeu rs1 rs2 imm => encodeB imm rs2 rs1 funct3Bgeu opcodeBranch
  | .branchF3_010 rs1 rs2 imm => encodeB imm rs2 rs1 0b010#3 opcodeBranch
  | .branchF3_011 rs1 rs2 imm => encodeB imm rs2 rs1 0b011#3 opcodeBranch
  | .unsupported inst => inst

/-- The four bytes in which the hardware stores an instruction word given as a number of `nbits` bits; the bits
above are 0 (20_memory.md R53; 30_encoding.md R110). -/
def tableWordBytes (nbits w : Nat) : List Byte := leBytes 4 (w % 2 ^ nbits)

/-- The instruction the decoder reads from an opcode-table word laid out in memory. -/
def decodeTableWord (nbits w : Nat) : Option Instr :=
  match decodeBytes (tableWordBytes nbits w) with
  | .ok (i, _) => some i
  | .error _ => none

end Sys2Proof
end

