-- ==== Sys2Proof/Config.lean ====
section
/-! DEFINITION. The implementation parameters the source leaves open (00_scope.md R7, R8). They are plain data
that State carries and no step changes, so a statement about every state is a statement about every legal choice
of them (92_eei_decisions.md D10, D11). The parameters of the start of a run, RESET_PC, REG_INIT and MEM_INIT, are
the arguments of `Machine.State.init`; END_OF_RUN is in Safety.lean. -/

namespace Sys2Proof

/-- BLOCK_SIZE and NUM_SETS by their base-two logarithms (both are powers of two, 00_scope.md R8), and
CACHE_ENABLE (10_state.md R37). -/
structure Params where
  /-- `OB = log2(BLOCK_SIZE)`, the number of offset bits. -/
  blockBits : Nat
  /-- `SB = log2(NUM_SETS)`, the number of set-index bits. -/
  setBits : Nat
  /-- Whether the memory stage goes through the cache. -/
  cacheEnable : Bool
  deriving DecidableEq, Repr

namespace Params

/-- BLOCK_SIZE, in bytes (00_scope.md R8). -/
def blockSize (p : Params) : Nat := 2 ^ p.blockBits

/-- NUM_SETS (00_scope.md R8). -/
def numSets (p : Params) : Nat := 2 ^ p.setBits

/-- The constraints of 00_scope.md R8: `BLOCK_SIZE >= 8` and `OB + SB < 64`; `NUM_SETS = 1` is allowed. A
configuration outside them is refused (93_implementation_defined.md U19). -/
abbrev wf (p : Params) : Prop := 3 ≤ p.blockBits ∧ p.blockBits + p.setBits < 64

end Params

end Sys2Proof
end

