-- ==== Sys2Proof/Machine/Memory.lean ====
section
/-! DEFINITION. The backing store as plain data: the bytes that differ from `Memory.background`, in rising address
order (10_state.md R29; 20_memory.md R50 to R52). Every total map from 64-bit addresses to bytes is such a list, so
a statement about every memory is a statement about every MEM_INIT (70_reset_and_hazards.md R323; log entry 4). -/

namespace Sys2Proof.Machine

/-- The backing store: a list of (address, byte) cells. -/
abbrev Memory := List Host.Cell

namespace Memory

/-- What an unlisted address reads as. MEM_INIT is open in the spec; this byte is the background of every memory
(DESIGN CHOICE, log entry 4). -/
def background : Byte := 0x00#8

/-- The byte at an address. -/
def read : Memory → Nat → Byte
  | [], _ => background
  | c :: m, a => if c.1 = a then c.2 else read m a

/-- The memory without any cell at an address. -/
def erase (m : Memory) (a : Nat) : Memory := m.filter (fun c => c.1 != a)

/-- A cell put before the first cell of a higher address. -/
def insert : Memory → Nat → Byte → Memory
  | [], a, b => [(a, b)]
  | c :: m, a, b => if a < c.1 then (a, b) :: c :: m else c :: insert m a b

/-- The memory after a byte is stored: writing the background byte removes the cell, so that equal memories are
equal lists. -/
def write (m : Memory) (a : Nat) (b : Byte) : Memory :=
  if b = background then m.erase a else (m.erase a).insert a b

/-- The canonical form: addresses strictly rising, none outside the 64-bit space (10_state.md R29), no cell equal
to the background. -/
abbrev wf (m : Memory) : Prop :=
  m.Pairwise (fun c d => c.1 < d.1) ∧ ∀ c ∈ m, c.2 ≠ background ∧ c.1 < 2 ^ 64

end Memory

end Sys2Proof.Machine
end

