-- ==== Sys2Proof/Machine/ResetValues.lean ====
section
/-! DEFINITION. The values of the open parameters with which `State.reset` starts. The spec gives none (00_scope.md
R7; 91_not_in_source.md N9, N11, N12): each is a DESIGN CHOICE, taken from the conventions of the spec's own
examples in 95_test_vectors.md but for CACHE_ENABLE, and no statement about every state rests on one. -/

namespace Sys2Proof.Machine

/-- BLOCK_SIZE = 16 and NUM_SETS = 4, the sizes of the spec's examples (95_test_vectors.md), and the cache
enabled (DESIGN CHOICE, log entry 1). -/
def resetParams : Params := { blockBits := 4, setBits := 2, cacheEnable := true }

/-- RESET_PC, the example program start of 95_test_vectors.md part 3 (DESIGN CHOICE, log entry 2). -/
def resetPc : Word := 0x1000#64

/-- REG_INIT: x1 to x31 (DESIGN CHOICE, log entry 3). -/
def resetRegs : Vector Word 31 := Vector.replicate 31 0x0#64

/-- MEM_INIT: nothing listed (DESIGN CHOICE, log entry 4). -/
def resetMem : Memory := []

/-- `tag[s]` of a set that is INVALID from reset: unspecified and never observed (70_reset_and_hazards.md R320;
DESIGN CHOICE, log entry 5). -/
def resetTag : Word := 0x0#64

/-- Each byte of `data[s]` of a set that is INVALID from reset: as `resetTag`. -/
def resetDataByte : Byte := 0x00#8

end Sys2Proof.Machine
end

