-- ==== Sys2Proof/Machine/State.lean ====
section
/-! DEFINITION. Everything the spec gives the machine (10_state.md R20, R35, R37), the reasons a step can stop, and
the state after reset (70_reset_and_hazards.md R325). -/

namespace Sys2Proof.Machine

/-- The lifecycle of a cache block, a type with exactly three values, so that `InvalidCacheState` cannot be
represented (10_state.md R35; 21_cache.md R84, R100; 60_exceptions.md R284). -/
inductive BlockState where
  | invalid
  | clean
  | dirty
  deriving DecidableEq, Repr

/-- The one block of a set (10_state.md R35). -/
structure CacheSet where
  /-- `state[s]` -/
  state : BlockState
  /-- `tag[s]`, the address bits above the set index; its width `64 - OB - SB` is a bound the invariant keeps. -/
  tag : Word
  /-- `data[s][0 .. BLOCK_SIZE-1]` -/
  data : List Byte
  deriving DecidableEq, Repr

/-- The general registers x1 to x31, slot `k` holding `x(k+1)`; x0 has no slot (10_state.md R21; decision D30). -/
abbrev Registers := Vector Word 31

/-- The machine's state. -/
structure State where
  /-- The parameters of the run, which no step changes (00_scope.md R7; 70_reset_and_hazards.md R331). -/
  params : Params
  /-- The program counter the driver holds (10_state.md R24). -/
  pc : Word
  /-- The register file (10_state.md R21). -/
  regs : Registers
  /-- The backing store (10_state.md R29). -/
  mem : Memory
  /-- The cache's set array, set `s` at place `s` (10_state.md R35). -/
  cache : List CacheSet
  deriving DecidableEq, Repr

/-- Why the machine stops: the closed enumeration of 60_exceptions.md R286. -/
inductive Fault where
  /-- The decode stage's error, raised for the word at `pc` whose opcode is none of the five (60_exceptions.md R281,
  R282). Safe: the spec ends the run here (R283), and nothing is invented after it. -/
  | unsupportedInstruction (pc : Word) (inst : InstWord)
  /-- Raised by `step` before a fetch at a pc that is not a multiple of 4: the spec's model-level fault for a
  broken precondition, no trap of the hardware (20_memory.md R55; 60_exceptions.md R285). Safe. -/
  | misalignedFetch (pc : Word)
  /-- Raised by a load or store whose address is not a multiple of 8: as `misalignedFetch` (20_memory.md R54;
  60_exceptions.md R285). Safe. -/
  | misalignedData (addr : Word)
  deriving DecidableEq, Repr

/-- Why the machine has no step. -/
inductive Refusal where
  /-- Raised by `exec` for an instruction without a meaning yet; none is left. Safe. -/
  | notModelled (mnemonic : String)
  /-- Raised by `step` in a state whose parameters break 00_scope.md R8 (93_implementation_defined.md U19). Safe. -/
  | badParameters
  deriving DecidableEq, Repr

/-- A set that holds nothing (21_cache.md R84, R85). -/
def invalidSet (p : Params) : CacheSet :=
  { state := .invalid, tag := resetTag, data := List.replicate p.blockSize resetDataByte }

/-- The state after reset for every choice of the open parameters: every set INVALID, the rest as given
(70_reset_and_hazards.md R325). -/
def State.init (p : Params) (pc : Word) (regs : Registers) (mem : Memory) : State :=
  { params := p, pc := pc, regs := regs, mem := mem, cache := List.replicate p.numSets (invalidSet p) }

/-- The machine right after reset, with the values of Machine/ResetValues.lean for the open parameters. -/
def State.reset : State := State.init resetParams resetPc resetRegs resetMem

end Sys2Proof.Machine
end

