-- ==== Sys2Proof/Machine/Ops.lean ====
section
/-! DEFINITION. The named operations over registers, the backing store and the pc, and the one operation that
reports an error (10_state.md R22 to R25; 20_memory.md R50 to R60; 60_exceptions.md R281 to R285). The hardware has
no trap entry and no return from a trap (60_exceptions.md R288, R289): an error stops the run. -/

namespace Sys2Proof.Machine

/-- Slot of a register index other than 0 in `Registers`. -/
theorem slot_lt (i : RegIdx) : i.toNat - 1 < 31 := by
  have := i.isLt
  omega

/-- A read port of the register file: 0 for index 0, else the slot (10_state.md R22). -/
def regRead (r : Registers) (i : RegIdx) : Word :=
  if i = 0#5 then 0#64 else r[i.toNat - 1]'(slot_lt i)

/-- The write port of the register file: index 0 is never written (10_state.md R23; 40_pipeline.md R166). -/
def regWrite (r : Registers) (i : RegIdx) (v : Word) : Registers :=
  if i = 0#5 then r else r.set (i.toNat - 1) v (slot_lt i)

/-- `x[i]` -/
def State.x (s : State) (i : RegIdx) : Word := regRead s.regs i

/-- `x[i] <- v` -/
def State.setX (s : State) (i : RegIdx) (v : Word) : State := { s with regs := regWrite s.regs i v }

/-- `pc <- t` (10_state.md R25). -/
def State.goto (s : State) (t : Word) : State := { s with pc := t }

/-- `pc <- pc + 4`, modulo `2^64` (10_state.md R25; decision D20). -/
def State.advance (s : State) : State := s.goto (s.pc + 4#64)

/-- `read_byte(a)`, which is also `backing(a)` (20_memory.md R50, R69). -/
def State.backing (s : State) (a : Word) : Byte := s.mem.read a.toNat

/-- `write_byte(a, b)` (20_memory.md R50). -/
def State.writeByte (s : State) (a : Word) (b : Byte) : State := { s with mem := s.mem.write a.toNat b }

/-- `read_byte` at `n` ascending addresses from `a` (20_memory.md R57, R60; 21_cache.md R89). -/
def readBytes (m : Memory) (a : Word) : Nat → List Byte
  | 0 => []
  | n + 1 => m.read a.toNat :: readBytes m (a + 1#64) n

/-- `write_byte` of each byte at ascending addresses from `a` (20_memory.md R60; 21_cache.md R90). -/
def writeBytes (m : Memory) (a : Word) : List Byte → Memory
  | [] => m
  | b :: bs => writeBytes (m.write a.toNat b) (a + 1#64) bs

/-- A 64-bit value from its bytes, the first in bits 7:0 (20_memory.md R53). -/
def dwordOf (bs : List Byte) : Word := BitVec.ofNat 64 (leValue bs)

/-- The eight bytes of a 64-bit value, bits 7:0 first (20_memory.md R53). -/
def dwordBytes (v : Word) : List Byte := leBytes 8 v.toNat

/-- The precondition of a fetch, `pc[1:0] = 0` (20_memory.md R55). -/
def aligned4 (a : Word) : Bool := a.extractLsb 1 0 == 0#2

/-- The precondition of a data access, `addr[2:0] = 0` (20_memory.md R54). -/
def aligned8 (a : Word) : Bool := a.extractLsb 2 0 == 0#3

/-- `FetchRead(pc)`: four bytes of the backing store, never of the cache, little-endian (20_memory.md R57, R67). -/
def fetchRead (s : State) (pc : Word) : InstWord := BitVec.ofNat 32 (leValue (readBytes s.mem pc 4))

/-- `direct_read(addr)` (20_memory.md R60; decision D8). -/
def directRead (s : State) (a : Word) : Word := dwordOf (readBytes s.mem a 8)

/-- `direct_write(addr, v)` (20_memory.md R60; decision D8). -/
def directWrite (s : State) (a v : Word) : State := { s with mem := writeBytes s.mem a (dwordBytes v) }

/-- `raise UnsupportedInstruction(pc, inst)`: reported to the driver, no state changed, no next pc; the run ends in
the state before the instruction (60_exceptions.md R282, R283; decision D5). -/
def raiseUnsupported (s : State) (inst : InstWord) : Host.Outcome State Fault Refusal :=
  .fault (.unsupportedInstruction s.pc inst)

end Sys2Proof.Machine
end

