-- ==== Sys2Proof/Machine/Operands.lean ====
section
/-! DEFINITION. The operand forms and the ALU: register, sign-extended immediate, base plus displacement, branch
target (40_pipeline.md R151, R152; 43_load.md R220; 44_store.md R230; 45_branch.md R240). -/

namespace Sys2Proof.Machine

/-- The ALU: 64 bits, wrapping, no flag, no trap (40_pipeline.md R152; 60_exceptions.md R299). -/
def alu (op : AluOp) (a b : Word) : Word :=
  match op with
  | .add => a + b
  | .sub => a - b
  | .xor => a ^^^ b
  | .or => a ||| b
  | .and => a &&& b

/-- The address of a load or store, `(x[rs1] + sext_12(imm)) mod 2^64` (43_load.md R220; 44_store.md R230;
20_memory.md R70). -/
def dataAddr (s : State) (rs1 : RegIdx) (imm : BitVec 12) : Word := alu .add (s.x rs1) (sext imm)

/-- The target of a branch, `(pc + sext_13(imm)) mod 2^64`, from the address of the branch itself (45_branch.md
R240). -/
def branchTarget (s : State) (imm : BitVec 13) : Word := alu .add s.pc (sext imm)

end Sys2Proof.Machine
end

