-- ==== Sys2Proof/Machine/AluImm.lean ====
section
/-! DEFINITION. Register-immediate ALU instructions, opcode OP-IMM (42_alu_imm.md). -/

namespace Sys2Proof.Machine

/-- The family template: `x[rd] <- alu(op, x[rs1], sext_12(imm)); pc <- pc + 4`; the immediate is sign-extended
before every operation, the write is dropped when rd = 0, nothing is raised (42_alu_imm.md R200). -/
def aluRegImm (op : AluOp) (rd rs1 : RegIdx) (imm : BitVec 12) (s : State) : Host.Outcome State Fault Refusal :=
  .next (s.setX rd (alu op (s.x rs1) (sext imm))).advance

/-- ADDI (42_alu_imm.md R201). -/
def execAddi (rd rs1 : RegIdx) (imm : BitVec 12) (s : State) : Host.Outcome State Fault Refusal :=
  aluRegImm .add rd rs1 imm s

/-- XORI (42_alu_imm.md R202). -/
def execXori (rd rs1 : RegIdx) (imm : BitVec 12) (s : State) : Host.Outcome State Fault Refusal :=
  aluRegImm .xor rd rs1 imm s

/-- ORI (42_alu_imm.md R203). -/
def execOri (rd rs1 : RegIdx) (imm : BitVec 12) (s : State) : Host.Outcome State Fault Refusal :=
  aluRegImm .or rd rs1 imm s

/-- ANDI (42_alu_imm.md R204). -/
def execAndi (rd rs1 : RegIdx) (imm : BitVec 12) (s : State) : Host.Outcome State Fault Refusal :=
  aluRegImm .and rd rs1 imm s

/-- OP-IMM with funct3 = 001: ADDI of the whole 12-bit immediate (42_alu_imm.md R205). -/
def execOpImmF3_001 (rd rs1 : RegIdx) (imm : BitVec 12) (s : State) : Host.Outcome State Fault Refusal :=
  aluRegImm .add rd rs1 imm s

/-- OP-IMM with funct3 = 010: ADDI (42_alu_imm.md R206). -/
def execOpImmF3_010 (rd rs1 : RegIdx) (imm : BitVec 12) (s : State) : Host.Outcome State Fault Refusal :=
  aluRegImm .add rd rs1 imm s

/-- OP-IMM with funct3 = 011: ADDI (42_alu_imm.md R207). -/
def execOpImmF3_011 (rd rs1 : RegIdx) (imm : BitVec 12) (s : State) : Host.Outcome State Fault Refusal :=
  aluRegImm .add rd rs1 imm s

/-- OP-IMM with funct3 = 101: ADDI, `inst[30]` an immediate bit like the rest (42_alu_imm.md R208). -/
def execOpImmF3_101 (rd rs1 : RegIdx) (imm : BitVec 12) (s : State) : Host.Outcome State Fault Refusal :=
  aluRegImm .add rd rs1 imm s

end Sys2Proof.Machine
end

