-- ==== Sys2Proof/Machine/AluReg.lean ====
section
/-! DEFINITION. Register-register ALU instructions, opcode OP (41_alu_reg.md). -/

namespace Sys2Proof.Machine

/-- The family template: `x[rd] <- alu(op, x[rs1], x[rs2]); pc <- pc + 4`; both sources are read before the write,
the write is dropped when rd = 0, memory and the cache are not touched, nothing is raised (41_alu_reg.md R180). -/
def aluRegReg (op : AluOp) (rd rs1 rs2 : RegIdx) (s : State) : Host.Outcome State Fault Refusal :=
  .next (s.setX rd (alu op (s.x rs1) (s.x rs2))).advance

/-- SUB (41_alu_reg.md R182). -/
def execSub (rd rs1 rs2 : RegIdx) (s : State) : Host.Outcome State Fault Refusal := aluRegReg .sub rd rs1 rs2 s

/-- ADD, for every funct7 but the subtract mark (41_alu_reg.md R181, R190). -/
def execAdd (_f7 : BitVec 7) (rd rs1 rs2 : RegIdx) (s : State) : Host.Outcome State Fault Refusal :=
  aluRegReg .add rd rs1 rs2 s

/-- XOR, funct7 not consulted (41_alu_reg.md R183, R190). -/
def execXor (_f7 : BitVec 7) (rd rs1 rs2 : RegIdx) (s : State) : Host.Outcome State Fault Refusal :=
  aluRegReg .xor rd rs1 rs2 s

/-- OR, funct7 not consulted (41_alu_reg.md R184, R190). -/
def execOr (_f7 : BitVec 7) (rd rs1 rs2 : RegIdx) (s : State) : Host.Outcome State Fault Refusal :=
  aluRegReg .or rd rs1 rs2 s

/-- AND, funct7 not consulted (41_alu_reg.md R185, R190). -/
def execAnd (_f7 : BitVec 7) (rd rs1 rs2 : RegIdx) (s : State) : Host.Outcome State Fault Refusal :=
  aluRegReg .and rd rs1 rs2 s

/-- OP with funct3 = 001: ADD, whatever funct7 is (41_alu_reg.md R186). -/
def execOpF3_001 (_f7 : BitVec 7) (rd rs1 rs2 : RegIdx) (s : State) : Host.Outcome State Fault Refusal :=
  aluRegReg .add rd rs1 rs2 s

/-- OP with funct3 = 010: ADD, whatever funct7 is (41_alu_reg.md R187). -/
def execOpF3_010 (_f7 : BitVec 7) (rd rs1 rs2 : RegIdx) (s : State) : Host.Outcome State Fault Refusal :=
  aluRegReg .add rd rs1 rs2 s

/-- OP with funct3 = 011: ADD, whatever funct7 is (41_alu_reg.md R188). -/
def execOpF3_011 (_f7 : BitVec 7) (rd rs1 rs2 : RegIdx) (s : State) : Host.Outcome State Fault Refusal :=
  aluRegReg .add rd rs1 rs2 s

/-- OP with funct3 = 101: ADD, whatever funct7 is (41_alu_reg.md R189). -/
def execOpF3_101 (_f7 : BitVec 7) (rd rs1 rs2 : RegIdx) (s : State) : Host.Outcome State Fault Refusal :=
  aluRegReg .add rd rs1 rs2 s

end Sys2Proof.Machine
end

