-- ==== Sys2Proof/Machine/Flags.lean ====
section
/-! DEFINITION. The hardware has no flags: no condition code is set or read, carry and overflow are not recorded
(10_state.md R26). What it has in their place is the comparison inside a branch (40_pipeline.md R153). -/

namespace Sys2Proof.Machine

/-- Whether a branch condition holds of two register values, read as signed (LT, GE), unsigned (LTU, GEU) or
compared bit for bit (EQ, NEQ); NEVER and ALWAYS look at neither (40_pipeline.md R153; decision D27). -/
def condHolds (c : BrCond) (a b : Word) : Bool :=
  match c with
  | .never => false
  | .always => true
  | .eq => decide (a = b)
  | .neq => decide (a ≠ b)
  | .lt => decide (a.toInt < b.toInt)
  | .ge => decide (a.toInt ≥ b.toInt)
  | .ltu => decide (a.toNat < b.toNat)
  | .geu => decide (a.toNat ≥ b.toNat)

end Sys2Proof.Machine
end

