-- ==== Sys2Proof/Machine/Branch.lean ====
section
/-! DEFINITION. Conditional branches, opcode BRANCH, the only control transfer of the hardware (45_branch.md). -/

namespace Sys2Proof.Machine

/-- The family template: `pc <- taken ? pc + sext_13(imm) : pc + 4`. No register, memory or cache set changes, no
delay slot, and the target is not checked: a target that is no multiple of 4 stops the fetch after it, not the
branch (45_branch.md R240; 20_memory.md R55). -/
def condBranch (c : BrCond) (rs1 rs2 : RegIdx) (imm : BitVec 13) (s : State) : Host.Outcome State Fault Refusal :=
  .next (if condHolds c (s.x rs1) (s.x rs2) then s.goto (branchTarget s imm) else s.advance)

/-- BEQ (45_branch.md R241). -/
def execBeq (rs1 rs2 : RegIdx) (imm : BitVec 13) (s : State) : Host.Outcome State Fault Refusal :=
  condBranch .eq rs1 rs2 imm s

/-- BNE (45_branch.md R242). -/
def execBne (rs1 rs2 : RegIdx) (imm : BitVec 13) (s : State) : Host.Outcome State Fault Refusal :=
  condBranch .neq rs1 rs2 imm s

/-- BLT, signed (45_branch.md R243). -/
def execBlt (rs1 rs2 : RegIdx) (imm : BitVec 13) (s : State) : Host.Outcome State Fault Refusal :=
  condBranch .lt rs1 rs2 imm s

/-- BGE, signed (45_branch.md R244). -/
def execBge (rs1 rs2 : RegIdx) (imm : BitVec 13) (s : State) : Host.Outcome State Fault Refusal :=
  condBranch .ge rs1 rs2 imm s

/-- BLTU, unsigned (45_branch.md R245). -/
def execBltu (rs1 rs2 : RegIdx) (imm : BitVec 13) (s : State) : Host.Outcome State Fault Refusal :=
  condBranch .ltu rs1 rs2 imm s

/-- BGEU, unsigned (45_branch.md R246). -/
def execBgeu (rs1 rs2 : RegIdx) (imm : BitVec 13) (s : State) : Host.Outcome State Fault Refusal :=
  condBranch .geu rs1 rs2 imm s

/-- BRANCH with funct3 = 010: never taken (45_branch.md R247). -/
def execBranchF3_010 (rs1 rs2 : RegIdx) (imm : BitVec 13) (s : State) : Host.Outcome State Fault Refusal :=
  condBranch .never rs1 rs2 imm s

/-- BRANCH with funct3 = 011: never taken (45_branch.md R248). -/
def execBranchF3_011 (rs1 rs2 : RegIdx) (imm : BitVec 13) (s : State) : Host.Outcome State Fault Refusal :=
  condBranch .never rs1 rs2 imm s

end Sys2Proof.Machine
end

