-- ==== Sys2Proof/Machine/Cache.lean ====
section
/-! DEFINITION. The cache engine (21_cache.md): the address split, the per-set state machine, fill, writeback, the
two requests, and what each observer of memory sees (20_memory.md R69). -/

namespace Sys2Proof.Machine

/-! The address split, 21_cache.md R82 and R83, in the document's own formulas. -/

/-- `BLOCK_SIZE` as an address-wide value. -/
def blockSizeWord (p : Params) : Word := 1#64 <<< p.blockBits

/-- `NUM_SETS` as an address-wide value. -/
def numSetsWord (p : Params) : Word := 1#64 <<< p.setBits

/-- `offset = address & (block_size - 1)` -/
def offsetOf (p : Params) (a : Word) : Word := a &&& (blockSizeWord p - 1#64)

/-- `set_index = (address >> OB) & (num_sets - 1)` -/
def setIndexOf (p : Params) (a : Word) : Word := (a >>> p.blockBits) &&& (numSetsWord p - 1#64)

/-- `tag = address >> (OB + SB)` -/
def tagOf (p : Params) (a : Word) : Word := a >>> (p.blockBits + p.setBits)

/-- `block_base = address & ~(block_size - 1)` -/
def blockBaseOf (p : Params) (a : Word) : Word := a &&& ~~~(blockSizeWord p - 1#64)

/-- `reconstruct(t, s, o) = (t << (OB + SB)) | (s << OB) | o` -/
def reconstruct (p : Params) (t s o : Word) : Word := (t <<< (p.blockBits + p.setBits)) ||| (s <<< p.blockBits) ||| o

/-! One set. -/

/-- The block of set `i`. The default is for an index outside the array, which the invariant rules out. -/
def State.setAt (s : State) (i : Word) : CacheSet := (s.cache[i.toNat]?).getD (invalidSet s.params)

/-- The block of set `i` replaced. -/
def State.putSet (s : State) (i : Word) (c : CacheSet) : State := { s with cache := s.cache.set i.toNat c }

/-- The block of the set an address maps to. -/
def State.setFor (s : State) (a : Word) : CacheSet := s.setAt (setIndexOf s.params a)

/-- Bytes stored into a block's array from place `o` on. -/
def setBytes (data : List Byte) (o : Nat) : List Byte → List Byte
  | [] => data
  | b :: bs => setBytes (data.set o b) (o + 1) bs

/-! Fill, writeback, lookup. -/

/-- `fill(s, a)`: the whole block from the backing store, the tag set, the state CLEAN (21_cache.md R89). -/
def fill (s : State) (a : Word) : State :=
  s.putSet (setIndexOf s.params a)
    { state := .clean, tag := tagOf s.params a,
      data := readBytes s.mem (blockBaseOf s.params a) s.params.blockSize }

/-- `writeback(s)` of the set an address maps to: the whole block to the address rebuilt from the block's own tag,
not from the triggering address (21_cache.md R90, R96). -/
def writeback (s : State) (a : Word) : State :=
  { s with
    mem := writeBytes s.mem (reconstruct s.params (s.setFor a).tag (setIndexOf s.params a) 0#64) (s.setFor a).data }

/-- `lookup(a)`: the set of `a` brought to a hit on `a`; on an INVALID set the tag is not compared (21_cache.md R86,
R87; decision D22). -/
def lookup (s : State) (a : Word) : State :=
  match (s.setFor a).state with
  | .invalid => fill s a
  | .clean => if (s.setFor a).tag = tagOf s.params a then s else fill s a
  | .dirty => if (s.setFor a).tag = tagOf s.params a then s else fill (writeback s a) a

/-- `cache_read(a)`, for `a[2:0] = 0` (21_cache.md R91): the state after it and the value. -/
def cacheRead (s : State) (a : Word) : State × Word :=
  (lookup s a, dwordOf ((((lookup s a).setFor a).data.drop (offsetOf s.params a).toNat).take 8))

/-- The block of `a` with eight bytes stored and the state forced DIRTY (21_cache.md R93, R94). -/
def modifySet (s : State) (a v : Word) : State :=
  s.putSet (setIndexOf s.params a)
    { s.setFor a with
      state := .dirty,
      data := setBytes (s.setFor a).data (offsetOf s.params a).toNat (dwordBytes v) }

/-- `cache_write(a, v)`, for `a[2:0] = 0` (21_cache.md R93). -/
def cacheWrite (s : State) (a v : Word) : State := modifySet (lookup s a) a v

/-! The memory stage's two accesses. -/

/-- `MemRead(addr, 8)` (20_memory.md R58). -/
def memRead (s : State) (a : Word) : State × Word :=
  if s.params.cacheEnable then cacheRead s a else (s, directRead s a)

/-- `MemWrite(addr, 8, v)` (20_memory.md R59). -/
def memWrite (s : State) (a v : Word) : State :=
  if s.params.cacheEnable then cacheWrite s a v else directWrite s a v

/-! What each observer sees, 20_memory.md R69. -/

/-- `cached(a)` -/
def State.cached (s : State) (a : Word) : Bool :=
  s.params.cacheEnable && (s.setFor a).state != .invalid && (s.setFor a).tag == tagOf s.params a

/-- `view(a)`: what a load would return for the byte at `a`. -/
def State.view (s : State) (a : Word) : Byte :=
  if s.cached a then ((s.setFor a).data[(offsetOf s.params a).toNat]?).getD 0x00#8 else s.backing a

/-- The eight bytes of `view` from `a` on, as a value. -/
def State.viewDword (s : State) (a : Word) : Word :=
  dwordOf ((List.range 8).map fun k => s.view (a + BitVec.ofNat 64 k))

/-- Whether a request at `a` finds a DIRTY block of another tag, which it writes back first (21_cache.md R87). -/
def State.evicts (s : State) (a : Word) : Bool :=
  s.params.cacheEnable && (s.setFor a).state == .dirty && (s.setFor a).tag != tagOf s.params a

/-- Whether `b` lies in the block a request at `a` writes back (21_cache.md R90). -/
def State.evictedByte (s : State) (a b : Word) : Bool :=
  s.evicts a && setIndexOf s.params b == setIndexOf s.params a && tagOf s.params b == (s.setFor a).tag

end Sys2Proof.Machine
end

