-- ==== Sys2Proof/Machine/Load.lean ====
section
/-! DEFINITION. Load instructions, opcode LOAD: one operation, an 8-byte load, whatever funct3 is (43_load.md). -/

namespace Sys2Proof.Machine

/-- The family template: `x[rd] <- MemRead(x[rs1] + sext_12(imm), 8); pc <- pc + 4`. The read is made also when
rd = 0, and may fill a set and write back a DIRTY victim; the base register is read before the write. An address
that is not a multiple of 8 has no defined result and stops the model (43_load.md R220; 20_memory.md R54). -/
def loadDword (rd rs1 : RegIdx) (imm : BitVec 12) (s : State) : Host.Outcome State Fault Refusal :=
  if aligned8 (dataAddr s rs1 imm) then
    .next ((memRead s (dataAddr s rs1 imm)).1.setX rd (memRead s (dataAddr s rs1 imm)).2).advance
  else .fault (.misalignedData (dataAddr s rs1 imm))

/-- LD (43_load.md R221). -/
def execLd (rd rs1 : RegIdx) (imm : BitVec 12) (s : State) : Host.Outcome State Fault Refusal :=
  loadDword rd rs1 imm s

/-- LOAD with funct3 = 000: an 8-byte load (43_load.md R222). -/
def execLoadF3_000 (rd rs1 : RegIdx) (imm : BitVec 12) (s : State) : Host.Outcome State Fault Refusal :=
  loadDword rd rs1 imm s

/-- LOAD with funct3 = 001: an 8-byte load (43_load.md R223). -/
def execLoadF3_001 (rd rs1 : RegIdx) (imm : BitVec 12) (s : State) : Host.Outcome State Fault Refusal :=
  loadDword rd rs1 imm s

/-- LOAD with funct3 = 010: an 8-byte load (43_load.md R224). -/
def execLoadF3_010 (rd rs1 : RegIdx) (imm : BitVec 12) (s : State) : Host.Outcome State Fault Refusal :=
  loadDword rd rs1 imm s

/-- LOAD with funct3 = 100: an 8-byte load (43_load.md R225). -/
def execLoadF3_100 (rd rs1 : RegIdx) (imm : BitVec 12) (s : State) : Host.Outcome State Fault Refusal :=
  loadDword rd rs1 imm s

/-- LOAD with funct3 = 101: an 8-byte load (43_load.md R226). -/
def execLoadF3_101 (rd rs1 : RegIdx) (imm : BitVec 12) (s : State) : Host.Outcome State Fault Refusal :=
  loadDword rd rs1 imm s

/-- LOAD with funct3 = 110: an 8-byte load (43_load.md R227). -/
def execLoadF3_110 (rd rs1 : RegIdx) (imm : BitVec 12) (s : State) : Host.Outcome State Fault Refusal :=
  loadDword rd rs1 imm s

/-- LOAD with funct3 = 111: an 8-byte load (43_load.md R228). -/
def execLoadF3_111 (rd rs1 : RegIdx) (imm : BitVec 12) (s : State) : Host.Outcome State Fault Refusal :=
  loadDword rd rs1 imm s

end Sys2Proof.Machine
end

