-- ==== Sys2Proof/Machine/Store.lean ====
section
/-! DEFINITION. Store instructions, opcode STORE: one operation, an 8-byte store, whatever funct3 is
(44_store.md). -/

namespace Sys2Proof.Machine

/-- The family template: `MemWrite(x[rs1] + sext_12(imm), 8, x[rs2]); pc <- pc + 4`; all 64 bits of x[rs2] are
stored, no register is written. An address that is not a multiple of 8 has no defined result and stops the model
(44_store.md R230; 20_memory.md R54). -/
def storeDword (rs1 rs2 : RegIdx) (imm : BitVec 12) (s : State) : Host.Outcome State Fault Refusal :=
  if aligned8 (dataAddr s rs1 imm) then .next (memWrite s (dataAddr s rs1 imm) (s.x rs2)).advance
  else .fault (.misalignedData (dataAddr s rs1 imm))

/-- SD (44_store.md R231). -/
def execSd (rs1 rs2 : RegIdx) (imm : BitVec 12) (s : State) : Host.Outcome State Fault Refusal :=
  storeDword rs1 rs2 imm s

/-- STORE with funct3 = 000: an 8-byte store (44_store.md R232). -/
def execStoreF3_000 (rs1 rs2 : RegIdx) (imm : BitVec 12) (s : State) : Host.Outcome State Fault Refusal :=
  storeDword rs1 rs2 imm s

/-- STORE with funct3 = 001: an 8-byte store (44_store.md R233). -/
def execStoreF3_001 (rs1 rs2 : RegIdx) (imm : BitVec 12) (s : State) : Host.Outcome State Fault Refusal :=
  storeDword rs1 rs2 imm s

/-- STORE with funct3 = 010: an 8-byte store (44_store.md R234). -/
def execStoreF3_010 (rs1 rs2 : RegIdx) (imm : BitVec 12) (s : State) : Host.Outcome State Fault Refusal :=
  storeDword rs1 rs2 imm s

/-- STORE with funct3 = 100: an 8-byte store (44_store.md R235). -/
def execStoreF3_100 (rs1 rs2 : RegIdx) (imm : BitVec 12) (s : State) : Host.Outcome State Fault Refusal :=
  storeDword rs1 rs2 imm s

/-- STORE with funct3 = 101: an 8-byte store (44_store.md R236). -/
def execStoreF3_101 (rs1 rs2 : RegIdx) (imm : BitVec 12) (s : State) : Host.Outcome State Fault Refusal :=
  storeDword rs1 rs2 imm s

/-- STORE with funct3 = 110: an 8-byte store (44_store.md R237). -/
def execStoreF3_110 (rs1 rs2 : RegIdx) (imm : BitVec 12) (s : State) : Host.Outcome State Fault Refusal :=
  storeDword rs1 rs2 imm s

/-- STORE with funct3 = 111: an 8-byte store (44_store.md R238). -/
def execStoreF3_111 (rs1 rs2 : RegIdx) (imm : BitVec 12) (s : State) : Host.Outcome State Fault Refusal :=
  storeDword rs1 rs2 imm s

end Sys2Proof.Machine
end

