-- ==== Sys2Proof/Machine/Unsupported.lean ====
section
/-! DEFINITION. Every word whose opcode is none of the five (46_unsupported.md): LUI, AUIPC, JAL, JALR, fences,
ECALL, EBREAK, the CSR instructions, trap returns, the word operations, every extension, every compressed form. -/

namespace Sys2Proof.Machine

/-- UNSUPPORTED: `raise UnsupportedInstruction(pc, inst)` (46_unsupported.md R260). -/
def execUnsupported (inst : InstWord) (s : State) : Host.Outcome State Fault Refusal := raiseUnsupported s inst

end Sys2Proof.Machine
end

