-- ==== Sys2Proof/Machine/Dispatch.lean ====
section
/-! DEFINITION. The dispatch: one arm per constructor of Instr, each one call of that instruction's meaning. -/

namespace Sys2Proof.Machine

/-- What an instruction does to a state. -/
def exec (i : Instr) (s : State) : Host.Outcome State Fault Refusal :=
  match i with
  | .sub rd rs1 rs2 => Sys2Proof.Machine.execSub rd rs1 rs2 s
  | .add f7 rd rs1 rs2 => Sys2Proof.Machine.execAdd f7 rd rs1 rs2 s
  | .xor f7 rd rs1 rs2 => Sys2Proof.Machine.execXor f7 rd rs1 rs2 s
  | .or f7 rd rs1 rs2 => Sys2Proof.Machine.execOr f7 rd rs1 rs2 s
  | .and f7 rd rs1 rs2 => Sys2Proof.Machine.execAnd f7 rd rs1 rs2 s
  | .opF3_001 f7 rd rs1 rs2 => Sys2Proof.Machine.execOpF3_001 f7 rd rs1 rs2 s
  | .opF3_010 f7 rd rs1 rs2 => Sys2Proof.Machine.execOpF3_010 f7 rd rs1 rs2 s
  | .opF3_011 f7 rd rs1 rs2 => Sys2Proof.Machine.execOpF3_011 f7 rd rs1 rs2 s
  | .opF3_101 f7 rd rs1 rs2 => Sys2Proof.Machine.execOpF3_101 f7 rd rs1 rs2 s
  | .addi rd rs1 imm => Sys2Proof.Machine.execAddi rd rs1 imm s
  | .xori rd rs1 imm => Sys2Proof.Machine.execXori rd rs1 imm s
  | .ori rd rs1 imm => Sys2Proof.Machine.execOri rd rs1 imm s
  | .andi rd rs1 imm => Sys2Proof.Machine.execAndi rd rs1 imm s
  | .opImmF3_001 rd rs1 imm => Sys2Proof.Machine.execOpImmF3_001 rd rs1 imm s
  | .opImmF3_010 rd rs1 imm => Sys2Proof.Machine.execOpImmF3_010 rd rs1 imm s
  | .opImmF3_011 rd rs1 imm => Sys2Proof.Machine.execOpImmF3_011 rd rs1 imm s
  | .opImmF3_101 rd rs1 imm => Sys2Proof.Machine.execOpImmF3_101 rd rs1 imm s
  | .ld rd rs1 imm => Sys2Proof.Machine.execLd rd rs1 imm s
  | .loadF3_000 rd rs1 imm => Sys2Proof.Machine.execLoadF3_000 rd rs1 imm s
  | .loadF3_001 rd rs1 imm => Sys2Proof.Machine.execLoadF3_001 rd rs1 imm s
  | .loadF3_010 rd rs1 imm => Sys2Proof.Machine.execLoadF3_010 rd rs1 imm s
  | .loadF3_100 rd rs1 imm => Sys2Proof.Machine.execLoadF3_100 rd rs1 imm s
  | .loadF3_101 rd rs1 imm => Sys2Proof.Machine.execLoadF3_101 rd rs1 imm s
  | .loadF3_110 rd rs1 imm => Sys2Proof.Machine.execLoadF3_110 rd rs1 imm s
  | .loadF3_111 rd rs1 imm => Sys2Proof.Machine.execLoadF3_111 rd rs1 imm s
  | .sd rs1 rs2 imm => Sys2Proof.Machine.execSd rs1 rs2 imm s
  | .storeF3_000 rs1 rs2 imm => Sys2Proof.Machine.execStoreF3_000 rs1 rs2 imm s
  | .storeF3_001 rs1 rs2 imm => Sys2Proof.Machine.execStoreF3_001 rs1 rs2 imm s
  | .storeF3_010 rs1 rs2 imm => Sys2Proof.Machine.execStoreF3_010 rs1 rs2 imm s
  | .storeF3_100 rs1 rs2 imm => Sys2Proof.Machine.execStoreF3_100 rs1 rs2 imm s
  | .storeF3_101 rs1 rs2 imm => Sys2Proof.Machine.execStoreF3_101 rs1 rs2 imm s
  | .storeF3_110 rs1 rs2 imm => Sys2Proof.Machine.execStoreF3_110 rs1 rs2 imm s
  | .storeF3_111 rs1 rs2 imm => Sys2Proof.Machine.execStoreF3_111 rs1 rs2 imm s
  | .beq rs1 rs2 imm => Sys2Proof.Machine.execBeq rs1 rs2 imm s
  | .bne rs1 rs2 imm => Sys2Proof.Machine.execBne rs1 rs2 imm s
  | .blt rs1 rs2 imm => Sys2Proof.Machine.execBlt rs1 rs2 imm s
  | .bge rs1 rs2 imm => Sys2Proof.Machine.execBge rs1 rs2 imm s
  | .bltu rs1 rs2 imm => Sys2Proof.Machine.execBltu rs1 rs2 imm s
  | .bgeu rs1 rs2 imm => Sys2Proof.Machine.execBgeu rs1 rs2 imm s
  | .branchF3_010 rs1 rs2 imm => Sys2Proof.Machine.execBranchF3_010 rs1 rs2 imm s
  | .branchF3_011 rs1 rs2 imm => Sys2Proof.Machine.execBranchF3_011 rs1 rs2 imm s
  | .unsupported inst => Sys2Proof.Machine.execUnsupported inst s

end Sys2Proof.Machine
end

