-- ==== Sys2Proof/Machine/Step.lean ====
section
/-! DEFINITION. One step of the machine, which is one instruction (40_pipeline.md R140, R165; decision D1). -/

namespace Sys2Proof.Machine

/-- The instruction step: fetch at the pc, decode, run. The order of the stopping conditions is that of
60_exceptions.md R287. Parameters outside 00_scope.md R8 are refused (93_implementation_defined.md U19). -/
def step (s : State) : Host.Outcome State Fault Refusal :=
  if s.params.wf then
    if aligned4 s.pc then exec (decodeWord (fetchRead s s.pc)) s else .fault (.misalignedFetch s.pc)
  else .refused .badParameters

/-- The state with an instruction word of the opcode table stored in the four bytes of the backing store that
`step` fetches next. The fetch never consults the cache (20_memory.md R57), so nothing else changes. -/
def State.withFetchWord (s : State) (nbits w : Nat) : State :=
  { s with mem := writeBytes s.mem s.pc (tableWordBytes nbits w) }

end Sys2Proof.Machine
end

