-- ==== Sys2Proof/Machine/OpcodeTable.lean ====
section
/-! DEFINITION. The opcode table of the spec as data, and its first-match reading (30_encoding.md R129). A row's
`order` is its number in spec/opcode_table.json; `decodeWord` is written apart from it, and a statement says that
the two agree on every word. -/

namespace Sys2Proof.Machine

/-- A row: a word matches when `word & mask = value`. -/
structure OpcodeRow where
  order : Nat
  mnemonic : String
  mask : InstWord
  value : InstWord
  /-- The stricter mask an assembler's output satisfies, on canonical rows. -/
  canonicalMask : Option InstWord
  deriving DecidableEq, Repr

/-- Rows of opcode OP. -/
def opRows : List OpcodeRow := [
  ⟨1, "SUB", 0xFE00707F#32, 0x40000033#32, some 0xFE00707F#32⟩,
  ⟨2, "ADD", 0x0000707F#32, 0x00000033#32, some 0xFE00707F#32⟩,
  ⟨3, "XOR", 0x0000707F#32, 0x00004033#32, some 0xFE00707F#32⟩,
  ⟨4, "OR", 0x0000707F#32, 0x00006033#32, some 0xFE00707F#32⟩,
  ⟨5, "AND", 0x0000707F#32, 0x00007033#32, some 0xFE00707F#32⟩,
  ⟨6, "OP.F3_001", 0x0000707F#32, 0x00001033#32, none⟩,
  ⟨7, "OP.F3_010", 0x0000707F#32, 0x00002033#32, none⟩,
  ⟨8, "OP.F3_011", 0x0000707F#32, 0x00003033#32, none⟩,
  ⟨9, "OP.F3_101", 0x0000707F#32, 0x00005033#32, none⟩]

/-- Rows of opcode OP-IMM. -/
def opImmRows : List OpcodeRow := [
  ⟨10, "ADDI", 0x0000707F#32, 0x00000013#32, some 0x0000707F#32⟩,
  ⟨11, "XORI", 0x0000707F#32, 0x00004013#32, some 0x0000707F#32⟩,
  ⟨12, "ORI", 0x0000707F#32, 0x00006013#32, some 0x0000707F#32⟩,
  ⟨13, "ANDI", 0x0000707F#32, 0x00007013#32, some 0x0000707F#32⟩,
  ⟨14, "OP-IMM.F3_001", 0x0000707F#32, 0x00001013#32, none⟩,
  ⟨15, "OP-IMM.F3_010", 0x0000707F#32, 0x00002013#32, none⟩,
  ⟨16, "OP-IMM.F3_011", 0x0000707F#32, 0x00003013#32, none⟩,
  ⟨17, "OP-IMM.F3_101", 0x0000707F#32, 0x00005013#32, none⟩]

/-- Rows of opcode LOAD. -/
def loadRows : List OpcodeRow := [
  ⟨18, "LD", 0x0000707F#32, 0x00003003#32, some 0x0000707F#32⟩,
  ⟨19, "LOAD.F3_000", 0x0000707F#32, 0x00000003#32, none⟩,
  ⟨20, "LOAD.F3_001", 0x0000707F#32, 0x00001003#32, none⟩,
  ⟨21, "LOAD.F3_010", 0x0000707F#32, 0x00002003#32, none⟩,
  ⟨22, "LOAD.F3_100", 0x0000707F#32, 0x00004003#32, none⟩,
  ⟨23, "LOAD.F3_101", 0x0000707F#32, 0x00005003#32, none⟩,
  ⟨24, "LOAD.F3_110", 0x0000707F#32, 0x00006003#32, none⟩,
  ⟨25, "LOAD.F3_111", 0x0000707F#32, 0x00007003#32, none⟩]

/-- Rows of opcode STORE. -/
def storeRows : List OpcodeRow := [
  ⟨26, "SD", 0x0000707F#32, 0x00003023#32, some 0x0000707F#32⟩,
  ⟨27, "STORE.F3_000", 0x0000707F#32, 0x00000023#32, none⟩,
  ⟨28, "STORE.F3_001", 0x0000707F#32, 0x00001023#32, none⟩,
  ⟨29, "STORE.F3_010", 0x0000707F#32, 0x00002023#32, none⟩,
  ⟨30, "STORE.F3_100", 0x0000707F#32, 0x00004023#32, none⟩,
  ⟨31, "STORE.F3_101", 0x0000707F#32, 0x00005023#32, none⟩,
  ⟨32, "STORE.F3_110", 0x0000707F#32, 0x00006023#32, none⟩,
  ⟨33, "STORE.F3_111", 0x0000707F#32, 0x00007023#32, none⟩]

/-- Rows of opcode BRANCH. -/
def branchRows : List OpcodeRow := [
  ⟨34, "BEQ", 0x0000707F#32, 0x00000063#32, some 0x0000707F#32⟩,
  ⟨35, "BNE", 0x0000707F#32, 0x00001063#32, some 0x0000707F#32⟩,
  ⟨36, "BLT", 0x0000707F#32, 0x00004063#32, some 0x0000707F#32⟩,
  ⟨37, "BGE", 0x0000707F#32, 0x00005063#32, some 0x0000707F#32⟩,
  ⟨38, "BLTU", 0x0000707F#32, 0x00006063#32, some 0x0000707F#32⟩,
  ⟨39, "BGEU", 0x0000707F#32, 0x00007063#32, some 0x0000707F#32⟩,
  ⟨40, "BRANCH.F3_010", 0x0000707F#32, 0x00002063#32, none⟩,
  ⟨41, "BRANCH.F3_011", 0x0000707F#32, 0x00003063#32, none⟩]

/-- Rows of the last row, which every word matches. -/
def otherRows : List OpcodeRow := [
  ⟨42, "UNSUPPORTED", 0x00000000#32, 0x00000000#32, none⟩]

/-- The table, in the order in which its rows are tried. -/
def opcodeRows : List OpcodeRow := opRows ++ opImmRows ++ loadRows ++ storeRows ++ branchRows ++ otherRows

/-- Whether a word matches a row. -/
def OpcodeRow.covers (r : OpcodeRow) (w : InstWord) : Bool := (w &&& r.mask) == r.value

/-- Whether a word is one an assembler emits for a row. -/
def OpcodeRow.coversCanonically (r : OpcodeRow) (w : InstWord) : Bool :=
  match r.canonicalMask with
  | some m => (w &&& m) == r.value
  | none => false

/-- The first row that matches. -/
def firstMatch (w : InstWord) : Option OpcodeRow := opcodeRows.find? (fun r => r.covers w)

/-- The number of the row a constructor stands for. -/
def rowOrder (i : Instr) : Nat :=
  match i with
  | .sub _ _ _ => 1
  | .add _ _ _ _ => 2
  | .xor _ _ _ _ => 3
  | .or _ _ _ _ => 4
  | .and _ _ _ _ => 5
  | .opF3_001 _ _ _ _ => 6
  | .opF3_010 _ _ _ _ => 7
  | .opF3_011 _ _ _ _ => 8
  | .opF3_101 _ _ _ _ => 9
  | .addi _ _ _ => 10
  | .xori _ _ _ => 11
  | .ori _ _ _ => 12
  | .andi _ _ _ => 13
  | .opImmF3_001 _ _ _ => 14
  | .opImmF3_010 _ _ _ => 15
  | .opImmF3_011 _ _ _ => 16
  | .opImmF3_101 _ _ _ => 17
  | .ld _ _ _ => 18
  | .loadF3_000 _ _ _ => 19
  | .loadF3_001 _ _ _ => 20
  | .loadF3_010 _ _ _ => 21
  | .loadF3_100 _ _ _ => 22
  | .loadF3_101 _ _ _ => 23
  | .loadF3_110 _ _ _ => 24
  | .loadF3_111 _ _ _ => 25
  | .sd _ _ _ => 26
  | .storeF3_000 _ _ _ => 27
  | .storeF3_001 _ _ _ => 28
  | .storeF3_010 _ _ _ => 29
  | .storeF3_100 _ _ _ => 30
  | .storeF3_101 _ _ _ => 31
  | .storeF3_110 _ _ _ => 32
  | .storeF3_111 _ _ _ => 33
  | .beq _ _ _ => 34
  | .bne _ _ _ => 35
  | .blt _ _ _ => 36
  | .bge _ _ _ => 37
  | .bltu _ _ _ => 38
  | .bgeu _ _ _ => 39
  | .branchF3_010 _ _ _ => 40
  | .branchF3_011 _ _ _ => 41
  | .unsupported _ => 42

end Sys2Proof.Machine
end

