-- ==== Sys2Proof/Machine/Stages.lean ====
section
/-! DEFINITION. The five pipeline stages as functions from their input structure to their output structure, and
their composition into one instruction (40_pipeline.md). This is the second description of the machine: the
meanings that `exec` calls are written from the instruction files 41 to 46, these stages from 40_pipeline.md, and
a statement says that the two are one machine. -/

namespace Sys2Proof.Machine

/-! Fetch, R141. -/

/-- The fetch stage: the word at the pc, from the backing store (40_pipeline.md R141). -/
def fetchStage (s : State) : FetchOut := { pc := s.pc, inst := fetchRead s s.pc }

/-! Decode, R144 to R150. -/

/-- The five groups of the control table (30_encoding.md R118; 40_pipeline.md R146). -/
inductive OpcodeClass where
  | rType
  | iType
  | load
  | store
  | branch
  deriving DecidableEq, Repr

/-- The class of a 7-bit opcode, none for the 123 others (30_encoding.md R117, R123). -/
def classOf (op : BitVec 7) : Option OpcodeClass :=
  if op = opcodeOp then some .rType
  else if op = opcodeOpImm then some .iType
  else if op = opcodeLoad then some .load
  else if op = opcodeStore then some .store
  else if op = opcodeBranch then some .branch
  else none

/-- `extract_immediate(inst)`, which dispatches on the opcode; the error is the word (30_encoding.md R116). -/
def extractImmediate (w : InstWord) : Except InstWord Word :=
  match classOf (opcodeOf w) with
  | some .rType => .ok 0#64
  | some .iType => .ok (sext (immIOf w))
  | some .load => .ok (sext (immIOf w))
  | some .store => .ok (sext (immSOf w))
  | some .branch => .ok (sext (immBOf w))
  | none => .error w

/-- `alu_op_of(class, funct3, funct7)`: SUB for R-type with the subtract mark, ADD for every unrecognised funct3
(40_pipeline.md R147). -/
def aluOpOf (c : OpcodeClass) (f3 : BitVec 3) (f7 : BitVec 7) : AluOp :=
  if f3 = funct3AddSub then (if c = .rType ∧ f7 = funct7Sub then .sub else .add)
  else if f3 = funct3Xor then .xor
  else if f3 = funct3Or then .or
  else if f3 = funct3And then .and
  else .add

/-- `br_cond_of(funct3)`: never taken for an unrecognised funct3; ALWAYS is not produced (40_pipeline.md R148). -/
def brCondOf (f3 : BitVec 3) : BrCond :=
  if f3 = funct3Beq then .eq
  else if f3 = funct3Bne then .neq
  else if f3 = funct3Blt then .lt
  else if f3 = funct3Bge then .ge
  else if f3 = funct3Bltu then .ltu
  else if f3 = funct3Bgeu then .geu
  else .never

/-- The control table, a row a class, before the rule for rd = 0 (40_pipeline.md R145, R146). `wb_src` of Store and
Branch, which the document leaves blank, is ALU and has no effect (decision D6). -/
def controlTable (c : OpcodeClass) (f : FetchOut) (r : Registers) (imm : Word) : MicroOp :=
  let u : MicroOp :=
    { pc := f.pc, rd := rdOf f.inst, rs1Val := regRead r (rs1Of f.inst), rs2Val := regRead r (rs2Of f.inst),
      imm := imm, aSrc := .reg, bSrc := .imm, aluOp := .add, brCond := .never, wbSrc := .alu,
      regWe := false, memRe := false, memWe := false }
  match c with
  | .rType => { u with bSrc := .reg, aluOp := aluOpOf .rType (funct3Of f.inst) (funct7Of f.inst), regWe := true }
  | .iType => { u with aluOp := aluOpOf .iType (funct3Of f.inst) (funct7Of f.inst), regWe := true }
  | .load => { u with wbSrc := .mem, regWe := true, memRe := true }
  | .store => { u with memWe := true }
  | .branch => { u with aSrc := .pc, brCond := brCondOf (funct3Of f.inst) }

/-- The post-decode invariant: rd = 0 forces the register-write-enable false (40_pipeline.md R149). -/
def forceZeroRd (u : MicroOp) : MicroOp := if u.rd = 0#5 then { u with regWe := false } else u

/-- The decode stage, a pure function of the word, the pc and the register values, or `UnsupportedInstruction`,
which it reports with the pc (40_pipeline.md R144, R150; 60_exceptions.md R282; 90_conflicts.md C8). -/
def decodeStage (f : FetchOut) (r : Registers) : Except Fault MicroOp :=
  match classOf (opcodeOf f.inst), extractImmediate f.inst with
  | some c, .ok imm => .ok (forceZeroRd (controlTable c f r imm))
  | _, _ => .error (.unsupportedInstruction f.pc f.inst)

/-! AGEX, R151 to R155. -/

/-- ALU operand A (40_pipeline.md R151). -/
def operandA (u : MicroOp) : Word :=
  match u.aSrc with
  | .pc => u.pc
  | .reg => u.rs1Val

/-- ALU operand B (40_pipeline.md R151). -/
def operandB (u : MicroOp) : Word :=
  match u.bSrc with
  | .imm => u.imm
  | .reg => u.rs2Val

/-- The AGEX stage: the ALU result, and the branch decision over the two register values (40_pipeline.md R152 to
R155). -/
def agexStage (u : MicroOp) : AgexOut :=
  { pc := u.pc, rd := u.rd, rs2Val := u.rs2Val, wbSrc := u.wbSrc, regWe := u.regWe, memRe := u.memRe,
    memWe := u.memWe, aluResult := alu u.aluOp (operandA u) (operandB u),
    pcSrc := if condHolds u.brCond u.rs1Val u.rs2Val then .alu else .pc4 }

/-! Memory, R156 to R160. -/

/-- The read of the memory stage, zero when there is none (40_pipeline.md R157). -/
def stageRead (s : State) (x : AgexOut) : State × Word := if x.memRe then memRead s x.aluResult else (s, 0#64)

/-- The write of the memory stage (40_pipeline.md R158). -/
def stageWrite (s : State) (x : AgexOut) : State := if x.memWe then memWrite s x.aluResult x.rs2Val else s

/-- The memory stage: each flag checked for itself, the read before the write (40_pipeline.md R156 to R159,
decision D7). An access that is not aligned has no defined result (20_memory.md R54). -/
def memoryStage (s : State) (x : AgexOut) : Except Fault (State × MemOut) :=
  if (x.memRe || x.memWe) && !aligned8 x.aluResult then .error (.misalignedData x.aluResult)
  else
    .ok (stageWrite (stageRead s x).1 x,
      { pc := x.pc, rd := x.rd, wbSrc := x.wbSrc, regWe := x.regWe, pcSrc := x.pcSrc, aluResult := x.aluResult,
        memData := (stageRead s x).2 })

/-! Writeback, R161 to R164. -/

/-- The value to commit (40_pipeline.md R161). -/
def commitValue (m : MemOut) : Word :=
  match m.wbSrc with
  | .mem => m.memData
  | .alu => m.aluResult

/-- The next pc (40_pipeline.md R163). -/
def nextPcOf (m : MemOut) : Word :=
  match m.pcSrc with
  | .alu => m.aluResult
  | .pc4 => m.pc + 4#64

/-- The writeback stage: at most one register, never register 0, and the next pc (40_pipeline.md R162 to R164). -/
def writebackStage (s : State) (m : MemOut) : State × WbOut :=
  (if m.regWe && m.rd != 0#5 then s.setX m.rd (commitValue m) else s, { nextPc := nextPcOf m })

/-! The driver's loop body, R140, R165. -/

/-- One instruction as the five stages composed: after a decode error no later stage is invoked, and the next pc is
the one the writeback stage yields (40_pipeline.md R165; 70_reset_and_hazards.md R326, R327, R329). -/
def pipelineStep (s : State) : Host.Outcome State Fault Refusal :=
  if s.params.wf then
    if aligned4 s.pc then
      match decodeStage (fetchStage s) s.regs with
      | .error e => .fault e
      | .ok u =>
        match memoryStage s (agexStage u) with
        | .error e => .fault e
        | .ok (s', m) => .next ((writebackStage s' m).1.goto (writebackStage s' m).2.nextPc)
    else .fault (.misalignedFetch s.pc)
  else .refused .badParameters

end Sys2Proof.Machine
end

