-- ==== Sys2Proof/Machine/Traffic.lean ====
section
/-! DEFINITION. The calls an instruction makes at the backing-store port, in order (20_memory.md R50, R57, R60;
21_cache.md R101). The sequence is no state of the block (10_state.md R20), so it is computed from the state before
the instruction and recorded nowhere (log entry 26). -/

namespace Sys2Proof.Machine

/-- One call at the port (20_memory.md R50). -/
inductive PortCall where
  | readByte (a : Word)
  | writeByte (a : Word) (b : Byte)
  deriving DecidableEq, Repr

/-- Whether a call writes. -/
def PortCall.isWrite : PortCall → Bool
  | .readByte _ => false
  | .writeByte _ _ => true

/-- `n` byte reads at ascending addresses (decision D9). -/
def readCalls (a : Word) : Nat → List PortCall
  | 0 => []
  | n + 1 => .readByte a :: readCalls (a + 1#64) n

/-- Byte writes at ascending addresses (decision D9). -/
def writeCalls (a : Word) : List Byte → List PortCall
  | [] => []
  | b :: bs => .writeByte a b :: writeCalls (a + 1#64) bs

/-- The four reads of a fetch (20_memory.md R57). -/
def fetchCalls (pc : Word) : List PortCall := readCalls pc 4

/-- The reads of a fill (21_cache.md R89). -/
def fillCalls (s : State) (a : Word) : List PortCall := readCalls (blockBaseOf s.params a) s.params.blockSize

/-- The writes of a writeback (21_cache.md R90). -/
def writebackCalls (s : State) (a : Word) : List PortCall :=
  writeCalls (reconstruct s.params (s.setFor a).tag (setIndexOf s.params a) 0#64) (s.setFor a).data

/-- The traffic of one cache request, the same for a read and a write (21_cache.md R101). -/
def requestCalls (s : State) (a : Word) : List PortCall :=
  match (s.setFor a).state with
  | .invalid => fillCalls s a
  | .clean => if (s.setFor a).tag = tagOf s.params a then [] else fillCalls s a
  | .dirty => if (s.setFor a).tag = tagOf s.params a then [] else writebackCalls s a ++ fillCalls s a

/-- The data access an instruction asks the memory stage for (40_pipeline.md R157, R158). -/
inductive DataRequest where
  | none
  | read (a : Word)
  | write (a v : Word)
  deriving DecidableEq, Repr

/-- The data access of each instruction: a load's read, made also for rd = 0, a store's write, no other
(40_pipeline.md R146). -/
def dataRequest (i : Instr) (s : State) : DataRequest :=
  match i with
  | .sub _ _ _ => .none
  | .add _ _ _ _ => .none
  | .xor _ _ _ _ => .none
  | .or _ _ _ _ => .none
  | .and _ _ _ _ => .none
  | .opF3_001 _ _ _ _ => .none
  | .opF3_010 _ _ _ _ => .none
  | .opF3_011 _ _ _ _ => .none
  | .opF3_101 _ _ _ _ => .none
  | .addi _ _ _ => .none
  | .xori _ _ _ => .none
  | .ori _ _ _ => .none
  | .andi _ _ _ => .none
  | .opImmF3_001 _ _ _ => .none
  | .opImmF3_010 _ _ _ => .none
  | .opImmF3_011 _ _ _ => .none
  | .opImmF3_101 _ _ _ => .none
  | .ld _ rs1 imm => .read (dataAddr s rs1 imm)
  | .loadF3_000 _ rs1 imm => .read (dataAddr s rs1 imm)
  | .loadF3_001 _ rs1 imm => .read (dataAddr s rs1 imm)
  | .loadF3_010 _ rs1 imm => .read (dataAddr s rs1 imm)
  | .loadF3_100 _ rs1 imm => .read (dataAddr s rs1 imm)
  | .loadF3_101 _ rs1 imm => .read (dataAddr s rs1 imm)
  | .loadF3_110 _ rs1 imm => .read (dataAddr s rs1 imm)
  | .loadF3_111 _ rs1 imm => .read (dataAddr s rs1 imm)
  | .sd rs1 rs2 imm => .write (dataAddr s rs1 imm) (s.x rs2)
  | .storeF3_000 rs1 rs2 imm => .write (dataAddr s rs1 imm) (s.x rs2)
  | .storeF3_001 rs1 rs2 imm => .write (dataAddr s rs1 imm) (s.x rs2)
  | .storeF3_010 rs1 rs2 imm => .write (dataAddr s rs1 imm) (s.x rs2)
  | .storeF3_100 rs1 rs2 imm => .write (dataAddr s rs1 imm) (s.x rs2)
  | .storeF3_101 rs1 rs2 imm => .write (dataAddr s rs1 imm) (s.x rs2)
  | .storeF3_110 rs1 rs2 imm => .write (dataAddr s rs1 imm) (s.x rs2)
  | .storeF3_111 rs1 rs2 imm => .write (dataAddr s rs1 imm) (s.x rs2)
  | .beq _ _ _ => .none
  | .bne _ _ _ => .none
  | .blt _ _ _ => .none
  | .bge _ _ _ => .none
  | .bltu _ _ _ => .none
  | .bgeu _ _ _ => .none
  | .branchF3_010 _ _ _ => .none
  | .branchF3_011 _ _ _ => .none
  | .unsupported _ => .none

/-- Whether a data access meets its precondition (20_memory.md R54). -/
def DataRequest.aligned : DataRequest → Bool
  | .none => true
  | .read a => aligned8 a
  | .write a _ => aligned8 a

/-- The traffic of a data access: through the cache, or eight byte transfers (20_memory.md R60; 21_cache.md R101).
None is made for an access that is not aligned: 95_test_vectors.md V-C7 says so of cache requests, and of the direct
path it is DEDUCED from there (log entry 31). -/
def dataCalls (s : State) (r : DataRequest) : List PortCall :=
  if r.aligned then
    match r with
    | .none => []
    | .read a => if s.params.cacheEnable then requestCalls s a else readCalls a 8
    | .write a v => if s.params.cacheEnable then requestCalls s a else writeCalls a (dwordBytes v)
  else []

/-- The traffic of one step: the fetch of the instruction, then its data access. A step that stops before its fetch
makes no call: at a pc that is not a multiple of 4 this is DEDUCED from the order of the stops in 60_exceptions.md R287
and the traffic of 95_test_vectors.md V-F1, which lists none there (log entry 31); with parameters outside 00_scope.md
R8 it is a DESIGN CHOICE (log entry 6). -/
def stepCalls (s : State) : List PortCall :=
  if s.params.wf ∧ aligned4 s.pc = true then
    fetchCalls s.pc ++ dataCalls s (dataRequest (decodeWord (fetchRead s s.pc)) s)
  else []

/-- What a sequence of port calls makes of the backing store (20_memory.md R50). -/
def replay (m : Memory) : List PortCall → Memory
  | [] => m
  | .readByte _ :: cs => replay m cs
  | .writeByte a b :: cs => replay (m.write a.toNat b) cs

end Sys2Proof.Machine
end

