-- ==== Sys2Proof/Safety.lean ====
section
/-! DEFINITION. What the claims are said in: the invariant of the machine, when an instruction meets its
preconditions, when a run ends, and what an instruction leaves alone. -/

namespace Sys2Proof.Machine

/-! The invariant. -/

/-- The cache array has NUM_SETS sets, each with BLOCK_SIZE bytes and a tag of `64 - OB - SB` bits (10_state.md
R35). -/
structure CacheShape (s : State) : Prop where
  sets : s.cache.length = s.params.numSets
  block : ∀ c ∈ s.cache, c.data.length = s.params.blockSize
  tag : ∀ c ∈ s.cache, c.tag.toNat < 2 ^ (64 - s.params.blockBits - s.params.setBits)

/-- Clean means equal to memory (21_cache.md R97). -/
def CleanMatchesBacking (s : State) : Prop :=
  ∀ i : Word, i.toNat < s.params.numSets → (s.setAt i).state = .clean →
    ∀ k : Nat, k < s.params.blockSize →
      (s.setAt i).data[k]? = some (s.backing (reconstruct s.params (s.setAt i).tag i (BitVec.ofNat 64 k)))

/-- With the cache disabled no set is ever used (21_cache.md R103). -/
def DisabledCacheInvalid (s : State) : Prop :=
  s.params.cacheEnable = false → ∀ c ∈ s.cache, c.state = .invalid

/-- The invariant: legal parameters, the backing store in its canonical form, the cache array in shape, every
CLEAN block equal to the backing store, and no set in use with the cache disabled. -/
structure MachineInv (s : State) : Prop where
  params : s.params.wf
  mem : s.mem.wf
  shape : CacheShape s
  clean : CleanMatchesBacking s
  unused : DisabledCacheInvalid s

/-! When an instruction runs. -/

/-- The preconditions of the next instruction: an aligned pc, a supported opcode, an aligned data access
(70_reset_and_hazards.md R328, R330, R332). -/
def Ready (s : State) : Prop :=
  s.params.wf ∧ aligned4 s.pc = true ∧ opcodeSupported (opcodeOf (fetchRead s s.pc)) = true ∧
    (dataRequest (decodeWord (fetchRead s s.pc)) s).aligned = true

/-- A run of `n` instructions in which every one meets its preconditions. -/
def SafeRun (n : Nat) (s : State) : Prop :=
  ∀ k, k < n → ∃ t, Sys2Proof.core.run k s = .next t ∧ Ready t

/-! END_OF_RUN, an open parameter: the driver's conventions of 70_reset_and_hazards.md R333. -/

/-- When the driver stops stepping. -/
inductive EndOfRun where
  /-- (a) after a number of instructions -/
  | stepCount (n : Nat)
  /-- (b) when the pc is a chosen address before the fetch -/
  | haltPc (a : Word)
  /-- (c) at the `UnsupportedInstruction` of a chosen word -/
  | chosenWord (w : InstWord)
  deriving DecidableEq, Repr

/-- Whether the run has ended, `k` instructions after its start, in a state that has run no further. -/
def EndOfRun.reached (e : EndOfRun) (k : Nat) (s : State) : Bool :=
  match e with
  | .stepCount n => k == n
  | .haltPc a => s.pc == a
  | .chosenWord w =>
    match step s with
    | .fault (.unsupportedInstruction _ inst) => inst == w
    | _ => false

/-! What an instruction leaves alone. -/

/-- An instruction that touches no memory: `x[rd]` holds `v` (if rd is not 0), every other register, every byte,
the cache and the parameters are as before, and the pc is `pc'`. -/
structure RegisterEffect (s t : State) (rd : RegIdx) (v pc' : Word) : Prop where
  reg : ∀ r, t.x r = if r = rd ∧ r ≠ 0#5 then v else s.x r
  pc : t.pc = pc'
  backing : ∀ a, t.backing a = s.backing a
  view : ∀ a, t.view a = s.view a
  cache : t.cache = s.cache
  params : t.params = s.params

/-- An instruction that changes the pc alone. -/
structure PcEffect (s t : State) (pc' : Word) : Prop where
  reg : ∀ r, t.x r = s.x r
  pc : t.pc = pc'
  backing : ∀ a, t.backing a = s.backing a
  view : ∀ a, t.view a = s.view a
  cache : t.cache = s.cache
  params : t.params = s.params

/-- Whether `b` is one of the eight bytes from `a` on. -/
def inDword (a b : Word) : Bool := decide ((b - a).toNat < 8)

/-- `v[8k+7 : 8k]`, the byte a dword holds at its address plus `k` (20_memory.md R53; 21_cache.md R93). -/
def byteOf (v : Word) (k : Nat) : Byte := v.extractLsb' (8 * k) 8

/-- A load from `a` into `rd` (43_load.md R220): `x[rd]` takes the eight bytes loads saw from `a` on (dropped for
rd = 0), the pc advances by 4, no byte loads see changes. The backing store changes only where a DIRTY victim is
written back, and there it takes what loads saw. With the cache enabled the addressed set ends holding the block of
`a`, CLEAN unless it was a DIRTY hit; every other set, and with the cache disabled the whole cache, is as before. -/
structure LoadEffect (s t : State) (rd : RegIdx) (a : Word) : Prop where
  reg : ∀ r, t.x r = if r = rd ∧ r ≠ 0#5 then s.viewDword a else s.x r
  pc : t.pc = s.pc + 4#64
  view : ∀ b, t.view b = s.view b
  backing : ∀ b, t.backing b = if s.evictedByte a b then s.view b else s.backing b
  cached : s.params.cacheEnable = true →
    t.cached a = true ∧ (t.setFor a).state = (if s.cached a then (s.setFor a).state else .clean)
  otherSets : ∀ i : Word, i ≠ setIndexOf s.params a → t.setAt i = s.setAt i
  uncached : s.params.cacheEnable = false → t.cache = s.cache
  params : t.params = s.params

/-- A store of `v` to `a` (44_store.md R230): no register changes, the pc advances by 4, and of the bytes loads see
the eight from `a` on take `v` and no other changes. The backing store takes those eight at once with the cache
disabled; with the cache enabled it changes only where a DIRTY victim is written back, and the addressed set ends
DIRTY, holding the block of `a`. Every other set is as before. -/
structure StoreEffect (s t : State) (a v : Word) : Prop where
  reg : ∀ r, t.x r = s.x r
  pc : t.pc = s.pc + 4#64
  view : ∀ b, t.view b = if inDword a b then byteOf v (b - a).toNat else s.view b
  backing : s.params.cacheEnable = true →
    ∀ b, t.backing b = if s.evictedByte a b then s.view b else s.backing b
  direct : s.params.cacheEnable = false →
    ∀ b, t.backing b = if inDword a b then byteOf v (b - a).toNat else s.backing b
  cached : s.params.cacheEnable = true → t.cached a = true ∧ (t.setFor a).state = .dirty
  otherSets : ∀ i : Word, i ≠ setIndexOf s.params a → t.setAt i = s.setAt i
  uncached : s.params.cacheEnable = false → t.cache = s.cache
  params : t.params = s.params

/-! The instructions of one opcode, which differ in funct3 only. -/

/-- The eight loads (30_encoding.md R122). -/
def loadForms (rd rs1 : RegIdx) (imm : BitVec 12) : List Instr :=
  [.ld rd rs1 imm, .loadF3_000 rd rs1 imm, .loadF3_001 rd rs1 imm, .loadF3_010 rd rs1 imm,
   .loadF3_100 rd rs1 imm, .loadF3_101 rd rs1 imm, .loadF3_110 rd rs1 imm, .loadF3_111 rd rs1 imm]

/-- The eight stores (30_encoding.md R122). -/
def storeForms (rs1 rs2 : RegIdx) (imm : BitVec 12) : List Instr :=
  [.sd rs1 rs2 imm, .storeF3_000 rs1 rs2 imm, .storeF3_001 rs1 rs2 imm, .storeF3_010 rs1 rs2 imm,
   .storeF3_100 rs1 rs2 imm, .storeF3_101 rs1 rs2 imm, .storeF3_110 rs1 rs2 imm, .storeF3_111 rs1 rs2 imm]

/-! Two machines side by side. -/

/-- Two machines that differ in CACHE_ENABLE only: the same registers and pc, and loads see the same bytes. -/
structure SameToLoads (s u : State) : Prop where
  enabled : s.params.cacheEnable = true
  disabled : u.params.cacheEnable = false
  inv : MachineInv s
  inv' : MachineInv u
  reg : ∀ r, s.x r = u.x r
  pc : s.pc = u.pc
  view : ∀ a, s.view a = u.view a

/-- Two states that differ at most in the tags and bytes of INVALID sets (70_reset_and_hazards.md R320). -/
structure SameButStale (s u : State) : Prop where
  params : s.params = u.params
  pc : s.pc = u.pc
  regs : s.regs = u.regs
  mem : s.mem = u.mem
  sets : s.cache.length = u.cache.length
  state : ∀ i : Word, (s.setAt i).state = (u.setAt i).state
  held : ∀ i : Word, (s.setAt i).state ≠ .invalid → s.setAt i = u.setAt i

end Sys2Proof.Machine
end

