-- ==== Sys2Proof/Certificates/Slice0/Obligations.lean ====
section
/-! DEFINITION. The statements about the model, each a proposition for the provers (OBLIGATIONS.json lists them in
this order). A clause that rests on a choice of the spec or of the model says so in its docstring and names the
entry of the assumption log. -/

section

open Sys2Proof Sys2Proof.Machine

/-! Encoding. -/

/-- Decoding the word of a well-formed instruction gives the instruction back, with every operand at every value its
field admits, and so does decoding the four bytes in which that word lies in memory (30_encoding.md R111 to R115;
20_memory.md R53). The opcode, funct3 and field numbers are the spec's decision D2 (log entry 10). -/
def Obligations.DecodeOfEncodeIsTheInstruction : Prop :=
  ∀ i : Instr, i.wf = true →
    decodeWord (encode i) = i ∧ ∀ rest : List Byte, decodeBytes (leBytes 4 (encode i).toNat ++ rest) = .ok (i, rest)

/-- Every 32-bit word decodes to a well-formed instruction whose word it is: no bit of a word is dropped, no word is
undecoded (30_encoding.md R124, R130). -/
def Obligations.EncodeOfDecodeIsTheWord : Prop :=
  ∀ w : InstWord, (decodeWord w).wf = true ∧ encode (decodeWord w) = w

/-- Words the spec writes out, one or more for each opcode, decode to the instruction it names them for (30_encoding.md
R116, R127; 45_branch.md R249; 46_unsupported.md R266). A sanity check of the positions of fields. -/
def Obligations.SpecExampleWordsDecode : Prop :=
  decodeWord 0x002081B3#32 = .add 0#7 3#5 1#5 2#5 ∧
  decodeWord 0x402081B3#32 = .sub 3#5 1#5 2#5 ∧
  decodeWord 0x0220C1B3#32 = .xor 1#7 3#5 1#5 2#5 ∧
  decodeWord 0xFFF00093#32 = .addi 1#5 0#5 0xFFF#12 ∧
  decodeWord 0x4030D193#32 = .opImmF3_101 3#5 1#5 0x403#12 ∧
  decodeWord 0xFF82B383#32 = .ld 7#5 5#5 0xFF8#12 ∧
  decodeWord 0x0062B423#32 = .sd 5#5 6#5 8#12 ∧
  decodeWord 0xFE62B823#32 = .sd 5#5 6#5 0xFF0#12 ∧
  decodeWord 0x00208863#32 = .beq 1#5 2#5 16#13 ∧
  decodeWord 0x80208063#32 = .beq 1#5 2#5 0x1000#13 ∧
  decodeWord 0x7E208FE3#32 = .beq 1#5 2#5 0xFFE#13 ∧
  decodeWord 0x00000073#32 = .unsupported 0x00000073#32

/-- The decoder agrees with spec/opcode_table.json read as the spec reads it (30_encoding.md R129): a word decodes to
the constructor of the first row it matches; two rows match one word only as SUB and ADD do, or as the last row does
with any; and the row's canonical mask admits exactly the words of canonical instructions (R124, decision D25: log
entry 20). -/
def Obligations.FirstMatchingRowIsDecoded : Prop :=
  ∀ w : InstWord,
    (firstMatch w).map (·.order) = some (rowOrder (decodeWord w)) ∧
    (∀ r ∈ opcodeRows, ∀ q ∈ opcodeRows, r.covers w = true → q.covers w = true → r.order < q.order →
      (r.mnemonic = "SUB" ∧ q.mnemonic = "ADD") ∨ q.mnemonic = "UNSUPPORTED") ∧
    ((∃ r, firstMatch w = some r ∧ r.coversCanonically w = true) ↔ (decodeWord w).canonical = true)

/-- The decode stage answers a micro-op for every word whose opcode is one of the five, whatever the other bits, the
pc and the registers are, and the error for every other word (40_pipeline.md R150; 30_encoding.md R130). -/
def Obligations.DecodeFailsOnOpcodeAlone : Prop :=
  ∀ (f : FetchOut) (r : Registers),
    (opcodeOf f.inst ∈ [opcodeOp, opcodeOpImm, opcodeLoad, opcodeStore, opcodeBranch] → ∃ u, decodeStage f r = .ok u) ∧
    (opcodeOf f.inst ∉ [opcodeOp, opcodeOpImm, opcodeLoad, opcodeStore, opcodeBranch] →
      ∃ pc inst, decodeStage f r = .error (.unsupportedInstruction pc inst))

/-- The immediate of every word, by opcode: none for OP, 12 bits for OP-IMM, LOAD and STORE, 13 for BRANCH, always
sign-extended to 64 bits, in the ranges the spec gives, and elsewhere the error, which the decode stage reports with
the pc; with the spec's six examples (30_encoding.md R116). -/
def Obligations.ImmediateOfEveryWord : Prop :=
  (∀ w : InstWord,
    (opcodeOf w = opcodeOp → extractImmediate w = .ok 0#64) ∧
    (opcodeOf w = opcodeOpImm ∨ opcodeOf w = opcodeLoad → ∃ v : Word, extractImmediate w = .ok v ∧
      v = (extractBits w 31 20).signExtend 64 ∧ -2048 ≤ v.toInt ∧ v.toInt ≤ 2047) ∧
    (opcodeOf w = opcodeStore → ∃ v : Word, extractImmediate w = .ok v ∧
      v = (extractBits w 31 25 ++ extractBits w 11 7).signExtend 64 ∧ -2048 ≤ v.toInt ∧ v.toInt ≤ 2047) ∧
    (opcodeOf w = opcodeBranch → ∃ v : Word, extractImmediate w = .ok v ∧
      v = (extractBits w 31 31 ++ extractBits w 7 7 ++ extractBits w 30 25 ++ extractBits w 11 8 ++ 0#1).signExtend 64 ∧
      -4096 ≤ v.toInt ∧ v.toInt ≤ 4094 ∧ v.toInt % 2 = 0) ∧
    (opcodeSupported (opcodeOf w) = false → extractImmediate w = .error w ∧
      ∀ (pc : Word) (r : Registers), decodeStage { pc := pc, inst := w } r = .error (.unsupportedInstruction pc w))) ∧
  extractImmediate 0xFE62B823#32 = .ok 0xFFFFFFFFFFFFFFF0#64 ∧
  extractImmediate 0x00208863#32 = .ok 16#64 ∧
  extractImmediate 0x80208063#32 = .ok 0xFFFFFFFFFFFFF000#64 ∧
  extractImmediate 0x7E208FE3#32 = .ok 0x0000000000000FFE#64 ∧
  extractImmediate 0xFF82B383#32 = .ok 0xFFFFFFFFFFFFFFF8#64 ∧
  extractImmediate 0x002081B3#32 = .ok 0#64

/-- Bit-field extraction on every valid range, the whole word, and the spec's examples (40_pipeline.md R142). -/
def Obligations.BitFieldExtraction : Prop :=
  (∀ (w : InstWord) (msb lsb : Nat), lsb ≤ msb → msb ≤ 31 →
    (extractBits w msb lsb).toNat = w.toNat / 2 ^ lsb % 2 ^ (msb - lsb + 1)) ∧
  (∀ w : InstWord, (extractBits w 31 0).toNat = w.toNat) ∧
  (extractBits 0x00208863#32 6 0).toNat = 0x63 ∧ (extractBits 0x00208863#32 11 7).toNat = 0x10 ∧
  (extractBits 0x00208863#32 14 12).toNat = 0 ∧ (extractBits 0x00208863#32 19 15).toNat = 1 ∧
  (extractBits 0x00208863#32 24 20).toNat = 2 ∧ (extractBits 0x00208863#32 31 25).toNat = 0

/-- Sign extension of a field by its top bit (40_pipeline.md R143). -/
def Obligations.SignExtensionByTopBit : Prop :=
  ∀ (n : Nat) (f : BitVec n), 0 < n → n ≤ 64 →
    (sext f).toNat = if f.getLsbD (n - 1) = true then f.toNat + (2 ^ 64 - 2 ^ n) else f.toNat

/-! Registers and stages. -/

/-- The two read ports of the register file in the decode stage: 0 for index 0, the slot otherwise, on the file as it
stands (10_state.md R22). Slot `k` holds x(k+1) (decision D30: log entry 14). -/
def Obligations.RegisterReadPorts : Prop :=
  ∀ (s : State) (u : MicroOp), decodeStage (fetchStage s) s.regs = .ok u →
    (rs1Of (fetchRead s s.pc) = 0#5 → u.rs1Val = 0#64) ∧
    (rs1Of (fetchRead s s.pc) ≠ 0#5 → s.regs[(rs1Of (fetchRead s s.pc)).toNat - 1]? = some u.rs1Val) ∧
    (rs2Of (fetchRead s s.pc) = 0#5 → u.rs2Val = 0#64) ∧
    (rs2Of (fetchRead s s.pc) ≠ 0#5 → s.regs[(rs2Of (fetchRead s s.pc)).toNat - 1]? = some u.rs2Val)

/-- The writeback stage selects the value, writes at most the one register, never register 0, yields the next pc and
does nothing else; no other stage writes the register file (40_pipeline.md R161 to R164, R166; 10_state.md R23). -/
def Obligations.WritebackCommitsOneRegister : Prop :=
  (∀ (s : State) (m : MemOut),
    (∀ r, (writebackStage s m).1.x r =
      if m.regWe = true ∧ m.rd ≠ 0#5 ∧ r = m.rd then (if m.wbSrc = .mem then m.memData else m.aluResult) else s.x r) ∧
    (writebackStage s m).2.nextPc =
      (if m.pcSrc = .alu then m.aluResult else BitVec.ofNat 64 ((m.pc.toNat + 4) % 2 ^ 64)) ∧
    (writebackStage s m).1.mem = s.mem ∧ (writebackStage s m).1.cache = s.cache ∧
    (writebackStage s m).1.params = s.params) ∧
  ∀ (s s' : State) (x : AgexOut) (m : MemOut), memoryStage s x = .ok (s', m) → s'.regs = s.regs

/-- After decode a micro-op whose rd is 0 has its register-write-enable false; with another rd the enable is the
control table's: true for OP, OP-IMM and LOAD, false for STORE and BRANCH (40_pipeline.md R149). -/
def Obligations.ZeroDestinationDisablesWrite : Prop :=
  ∀ (f : FetchOut) (r : Registers) (u : MicroOp), decodeStage f r = .ok u →
    u.rd = rdOf f.inst ∧ (u.rd = 0#5 → u.regWe = false) ∧
    (u.rd ≠ 0#5 → (u.regWe = true ↔ opcodeOf f.inst ∈ [opcodeOp, opcodeOpImm, opcodeLoad]))

/-- No decode yields the branch condition ALWAYS; the condition of a branch is its funct3's and every other class
has NEVER (40_pipeline.md R146, R148). The funct3 numbers are the spec's decision D2 (log entry 10). -/
def Obligations.NoWordDecodesToAlways : Prop :=
  ∀ (f : FetchOut) (r : Registers) (u : MicroOp), decodeStage f r = .ok u →
    u.brCond ≠ .always ∧
    (opcodeOf f.inst ≠ opcodeBranch → u.brCond = .never) ∧
    (opcodeOf f.inst = opcodeBranch → u.brCond =
      if funct3Of f.inst = 0#3 then .eq else if funct3Of f.inst = 1#3 then .neq
      else if funct3Of f.inst = 4#3 then .lt else if funct3Of f.inst = 5#3 then .ge
      else if funct3Of f.inst = 6#3 then .ltu else if funct3Of f.inst = 7#3 then .geu else .never)

/-- The AGEX stage: operands by their sources, the ALU result, the next-pc selector, the other fields forwarded
unchanged; for a decoded word of any class but BRANCH the selector is PC+4, and for a branch the ALU result is the
target whether or not it is taken (40_pipeline.md R151, R154, R155). -/
def Obligations.AgexOperandsAndSelector : Prop :=
  (∀ u : MicroOp,
    (agexStage u).aluResult =
      alu u.aluOp (if u.aSrc = .pc then u.pc else u.rs1Val) (if u.bSrc = .imm then u.imm else u.rs2Val) ∧
    ((agexStage u).pcSrc = .alu ↔ condHolds u.brCond u.rs1Val u.rs2Val = true) ∧
    (agexStage u).pc = u.pc ∧ (agexStage u).rd = u.rd ∧ (agexStage u).rs2Val = u.rs2Val ∧
    (agexStage u).wbSrc = u.wbSrc ∧ (agexStage u).regWe = u.regWe ∧ (agexStage u).memRe = u.memRe ∧
    (agexStage u).memWe = u.memWe) ∧
  ∀ (f : FetchOut) (r : Registers) (u : MicroOp), decodeStage f r = .ok u →
    (opcodeOf f.inst ≠ opcodeBranch → (agexStage u).pcSrc = .pc4) ∧
    (opcodeOf f.inst = opcodeBranch → (agexStage u).aluResult = f.pc + sext (immBOf f.inst))

/-- The five ALU operations, and the document's wraparound check (40_pipeline.md R152). -/
def Obligations.AluComputesModulo64 : Prop :=
  (∀ a b : Word,
    (alu .add a b).toNat = (a.toNat + b.toNat) % 2 ^ 64 ∧
    ((alu .sub a b).toNat : Int) = ((a.toNat : Int) - (b.toNat : Int)) % 2 ^ 64 ∧
    alu .sub a b = a + ~~~b + 1#64 ∧
    ∀ k, (alu .xor a b).getLsbD k = (a.getLsbD k != b.getLsbD k) ∧
      (alu .or a b).getLsbD k = (a.getLsbD k || b.getLsbD k) ∧
      (alu .and a b).getLsbD k = (a.getLsbD k && b.getLsbD k)) ∧
  alu .add 0xFFFFFFFFFFFFFFFF#64 1#64 = 0#64

/-- The eight branch conditions, signed values read as `u(v) - 2^64` when bit 63 is set (40_pipeline.md R153;
00_scope.md R10), with BGE and BGEU the complements of BLT and BLTU (45_branch.md R244, R246). That NEVER is not
taken and ALWAYS is taken is the spec's decision D27 (log entry 21). -/
def Obligations.BranchConditionsCompare : Prop :=
  (∀ a : Word, a.toInt = if a.getLsbD 63 = true then (a.toNat : Int) - 2 ^ 64 else (a.toNat : Int)) ∧
  ∀ a b : Word,
    (condHolds .eq a b = true ↔ a = b) ∧ (condHolds .neq a b = true ↔ a ≠ b) ∧
    (condHolds .lt a b = true ↔ a.toInt < b.toInt) ∧ (condHolds .ge a b = true ↔ b.toInt ≤ a.toInt) ∧
    (condHolds .ltu a b = true ↔ a.toNat < b.toNat) ∧ (condHolds .geu a b = true ↔ b.toNat ≤ a.toNat) ∧
    condHolds .ge a b = !condHolds .lt a b ∧ condHolds .geu a b = !condHolds .ltu a b ∧
    condHolds .never a b = false ∧ condHolds .always a b = true

/-- The memory stage on an aligned address, or with neither flag: its read when the read flag is set, zero when it is
not, its write of rs2's value at the same address when the write flag is set, no change when neither is
(40_pipeline.md R156, R157, R158). -/
def Obligations.MemoryStageChecksEachFlag : Prop :=
  ∀ (s : State) (x : AgexOut), ((x.memRe = true ∨ x.memWe = true) → aligned8 x.aluResult = true) →
    ∃ s' m, memoryStage s x = .ok (s', m) ∧
      (x.memRe = true → m.memData = (memRead s x.aluResult).2) ∧ (x.memRe = false → m.memData = 0#64) ∧
      (x.memRe = true → x.memWe = false → s' = (memRead s x.aluResult).1) ∧
      (x.memRe = false → x.memWe = true → s' = memWrite s x.aluResult x.rs2Val) ∧
      (x.memRe = false → x.memWe = false → s' = s) ∧
      m.pc = x.pc ∧ m.rd = x.rd ∧ m.wbSrc = x.wbSrc ∧ m.regWe = x.regWe ∧ m.pcSrc = x.pcSrc ∧
      m.aluResult = x.aluResult

/-- A memory-stage input with both flags, which no word decodes to, reads first and then writes: the value read is the
one before the write (40_pipeline.md R159). The order is the spec's decision D7 (log entry 21). -/
def Obligations.BothFlagsReadBeforeWrite : Prop :=
  (∀ (f : FetchOut) (r : Registers) (u : MicroOp), decodeStage f r = .ok u → ¬(u.memRe = true ∧ u.memWe = true)) ∧
  ∀ (s : State) (x : AgexOut), MachineInv s → x.memRe = true → x.memWe = true → aligned8 x.aluResult = true →
    ∃ s' m, memoryStage s x = .ok (s', m) ∧ m.memData = s.viewDword x.aluResult ∧
      ∀ b, s'.view b = if inDword x.aluResult b then byteOf x.rs2Val (b - x.aluResult).toNat else s.view b

/-- The five stages composed are the step: the machine written stage by stage from 40_pipeline.md and the machine
written instruction by instruction from files 41 to 46 answer the same on every state, stops included (40_pipeline.md
R140, R165; 70_reset_and_hazards.md R326, R327, R329). One instruction is one step by the spec's decision D1 (log
entry 29), and the stops before the fetch and at the access are log entries 6, 7 and 8. -/
def Obligations.PipelineOfStagesIsTheStep : Prop :=
  ∀ s : State, pipelineStep s = step s

/-! Results of instructions. -/

/-- Every word of opcode OP runs: the destination takes the operation that funct3 and funct7 pick, of the two source
registers as they were, dropped for rd = 0; the pc advances by 4; no memory byte, no cache set and no other register
changes. Its micro-op has the control fields of the class (41_alu_reg.md R180). -/
def Obligations.RegisterRegisterWords : Prop :=
  ∀ (w : InstWord) (s : State), opcodeOf w = opcodeOp →
    (∃ u, decodeStage { pc := s.pc, inst := w } s.regs = .ok u ∧ u.aSrc = .reg ∧ u.bSrc = .reg ∧ u.imm = 0#64 ∧
      u.aluOp = aluOpOf .rType (funct3Of w) (funct7Of w) ∧ u.brCond = .never ∧ u.wbSrc = .alu ∧
      (u.regWe = true ↔ rdOf w ≠ 0#5) ∧ u.memRe = false ∧ u.memWe = false) ∧
    ∃ t, exec (decodeWord w) s = .next t ∧
      RegisterEffect s t (rdOf w)
        (alu (aluOpOf .rType (funct3Of w) (funct7Of w)) (s.x (rs1Of w)) (s.x (rs2Of w))) (s.pc + 4#64)

/-- Every word of opcode OP-IMM runs: the destination takes the operation that funct3 alone picks, of the source
register and the sign-extended 12-bit immediate, in -2048 to 2047; the rest as for OP, and the operation is never SUB
(42_alu_imm.md R200). -/
def Obligations.RegisterImmediateWords : Prop :=
  ∀ (w : InstWord) (s : State), opcodeOf w = opcodeOpImm →
    (∃ u, decodeStage { pc := s.pc, inst := w } s.regs = .ok u ∧ u.aSrc = .reg ∧ u.bSrc = .imm ∧
      u.imm = sext (extractBits w 31 20) ∧ -2048 ≤ u.imm.toInt ∧ u.imm.toInt ≤ 2047 ∧
      u.aluOp = aluOpOf .iType (funct3Of w) (funct7Of w) ∧ u.brCond = .never ∧ u.wbSrc = .alu ∧
      (u.regWe = true ↔ rdOf w ≠ 0#5) ∧ u.memRe = false ∧ u.memWe = false) ∧
    (∀ f7, aluOpOf .iType (funct3Of w) f7 = aluOpOf .iType (funct3Of w) 0#7) ∧
    aluOpOf .iType (funct3Of w) (funct7Of w) ≠ .sub ∧
    ∃ t, exec (decodeWord w) s = .next t ∧
      RegisterEffect s t (rdOf w)
        (alu (aluOpOf .iType (funct3Of w) (funct7Of w)) (s.x (rs1Of w)) (sext (extractBits w 31 20))) (s.pc + 4#64)

/-- ADD and the four slots of opcode OP that execute as ADD write the sum modulo 2^64, for every funct7 the
constructor carries, and change nothing else but the pc (41_alu_reg.md R181, R186 to R190; that funct7 other than 0x20
is ADD, and is not consulted elsewhere, are the spec's decisions D3 and D4: log entry 11). -/
def Obligations.AddWritesTheSum : Prop :=
  ∀ (f7 : BitVec 7) (rd rs1 rs2 : RegIdx) (s : State),
    ∀ i ∈ [Instr.add f7 rd rs1 rs2, .opF3_001 f7 rd rs1 rs2, .opF3_010 f7 rd rs1 rs2, .opF3_011 f7 rd rs1 rs2,
        .opF3_101 f7 rd rs1 rs2],
      ∃ t, exec i s = .next t ∧
        RegisterEffect s t rd (BitVec.ofNat 64 (((s.x rs1).toNat + (s.x rs2).toNat) % 2 ^ 64))
          (BitVec.ofNat 64 ((s.pc.toNat + 4) % 2 ^ 64))

/-- SUB writes the difference modulo 2^64; XOR, OR and AND write the bitwise results, for every funct7 the constructor
carries; each changes nothing else but the pc (41_alu_reg.md R182 to R185, R190; decision D4: log entry 11). -/
def Obligations.SubAndBitwiseResults : Prop :=
  ∀ (f7 : BitVec 7) (rd rs1 rs2 : RegIdx) (s : State),
    (∃ t, exec (.sub rd rs1 rs2) s = .next t ∧
      RegisterEffect s t rd (BitVec.ofInt 64 (((s.x rs1).toNat : Int) - ((s.x rs2).toNat : Int))) (s.pc + 4#64)) ∧
    (∃ t, exec (.xor f7 rd rs1 rs2) s = .next t ∧ RegisterEffect s t rd (s.x rs1 ^^^ s.x rs2) (s.pc + 4#64)) ∧
    (∃ t, exec (.or f7 rd rs1 rs2) s = .next t ∧ RegisterEffect s t rd (s.x rs1 ||| s.x rs2) (s.pc + 4#64)) ∧
    (∃ t, exec (.and f7 rd rs1 rs2) s = .next t ∧ RegisterEffect s t rd (s.x rs1 &&& s.x rs2) (s.pc + 4#64))

/-- ADDI and the four slots of opcode OP-IMM that execute as ADDI add the immediate, read as a signed 12-bit number,
modulo 2^64, and change nothing else but the pc (42_alu_imm.md R201, R205 to R208). -/
def Obligations.AddImmediateWritesTheSum : Prop :=
  ∀ (rd rs1 : RegIdx) (imm : BitVec 12) (s : State),
    ∀ i ∈ [Instr.addi rd rs1 imm, .opImmF3_001 rd rs1 imm, .opImmF3_010 rd rs1 imm, .opImmF3_011 rd rs1 imm,
        .opImmF3_101 rd rs1 imm],
      ∃ t, exec i s = .next t ∧
        RegisterEffect s t rd (BitVec.ofInt 64 (((s.x rs1).toNat : Int) + imm.toInt)) (s.pc + 4#64)

/-- XORI, ORI and ANDI combine the register with the immediate extended by its bit 11 before the operation: bit k of
the result is the operation of bit k of the register and bit min(k, 11) of the immediate (42_alu_imm.md R202 to
R204). -/
def Obligations.BitwiseImmediateResults : Prop :=
  ∀ (rd rs1 : RegIdx) (imm : BitVec 12) (s : State),
    (∃ t v, exec (.xori rd rs1 imm) s = .next t ∧ RegisterEffect s t rd v (s.pc + 4#64) ∧
      ∀ k, k < 64 → v.getLsbD k = ((s.x rs1).getLsbD k != imm.getLsbD (min k 11))) ∧
    (∃ t v, exec (.ori rd rs1 imm) s = .next t ∧ RegisterEffect s t rd v (s.pc + 4#64) ∧
      ∀ k, k < 64 → v.getLsbD k = ((s.x rs1).getLsbD k || imm.getLsbD (min k 11))) ∧
    (∃ t v, exec (.andi rd rs1 imm) s = .next t ∧ RegisterEffect s t rd v (s.pc + 4#64) ∧
      ∀ k, k < 64 → v.getLsbD k = ((s.x rs1).getLsbD k && imm.getLsbD (min k 11)))

/-- All eight loads, LD and the seven slots that differ in funct3, at an aligned address: each runs, with the whole
effect of a load: the register, the pc, every byte loads see, every byte of the backing store, the addressed set and
every other set (43_load.md R220 to R228). The address is the one the meaning computes, and is the sum of the base and
the signed displacement. -/
def Obligations.EveryLoadCompletes : Prop :=
  ∀ (rd rs1 : RegIdx) (imm : BitVec 12) (s : State), MachineInv s → aligned8 (dataAddr s rs1 imm) = true →
    dataAddr s rs1 imm = BitVec.ofInt 64 (((s.x rs1).toNat : Int) + imm.toInt) ∧
    ∀ i ∈ loadForms rd rs1 imm, ∃ t, exec i s = .next t ∧ LoadEffect s t rd (dataAddr s rs1 imm)

/-- All eight stores, SD and the seven slots that differ in funct3, at an aligned address: each runs, with the whole
effect of a store of all 64 bits of rs2 (44_store.md R230 to R238). The address is the one the meaning computes. -/
def Obligations.EveryStoreCompletes : Prop :=
  ∀ (rs1 rs2 : RegIdx) (imm : BitVec 12) (s : State), MachineInv s → aligned8 (dataAddr s rs1 imm) = true →
    dataAddr s rs1 imm = BitVec.ofInt 64 (((s.x rs1).toNat : Int) + imm.toInt) ∧
    ∀ i ∈ storeForms rs1 rs2 imm, ∃ t, exec i s = .next t ∧ StoreEffect s t (dataAddr s rs1 imm) (s.x rs2)

/-- Every word of opcode LOAD decodes to one of the eight loads of its own fields, every word of opcode STORE to one
of the eight stores, and funct3 alone tells the eight apart (30_encoding.md R113, R114, R122). -/
def Obligations.LoadAndStoreWordsIgnoreFunct3 : Prop :=
  ∀ w : InstWord,
    (opcodeOf w = opcodeLoad →
      decodeWord w ∈ loadForms (rdOf w) (rs1Of w) (extractBits w 31 20) ∧
      ∀ s, exec (decodeWord w) s = exec (.ld (rdOf w) (rs1Of w) (extractBits w 31 20)) s) ∧
    (opcodeOf w = opcodeStore →
      decodeWord w ∈ storeForms (rs1Of w) (rs2Of w) (extractBits w 31 25 ++ extractBits w 11 7) ∧
      ∀ s, exec (decodeWord w) s = exec (.sd (rs1Of w) (rs2Of w) (extractBits w 31 25 ++ extractBits w 11 7)) s)

/-- A load or store whose address is not a multiple of 8 stops, with the address, in every state. The hardware defines
no result and takes no trap; the stop is the spec's decision D14 (20_memory.md R54; 60_exceptions.md R285; log entry
8). -/
def Obligations.MisalignedDataAccessStops : Prop :=
  ∀ (rd rs1 rs2 : RegIdx) (imm : BitVec 12) (s : State), (dataAddr s rs1 imm).toNat % 8 ≠ 0 →
    ∀ i ∈ loadForms rd rs1 imm ++ storeForms rs1 rs2 imm, exec i s = .fault (.misalignedData (dataAddr s rs1 imm))

/-- Every word of opcode BRANCH runs: the pc becomes the branch's own address plus its even offset in -4096 to 4094
when the condition of its funct3 holds of the two registers, else it advances by 4; nothing else changes, and the
target is not checked. Its micro-op has the control fields of the class (45_branch.md R240). -/
def Obligations.BranchWords : Prop :=
  ∀ (w : InstWord) (s : State), opcodeOf w = opcodeBranch →
    (∃ u, decodeStage { pc := s.pc, inst := w } s.regs = .ok u ∧ u.aSrc = .pc ∧ u.bSrc = .imm ∧
      u.imm = sext (immBOf w) ∧ u.aluOp = .add ∧ u.brCond = brCondOf (funct3Of w) ∧ u.regWe = false ∧
      u.memRe = false ∧ u.memWe = false) ∧
    (sext (immBOf w)).toInt % 2 = 0 ∧ -4096 ≤ (sext (immBOf w)).toInt ∧ (sext (immBOf w)).toInt ≤ 4094 ∧
    ∃ t, exec (decodeWord w) s = .next t ∧
      PcEffect s t (if condHolds (brCondOf (funct3Of w)) (s.x (rs1Of w)) (s.x (rs2Of w)) = true
        then s.pc + sext (immBOf w) else s.pc + 4#64)

/-- The six conditional branches, each taken exactly under its own comparison of the two registers, to the branch's
own address plus the signed offset (45_branch.md R241 to R246). -/
def Obligations.SixBranchesTakenExactlyWhen : Prop :=
  ∀ (rs1 rs2 : RegIdx) (imm : BitVec 13) (s : State),
    ∀ c ∈ [(Instr.beq rs1 rs2 imm, s.x rs1 = s.x rs2), (.bne rs1 rs2 imm, s.x rs1 ≠ s.x rs2),
        (.blt rs1 rs2 imm, (s.x rs1).toInt < (s.x rs2).toInt), (.bge rs1 rs2 imm, (s.x rs2).toInt ≤ (s.x rs1).toInt),
        (.bltu rs1 rs2 imm, (s.x rs1).toNat < (s.x rs2).toNat),
        (.bgeu rs1 rs2 imm, (s.x rs2).toNat ≤ (s.x rs1).toNat)],
      ∃ t, exec c.1 s = .next t ∧
        (c.2 → PcEffect s t (BitVec.ofInt 64 ((s.pc.toNat : Int) + imm.toInt))) ∧
        (¬c.2 → PcEffect s t (s.pc + 4#64))

/-- The two branch slots RISC-V reserves are accepted and only advance the pc by 4, for every pair of operands and
every offset (45_branch.md R247, R248). -/
def Obligations.ReservedBranchSlotsNeverTaken : Prop :=
  (∀ (rs1 rs2 : RegIdx) (imm : BitVec 13) (s : State), ∀ i ∈ [Instr.branchF3_010 rs1 rs2 imm, .branchF3_011 rs1 rs2 imm],
    ∃ t, exec i s = .next t ∧ PcEffect s t (s.pc + 4#64)) ∧
  ∀ w : InstWord,
    (w &&& 0x0000707F#32 = 0x00002063#32 → decodeWord w = .branchF3_010 (rs1Of w) (rs2Of w) (immBOf w)) ∧
    (w &&& 0x0000707F#32 = 0x00003063#32 → decodeWord w = .branchF3_011 (rs1Of w) (rs2Of w) (immBOf w))

/-- Every word whose opcode is none of the five, and no other, is UNSUPPORTED: it stops with the pc and the word, and
answers no next state, so no register, byte, set or pc changes (46_unsupported.md R260). -/
def Obligations.OtherOpcodesRaiseUnsupported : Prop :=
  ∀ w : InstWord,
    (opcodeOf w ∉ [0x33#7, 0x13#7, 0x03#7, 0x23#7, 0x63#7] ↔ decodeWord w = .unsupported w) ∧
    (opcodeOf w ∉ [0x33#7, 0x13#7, 0x03#7, 0x23#7, 0x63#7] → (firstMatch w).map (·.mnemonic) = some "UNSUPPORTED") ∧
    ∀ s, exec (.unsupported w) s = .fault (.unsupportedInstruction s.pc w)

/-- The RISC-V instructions the spec lists as absent: LUI, AUIPC, JAL, JALR, MISC-MEM, SYSTEM, OP-32, OP-IMM-32, AMO,
the floating-point and vector opcodes, the custom and reserved ones, every opcode whose low two bits are not 11, and
the spec's example words (46_unsupported.md R261 to R272; the numbers are general knowledge of RISC-V: log entry
10). -/
def Obligations.AbsentRiscvOpcodes : Prop :=
  (∀ op ∈ [0x37#7, 0x17#7, 0x6F#7, 0x67#7, 0x0F#7, 0x73#7, 0x3B#7, 0x1B#7, 0x2F#7, 0x07#7, 0x27#7, 0x43#7, 0x47#7,
      0x4B#7, 0x4F#7, 0x53#7, 0x57#7, 0x0B#7, 0x2B#7, 0x5B#7, 0x7B#7, 0x6B#7, 0x77#7, 0x1F#7, 0x3F#7, 0x5F#7, 0x7F#7],
    opcodeSupported op = false) ∧
  (∀ op : BitVec 7, op.extractLsb 1 0 ≠ 3#2 → opcodeSupported op = false) ∧
  ([0x123452B7#32, 0x00000297#32, 0x000000EF#32, 0x00008067#32, 0x0FF0000F#32, 0x0000100F#32, 0x00000073#32,
      0x00100073#32, 0x30200073#32, 0x10500073#32, 0xC0002573#32, 0x002081BB#32, 0x0000809B#32, 0x1000B52F#32,
      0x00000053#32, 0x00000000#32, 0xFFFFFFFF#32].all fun w => decodeWord w == .unsupported w) = true

/-! The step. -/

/-- A step runs the instruction its fetch decodes: when the four bytes of the backing store at an aligned pc decode to
an instruction, the step is that instruction's `exec` at that state, and the instruction is well-formed. `step` adds
nothing around `exec`: each meaning moves the pc itself (40_pipeline.md R165; 70_reset_and_hazards.md R327). -/
def Obligations.StepRunsTheFetchedInstruction : Prop :=
  ∀ (s : State) (i : Instr), s.params.wf → aligned4 s.pc = true →
    decodeBytes ((List.range 4).map fun k => s.backing (s.pc + BitVec.ofNat 64 k)) = .ok (i, []) →
    i.wf = true ∧ step s = exec i s

/-- What stops a step before its fetch: parameters outside the spec's constraints are refused (00_scope.md R8; log
entry 6), and a pc that is not a multiple of 4 stops with the pc, which is the spec's decision D13 and no trap
(20_memory.md R55; log entry 7). -/
def Obligations.StepStopsBeforeTheFetch : Prop :=
  ∀ s : State,
    (¬(3 ≤ s.params.blockBits ∧ s.params.blockBits + s.params.setBits < 64) → step s = .refused .badParameters) ∧
    (s.params.wf → s.pc.toNat % 4 ≠ 0 → step s = .fault (.misalignedFetch s.pc))

/-- A step answers a next state exactly when the instruction meets its preconditions: legal parameters, an aligned pc,
a supported opcode, an aligned data access (70_reset_and_hazards.md R328, R330, R332). The stops are the model's (log
entries 6 to 9). -/
def Obligations.StepCompletesExactlyWhenReady : Prop :=
  ∀ s : State, (∃ t, step s = .next t) ↔ Ready s

/-- No instruction of the five classes raises an error of the hardware, whatever its operands and the state: it
answers a next state, or its data address breaks the precondition, which is no error of the hardware (60_exceptions.md
R298, R285; 20_memory.md R54). That it then stops with the fault `misalignedData` is the spec's decision D14 (log entry
8), not R298. -/
def Obligations.OrdinaryInstructionsAreExceptionFree : Prop :=
  ∀ (i : Instr) (s : State), (∀ w, i ≠ .unsupported w) →
    (∃ t, exec i s = .next t) ∨
    ∃ a, (dataRequest i s = .read a ∨ ∃ v, dataRequest i s = .write a v) ∧ a.toNat % 8 ≠ 0 ∧
      exec i s = .fault (.misalignedData a)

/-- The invariant holds after reset, for every choice of the open parameters that the spec allows, and of the model's
own reset state (log entries 1 to 5). -/
def Obligations.InvariantHoldsAfterReset : Prop :=
  (∀ (p : Params) (pc : Word) (regs : Registers) (mem : Memory), p.wf → mem.wf → MachineInv (State.init p pc regs mem)) ∧
  MachineInv State.reset

/-- Every step keeps the invariant, from every state that meets it: legal parameters, the backing store in canonical
form, the set array in shape with every tag within its width, every CLEAN block equal to the backing store
(21_cache.md R97), no set in use with the cache disabled (R103). -/
def Obligations.EveryStepKeepsTheInvariant : Prop :=
  ∀ s t : State, MachineInv s → step s = .next t → MachineInv t

/-- The next pc of every step is pc + 4 or, for a taken branch alone, the branch's target; every next pc is even; and
a pc that is not a multiple of 4 comes only from a taken branch whose offset has bit 1 set (10_state.md R24, R25;
70_reset_and_hazards.md R336). That pc + 4 wraps is the spec's decision D20 (log entry 15). -/
def Obligations.NextPcIsFallThroughOrTarget : Prop :=
  ∀ s t : State, step s = .next t →
    (t.pc = s.pc + 4#64 ∨
      (opcodeOf (fetchRead s s.pc) = opcodeBranch ∧
        condHolds (brCondOf (funct3Of (fetchRead s s.pc))) (s.x (rs1Of (fetchRead s s.pc)))
          (s.x (rs2Of (fetchRead s s.pc))) = true ∧
        t.pc = s.pc + sext (immBOf (fetchRead s s.pc)))) ∧
    t.pc.toNat % 2 = 0 ∧
    (t.pc.toNat % 4 ≠ 0 → opcodeOf (fetchRead s s.pc) = opcodeBranch ∧ (immBOf (fetchRead s s.pc)).getLsbD 1 = true)

/-- A step writes at most the register its word names as rd, and none for a store or a branch: every instruction that
can write one is of opcode OP, OP-IMM or LOAD (10_state.md R21; 40_pipeline.md R162, R166). -/
def Obligations.OnlyTheDestinationRegisterChanges : Prop :=
  ∀ (s t : State) (r : RegIdx), step s = .next t → t.x r ≠ s.x r →
    r = rdOf (fetchRead s s.pc) ∧ r ≠ 0#5 ∧ opcodeOf (fetchRead s s.pc) ∈ [opcodeOp, opcodeOpImm, opcodeLoad]

/-- No step changes a parameter, CACHE_ENABLE among them, and with the cache disabled no step changes a set
(70_reset_and_hazards.md R331, decision D11: log entry 25; 21_cache.md R103, which the spec derives). -/
def Obligations.ParametersAndDisabledCacheStay : Prop :=
  ∀ s t : State, step s = .next t → t.params = s.params ∧ (s.params.cacheEnable = false → t.cache = s.cache)

/-- A program parked on `beq x0, x0, 0` stays there for ever: every number of steps gives the same state
(45_branch.md R249; 70_reset_and_hazards.md R333, a convention of the driver: log entry 17). -/
def Obligations.ParkingBranchRepeatsForEver : Prop :=
  ∀ s : State, s.params.wf → aligned4 s.pc = true → fetchRead s s.pc = 0x00000063#32 →
    ∀ n, Sys2Proof.core.run n s = .next s

/-! The cache. -/

/-- The four parts of an address, in numbers (21_cache.md R82). -/
def Obligations.AddressSplitsIntoFields : Prop :=
  ∀ (p : Params) (a : Word), p.wf →
    (offsetOf p a).toNat = a.toNat % p.blockSize ∧
    (setIndexOf p a).toNat = a.toNat / p.blockSize % p.numSets ∧
    (tagOf p a).toNat = a.toNat / (p.blockSize * p.numSets) ∧
    (blockBaseOf p a).toNat = a.toNat - a.toNat % p.blockSize ∧
    (tagOf p a).toNat < 2 ^ (64 - p.blockBits - p.setBits) ∧
    (p.setBits = 0 → setIndexOf p a = 0#64)

/-- Address decomposition round trip: the three fields rebuild every address, and fields within their widths are the
fields of the address they rebuild, whose bits are their sum (21_cache.md R83). -/
def Obligations.AddressRoundTrip : Prop :=
  ∀ p : Params, p.wf →
    (∀ a : Word, reconstruct p (tagOf p a) (setIndexOf p a) (offsetOf p a) = a) ∧
    ∀ t s o : Word, t.toNat < 2 ^ (64 - p.blockBits - p.setBits) → s.toNat < p.numSets → o.toNat < p.blockSize →
      (reconstruct p t s o).toNat = t.toNat * 2 ^ (p.blockBits + p.setBits) + s.toNat * 2 ^ p.blockBits + o.toNat ∧
      tagOf p (reconstruct p t s o) = t ∧ setIndexOf p (reconstruct p t s o) = s ∧ offsetOf p (reconstruct p t s o) = o

/-- The transition table, row by row: for a request at `a`, what the addressed set holds after a read and after a
write, and the traffic at the port, by what the set held before. A write ends DIRTY whatever came before, and no
request leaves a set INVALID (21_cache.md R87, R94; the ascending order inside a fill or a writeback is the spec's
decision D9, log entry 26). -/
def Obligations.CacheTransitionTable : Prop :=
  ∀ (s : State) (a v : Word), MachineInv s → s.params.cacheEnable = true → aligned8 a = true →
    ((memRead s a).1.setFor a).tag = tagOf s.params a ∧
    ((memWrite s a v).setFor a).tag = tagOf s.params a ∧
    ((memWrite s a v).setFor a).state = .dirty ∧
    ((s.setFor a).state = .invalid →
      ((memRead s a).1.setFor a).state = .clean ∧
      requestCalls s a = readCalls (blockBaseOf s.params a) s.params.blockSize) ∧
    ((s.setFor a).state = .clean → (s.setFor a).tag = tagOf s.params a →
      ((memRead s a).1.setFor a).state = .clean ∧ requestCalls s a = []) ∧
    ((s.setFor a).state = .clean → (s.setFor a).tag ≠ tagOf s.params a →
      ((memRead s a).1.setFor a).state = .clean ∧
      requestCalls s a = readCalls (blockBaseOf s.params a) s.params.blockSize) ∧
    ((s.setFor a).state = .dirty → (s.setFor a).tag = tagOf s.params a →
      ((memRead s a).1.setFor a).state = .dirty ∧ requestCalls s a = []) ∧
    ((s.setFor a).state = .dirty → (s.setFor a).tag ≠ tagOf s.params a →
      ((memRead s a).1.setFor a).state = .clean ∧
      requestCalls s a =
        writeCalls (reconstruct s.params (s.setFor a).tag (setIndexOf s.params a) 0#64) (s.setFor a).data ++
          readCalls (blockBaseOf s.params a) s.params.blockSize ∧
      (s.setFor a).data.length = s.params.blockSize)

/-- A request that finds its set CLEAN or INVALID makes no `write_byte` call, and neither a read nor a write changes a
byte of the backing store then (21_cache.md R95). -/
def Obligations.NoWritebackUnlessDirty : Prop :=
  ∀ (s : State) (a v : Word), s.params.cacheEnable = true → (s.setFor a).state ≠ .dirty →
    (∀ c ∈ requestCalls s a, c.isWrite = false) ∧ (memRead s a).1.mem = s.mem ∧ (memWrite s a v).mem = s.mem

/-- A request that evicts writes the victim's block to the address rebuilt from the victim's own tag, which differs
from the address of the fill in the tag and agrees with it in the set index: the victim's bytes reach the backing
store there, and the backing bytes of the block about to be filled are as before (21_cache.md R96). -/
def Obligations.WritebackGoesToTheStoredTag : Prop :=
  ∀ (s : State) (a : Word), MachineInv s → s.evicts a = true → aligned8 a = true →
    let base := reconstruct s.params (s.setFor a).tag (setIndexOf s.params a) 0#64
    tagOf s.params base = (s.setFor a).tag ∧ setIndexOf s.params base = setIndexOf s.params a ∧
    blockBaseOf s.params a = reconstruct s.params (tagOf s.params a) (setIndexOf s.params a) 0#64 ∧
    tagOf s.params base ≠ tagOf s.params (blockBaseOf s.params a) ∧
    (∀ k, k < s.params.blockSize →
      some ((memRead s a).1.backing (base + BitVec.ofNat 64 k)) = (s.setFor a).data[k]?) ∧
    ∀ b, blockBaseOf s.params b = blockBaseOf s.params a → (memRead s a).1.backing b = s.backing b

/-- Dirty data survives an eviction: after a write of `v` at `a`, a read or a write at `b` of the same set and another
tag puts `v` into the backing store at `a`, and a read of `a` then returns `v` (21_cache.md R99). -/
def Obligations.DirtyDataSurvivesEviction : Prop :=
  ∀ (s : State) (a b v v' : Word), MachineInv s → s.params.cacheEnable = true → aligned8 a = true → aligned8 b = true →
    setIndexOf s.params b = setIndexOf s.params a → tagOf s.params b ≠ tagOf s.params a →
    ((memWrite s a v).setFor a).state = .dirty ∧
    ∀ u ∈ [(memRead (memWrite s a v) b).1, memWrite (memWrite s a v) b v'],
      (u.setFor a).tag = tagOf s.params b ∧ (∀ k, k < 8 → u.backing (a + BitVec.ofNat 64 k) = byteOf v k) ∧
      (memRead u a).2 = v

/-- A load returns the value of the store before it when the two addresses are the same, and what it would have
returned without the store when they are not, for every form of either, with the cache enabled or disabled, hit or
miss; a load into register 0 leaves it 0 (20_memory.md R64; 21_cache.md R98, which the spec derives). -/
def Obligations.LoadAfterStore : Prop :=
  ∀ (s t : State) (rd rs1 rs1' rs2 : RegIdx) (imm imm' : BitVec 12), MachineInv s →
    ∀ i ∈ storeForms rs1 rs2 imm, ∀ j ∈ loadForms rd rs1' imm', exec i s = .next t →
      aligned8 (dataAddr s rs1' imm') = true →
        ∃ u, exec j t = .next u ∧
          u.x rd = if rd = 0#5 then 0#64
            else if dataAddr s rs1' imm' = dataAddr s rs1 imm then s.x rs2 else s.viewDword (dataAddr s rs1' imm')

/-- The cache is transparent to loads and stores: two machines that differ in CACHE_ENABLE, and in the cache's size and
contents, but agree in the registers, the pc and the bytes loads see, and that fetch the same word, step alike: both to
next states that agree again, or both to the same stop. Only the fetch can tell them apart (20_memory.md R64, R67,
R69; the little-endian direct path is decision D8: log entry 12). -/
def Obligations.CacheIsTransparentToLoadsAndStores : Prop :=
  ∀ s u : State, SameToLoads s u → fetchRead s s.pc = fetchRead u u.pc →
    (∀ t, step s = .next t → ∃ t', step u = .next t' ∧ SameToLoads t t') ∧
    (∀ f, step s = .fault f ↔ step u = .fault f) ∧ (∀ t', step u = .next t' → ∃ t, step s = .next t)

/-- Nothing but a data access changes a set, and it changes the addressed one alone: no fetch, no access to another
set; a set that has left INVALID never returns to it; and what a request makes of its set depends on that set, the
request and the backing store only (21_cache.md R88, R87). -/
def Obligations.OnlyTheAddressedSetChanges : Prop :=
  (∀ (s t : State) (i : Word), MachineInv s → step s = .next t →
    ((∀ a, (dataRequest (decodeWord (fetchRead s s.pc)) s = .read a ∨
        ∃ v, dataRequest (decodeWord (fetchRead s s.pc)) s = .write a v) → i ≠ setIndexOf s.params a) →
      t.setAt i = s.setAt i) ∧
    ((s.setAt i).state ≠ .invalid → (t.setAt i).state ≠ .invalid)) ∧
  ∀ (s u : State) (a v : Word), MachineInv s → MachineInv u → s.params = u.params → s.setFor a = u.setFor a → s.mem = u.mem →
    (memRead s a).1.setFor a = (memRead u a).1.setFor a ∧ (memWrite s a v).setFor a = (memWrite u a v).setFor a

/-- The calls an instruction makes at the backing-store port, replayed on the backing store before it, make the
backing store after it (20_memory.md R50; 21_cache.md R101, which the spec derives; the order of the transfers is
decision D9: log entry 26). -/
def Obligations.PortCallsMakeTheBackingStore : Prop :=
  ∀ s t : State, step s = .next t → replay s.mem (stepCalls s) = t.mem

/-- What fetch sees of a store. With the cache enabled and no eviction, every fetch after a store returns what it
returned before; with the cache disabled the two words of the stored dword are fetched at once; and a DIRTY block is
fetched once a conflicting access has evicted it (20_memory.md R67, derived by the spec from R57 and R59; R53). -/
def Obligations.FetchSeesTheBackingStoreOnly : Prop :=
  (∀ (s t : State) (rs1 rs2 : RegIdx) (imm : BitVec 12), MachineInv s → ∀ i ∈ storeForms rs1 rs2 imm, exec i s = .next t →
    (s.params.cacheEnable = true → s.evicts (dataAddr s rs1 imm) = false → ∀ pc, fetchRead t pc = fetchRead s pc) ∧
    (s.params.cacheEnable = false →
      fetchRead t (dataAddr s rs1 imm) = (s.x rs2).extractLsb' 0 32 ∧
      fetchRead t (dataAddr s rs1 imm + 4#64) = (s.x rs2).extractLsb' 32 32)) ∧
  ∀ (s : State) (a b : Word), MachineInv s → aligned8 a = true → aligned8 b = true → s.evicts b = true →
    setIndexOf s.params a = setIndexOf s.params b → tagOf s.params a = (s.setFor b).tag →
      fetchRead (memRead s b).1 a = (s.viewDword a).extractLsb' 0 32

/-- The cache at reset: every set INVALID, for every choice of the open parameters; the first access to a set is a miss
that fills and writes nothing back; and the tags and bytes of INVALID sets cannot be observed: two states that differ
in those alone make the same port calls and step to the same stop, or to states that differ in those alone
(70_reset_and_hazards.md R320; 21_cache.md R85). -/
def Obligations.StaleContentsAreUnobservable : Prop :=
  (∀ (p : Params) (pc : Word) (regs : Registers) (mem : Memory) (i : Word),
    ((State.init p pc regs mem).setAt i).state = .invalid) ∧
  (∀ (s : State) (a : Word), (s.setFor a).state = .invalid →
    requestCalls s a = fillCalls s a ∧ ∀ c ∈ requestCalls s a, c.isWrite = false) ∧
  ∀ s u : State, SameButStale s u →
    stepCalls s = stepCalls u ∧ (∀ a, s.view a = u.view a) ∧
    (∀ t, step s = .next t → ∃ t', step u = .next t' ∧ SameButStale t t') ∧
    (∀ f, step s = .fault f → step u = .fault f)

/-- The state after reset: the pc, x1 to x31 and the backing store are the open parameters RESET_PC, REG_INIT and
MEM_INIT, x0 reads 0, there are NUM_SETS sets and each is INVALID, so that loads see the backing store
(70_reset_and_hazards.md R325; 10_state.md R38). The model's own reset state is the one with its chosen parameters
(DESIGN CHOICE, log entries 1 to 5). -/
def Obligations.ResetState : Prop :=
  (∀ (p : Params) (pc : Word) (regs : Registers) (mem : Memory),
    (State.init p pc regs mem).pc = pc ∧ (State.init p pc regs mem).params = p ∧
    (State.init p pc regs mem).x 0#5 = 0#64 ∧
    (∀ k : Fin 31, (State.init p pc regs mem).x (BitVec.ofNat 5 (k.val + 1)) = regs[k]) ∧
    (State.init p pc regs mem).cache.length = p.numSets ∧
    (∀ c ∈ (State.init p pc regs mem).cache, c.state = .invalid) ∧
    ∀ a : Word, (State.init p pc regs mem).backing a = mem.read a.toNat ∧
      (State.init p pc regs mem).view a = mem.read a.toNat) ∧
  State.reset = State.init { blockBits := 4, setBits := 2, cacheEnable := true } 0x1000#64 (Vector.replicate 31 0#64) []

end
end

