-- ==== Sys2Proof/Laws/State.lean ====
section
/-! SUPPORT. One lemma per field per update of the state, each true by rfl, and the same for the operations that
are record updates, so that no later proof unfolds one. -/

namespace Sys2Proof.Machine

@[simp] theorem State.setX_params (s : State) (i : RegIdx) (v : Word) : (s.setX i v).params = s.params := rfl
@[simp] theorem State.setX_pc (s : State) (i : RegIdx) (v : Word) : (s.setX i v).pc = s.pc := rfl
@[simp] theorem State.setX_regs (s : State) (i : RegIdx) (v : Word) : (s.setX i v).regs = regWrite s.regs i v := rfl
@[simp] theorem State.setX_mem (s : State) (i : RegIdx) (v : Word) : (s.setX i v).mem = s.mem := rfl
@[simp] theorem State.setX_cache (s : State) (i : RegIdx) (v : Word) : (s.setX i v).cache = s.cache := rfl

@[simp] theorem State.goto_params (s : State) (t : Word) : (s.goto t).params = s.params := rfl
@[simp] theorem State.goto_pc (s : State) (t : Word) : (s.goto t).pc = t := rfl
@[simp] theorem State.goto_regs (s : State) (t : Word) : (s.goto t).regs = s.regs := rfl
@[simp] theorem State.goto_mem (s : State) (t : Word) : (s.goto t).mem = s.mem := rfl
@[simp] theorem State.goto_cache (s : State) (t : Word) : (s.goto t).cache = s.cache := rfl

@[simp] theorem State.advance_params (s : State) : (s.advance).params = s.params := rfl
@[simp] theorem State.advance_pc (s : State) : (s.advance).pc = s.pc + 4#64 := rfl
@[simp] theorem State.advance_regs (s : State) : (s.advance).regs = s.regs := rfl
@[simp] theorem State.advance_mem (s : State) : (s.advance).mem = s.mem := rfl
@[simp] theorem State.advance_cache (s : State) : (s.advance).cache = s.cache := rfl

@[simp] theorem State.writeByte_params (s : State) (a : Word) (b : Byte) : (s.writeByte a b).params = s.params := rfl
@[simp] theorem State.writeByte_pc (s : State) (a : Word) (b : Byte) : (s.writeByte a b).pc = s.pc := rfl
@[simp] theorem State.writeByte_regs (s : State) (a : Word) (b : Byte) : (s.writeByte a b).regs = s.regs := rfl
@[simp] theorem State.writeByte_mem (s : State) (a : Word) (b : Byte) : (s.writeByte a b).mem = s.mem.write a.toNat b := rfl
@[simp] theorem State.writeByte_cache (s : State) (a : Word) (b : Byte) : (s.writeByte a b).cache = s.cache := rfl

@[simp] theorem State.putSet_params (s : State) (i : Word) (c : CacheSet) : (s.putSet i c).params = s.params := rfl
@[simp] theorem State.putSet_pc (s : State) (i : Word) (c : CacheSet) : (s.putSet i c).pc = s.pc := rfl
@[simp] theorem State.putSet_regs (s : State) (i : Word) (c : CacheSet) : (s.putSet i c).regs = s.regs := rfl
@[simp] theorem State.putSet_mem (s : State) (i : Word) (c : CacheSet) : (s.putSet i c).mem = s.mem := rfl
@[simp] theorem State.putSet_cache (s : State) (i : Word) (c : CacheSet) : (s.putSet i c).cache = s.cache.set i.toNat c := rfl

@[simp] theorem directWrite_params (s : State) (a v : Word) : (directWrite s a v).params = s.params := rfl
@[simp] theorem directWrite_pc (s : State) (a v : Word) : (directWrite s a v).pc = s.pc := rfl
@[simp] theorem directWrite_regs (s : State) (a v : Word) : (directWrite s a v).regs = s.regs := rfl
@[simp] theorem directWrite_mem (s : State) (a v : Word) : (directWrite s a v).mem = writeBytes s.mem a (dwordBytes v) := rfl
@[simp] theorem directWrite_cache (s : State) (a v : Word) : (directWrite s a v).cache = s.cache := rfl

@[simp] theorem writeback_params (s : State) (a : Word) : (writeback s a).params = s.params := rfl
@[simp] theorem writeback_pc (s : State) (a : Word) : (writeback s a).pc = s.pc := rfl
@[simp] theorem writeback_regs (s : State) (a : Word) : (writeback s a).regs = s.regs := rfl
@[simp] theorem writeback_mem (s : State) (a : Word) : (writeback s a).mem = writeBytes s.mem (reconstruct s.params (s.setFor a).tag (setIndexOf s.params a) 0#64) (s.setFor a).data := rfl
@[simp] theorem writeback_cache (s : State) (a : Word) : (writeback s a).cache = s.cache := rfl

@[simp] theorem fill_params (s : State) (a : Word) : (fill s a).params = s.params := rfl
@[simp] theorem fill_pc (s : State) (a : Word) : (fill s a).pc = s.pc := rfl
@[simp] theorem fill_regs (s : State) (a : Word) : (fill s a).regs = s.regs := rfl
@[simp] theorem fill_mem (s : State) (a : Word) : (fill s a).mem = s.mem := rfl

@[simp] theorem modifySet_params (s : State) (a v : Word) : (modifySet s a v).params = s.params := rfl
@[simp] theorem modifySet_pc (s : State) (a v : Word) : (modifySet s a v).pc = s.pc := rfl
@[simp] theorem modifySet_regs (s : State) (a v : Word) : (modifySet s a v).regs = s.regs := rfl
@[simp] theorem modifySet_mem (s : State) (a v : Word) : (modifySet s a v).mem = s.mem := rfl

@[simp] theorem State.init_params (p : Params) (pc : Word) (regs : Registers) (mem : Memory) :
    (State.init p pc regs mem).params = p := rfl
@[simp] theorem State.init_pc (p : Params) (pc : Word) (regs : Registers) (mem : Memory) :
    (State.init p pc regs mem).pc = pc := rfl
@[simp] theorem State.init_regs (p : Params) (pc : Word) (regs : Registers) (mem : Memory) :
    (State.init p pc regs mem).regs = regs := rfl
@[simp] theorem State.init_mem (p : Params) (pc : Word) (regs : Registers) (mem : Memory) :
    (State.init p pc regs mem).mem = mem := rfl
@[simp] theorem State.init_cache (p : Params) (pc : Word) (regs : Registers) (mem : Memory) :
    (State.init p pc regs mem).cache = List.replicate p.numSets (invalidSet p) := rfl

/-! The readers of a state see only the fields they name. -/

@[simp] theorem State.x_goto (s : State) (t : Word) (i : RegIdx) : (s.goto t).x i = s.x i := rfl
@[simp] theorem State.x_advance (s : State) (i : RegIdx) : s.advance.x i = s.x i := rfl
@[simp] theorem State.x_putSet (s : State) (i : Word) (c : CacheSet) (r : RegIdx) : (s.putSet i c).x r = s.x r := rfl
@[simp] theorem State.backing_goto (s : State) (t a : Word) : (s.goto t).backing a = s.backing a := rfl
@[simp] theorem State.backing_advance (s : State) (a : Word) : s.advance.backing a = s.backing a := rfl
@[simp] theorem State.backing_setX (s : State) (i : RegIdx) (v a : Word) : (s.setX i v).backing a = s.backing a := rfl
@[simp] theorem State.backing_putSet (s : State) (i : Word) (c : CacheSet) (a : Word) :
    (s.putSet i c).backing a = s.backing a := rfl
@[simp] theorem State.setAt_goto (s : State) (t i : Word) : (s.goto t).setAt i = s.setAt i := rfl
@[simp] theorem State.setAt_advance (s : State) (i : Word) : s.advance.setAt i = s.setAt i := rfl
@[simp] theorem State.setAt_setX (s : State) (r : RegIdx) (v i : Word) : (s.setX r v).setAt i = s.setAt i := rfl
@[simp] theorem State.view_goto (s : State) (t a : Word) : (s.goto t).view a = s.view a := rfl
@[simp] theorem State.view_advance (s : State) (a : Word) : s.advance.view a = s.view a := rfl
@[simp] theorem State.view_setX (s : State) (r : RegIdx) (v a : Word) : (s.setX r v).view a = s.view a := rfl

end Sys2Proof.Machine
end

