-- ==== Sys2Proof/Laws/Address.lean ====
section
/-! SUPPORT. The cache's address split in numbers: an address is `tag * 2^(OB+SB) + set * 2^OB + offset`
(21_cache.md R82, R83). -/

namespace Sys2Proof.Machine

variable {p : Params}

theorem blockSize_dvd (hp : p.wf) : 2 ^ p.blockBits * 2 ^ (64 - p.blockBits) = 2 ^ 64 := by
  rw [← pow_add]
  congr 1
  have := hp.2
  omega

theorem blockSizeWord_toNat (hp : p.wf) : (blockSizeWord p).toNat = 2 ^ p.blockBits := by
  have : 2 ^ p.blockBits < 2 ^ 64 := Nat.pow_lt_pow_right (by omega) (by have := hp.2; omega)
  rw [blockSizeWord, BitVec.toNat_shiftLeft, Nat.shiftLeft_eq, BitVec.toNat_ofNat]
  simp only [Nat.one_mod, Nat.reducePow, one_mul]
  exact Nat.mod_eq_of_lt this

theorem numSetsWord_toNat (hp : p.wf) : (numSetsWord p).toNat = 2 ^ p.setBits := by
  have : 2 ^ p.setBits < 2 ^ 64 := Nat.pow_lt_pow_right (by omega) (by have := hp.2; omega)
  rw [numSetsWord, BitVec.toNat_shiftLeft, Nat.shiftLeft_eq, BitVec.toNat_ofNat]
  simp only [Nat.one_mod, Nat.reducePow, one_mul]
  exact Nat.mod_eq_of_lt this

theorem mask_toNat {w : Word} {n : Nat} (h : w.toNat = 2 ^ n) : (w - 1#64).toNat = 2 ^ n - 1 := by
  have h0 := Nat.two_pow_pos n
  have := w.isLt
  rw [BitVec.toNat_sub]
  simp only [BitVec.toNat_ofNat]
  omega

theorem offsetOf_toNat (hp : p.wf) (a : Word) : (offsetOf p a).toNat = a.toNat % 2 ^ p.blockBits := by
  rw [offsetOf, BitVec.toNat_and, mask_toNat (blockSizeWord_toNat hp), Nat.and_two_pow_sub_one_eq_mod]

theorem setIndexOf_toNat (hp : p.wf) (a : Word) :
    (setIndexOf p a).toNat = a.toNat / 2 ^ p.blockBits % 2 ^ p.setBits := by
  rw [setIndexOf, BitVec.toNat_and, mask_toNat (numSetsWord_toNat hp), Nat.and_two_pow_sub_one_eq_mod,
    BitVec.toNat_ushiftRight, Nat.shiftRight_eq_div_pow]

theorem tagOf_toNat (a : Word) : (tagOf p a).toNat = a.toNat / 2 ^ (p.blockBits + p.setBits) := by
  rw [tagOf, BitVec.toNat_ushiftRight, Nat.shiftRight_eq_div_pow]

theorem tagOf_lt (hp : p.wf) (a : Word) : (tagOf p a).toNat < 2 ^ (64 - p.blockBits - p.setBits) := by
  have ha := a.isLt
  have := hp.2
  rw [tagOf_toNat, Nat.div_lt_iff_lt_mul (Nat.two_pow_pos _), ← pow_add,
    show 64 - p.blockBits - p.setBits + (p.blockBits + p.setBits) = 64 by omega]
  exact ha

theorem setIndexOf_lt (hp : p.wf) (a : Word) : (setIndexOf p a).toNat < 2 ^ p.setBits := by
  rw [setIndexOf_toNat hp]
  exact Nat.mod_lt _ (Nat.two_pow_pos _)

theorem offsetOf_lt (hp : p.wf) (a : Word) : (offsetOf p a).toNat < 2 ^ p.blockBits := by
  rw [offsetOf_toNat hp]
  exact Nat.mod_lt _ (Nat.two_pow_pos _)

/-- An address put together from its parts. -/
theorem split_toNat (hp : p.wf) (a : Word) :
    a.toNat = (tagOf p a).toNat * 2 ^ (p.blockBits + p.setBits) + (setIndexOf p a).toNat * 2 ^ p.blockBits +
      (offsetOf p a).toNat := by
  rw [tagOf_toNat, setIndexOf_toNat hp, offsetOf_toNat hp, pow_add, ← Nat.div_div_eq_div_mul]
  have h1 := Nat.div_add_mod a.toNat (2 ^ p.blockBits)
  have h2 := Nat.div_add_mod (a.toNat / 2 ^ p.blockBits) (2 ^ p.setBits)
  generalize a.toNat / 2 ^ p.blockBits = q at *
  generalize a.toNat % 2 ^ p.blockBits = o at *
  generalize q / 2 ^ p.setBits = t at *
  generalize q % 2 ^ p.setBits = i at *
  rw [← h1, ← h2]
  ring

/-- The three parts of `reconstruct` do not overlap, so it is their sum. -/
theorem reconstruct_toNat (hp : p.wf) {t s o : Word} (ht : t.toNat < 2 ^ (64 - p.blockBits - p.setBits))
    (hs : s.toNat < 2 ^ p.setBits) (ho : o.toNat < 2 ^ p.blockBits) :
    (reconstruct p t s o).toNat =
      t.toNat * 2 ^ (p.blockBits + p.setBits) + s.toNat * 2 ^ p.blockBits + o.toNat := by
  have hb := hp.2
  have e64 : 2 ^ (64 - p.blockBits - p.setBits) * 2 ^ (p.blockBits + p.setBits) = 2 ^ 64 := by
    rw [← pow_add]
    congr 1
    omega
  have esb : 2 ^ p.setBits * 2 ^ p.blockBits = 2 ^ (p.blockBits + p.setBits) := by
    rw [← pow_add, add_comm]
  have ht' : t.toNat * 2 ^ (p.blockBits + p.setBits) < 2 ^ 64 := by
    rw [← e64]
    exact Nat.mul_lt_mul_of_pos_right ht (Nat.two_pow_pos _)
  have hs' : s.toNat * 2 ^ p.blockBits < 2 ^ (p.blockBits + p.setBits) := by
    rw [← esb]
    exact Nat.mul_lt_mul_of_pos_right hs (Nat.two_pow_pos _)
  have hle : 2 ^ (p.blockBits + p.setBits) < 2 ^ 64 := Nat.pow_lt_pow_right (by omega) hb
  have e1 : (t <<< (p.blockBits + p.setBits)).toNat = t.toNat <<< (p.blockBits + p.setBits) := by
    rw [BitVec.toNat_shiftLeft, Nat.shiftLeft_eq, Nat.mod_eq_of_lt ht']
  have e2 : (s <<< p.blockBits).toNat = s.toNat <<< p.blockBits := by
    rw [BitVec.toNat_shiftLeft, Nat.shiftLeft_eq, Nat.mod_eq_of_lt (lt_trans hs' hle)]
  have e3 : (s.toNat <<< p.blockBits) ||| o.toNat = s.toNat * 2 ^ p.blockBits + o.toNat := by
    rw [← Nat.shiftLeft_add_eq_or_of_lt ho, Nat.shiftLeft_eq]
  have hso : s.toNat * 2 ^ p.blockBits + o.toNat < 2 ^ (p.blockBits + p.setBits) := by
    rw [← esb]
    calc s.toNat * 2 ^ p.blockBits + o.toNat < s.toNat * 2 ^ p.blockBits + 2 ^ p.blockBits := by omega
      _ = (s.toNat + 1) * 2 ^ p.blockBits := by ring
      _ ≤ 2 ^ p.setBits * 2 ^ p.blockBits := Nat.mul_le_mul_right _ hs
  rw [reconstruct, BitVec.toNat_or, BitVec.toNat_or, e1, e2, Nat.or_assoc, e3,
    ← Nat.shiftLeft_add_eq_or_of_lt hso, Nat.shiftLeft_eq]
  omega

/-- The parts of an address put together from parts. -/
theorem parts_of_reconstruct (hp : p.wf) {t s o : Word} (ht : t.toNat < 2 ^ (64 - p.blockBits - p.setBits))
    (hs : s.toNat < 2 ^ p.setBits) (ho : o.toNat < 2 ^ p.blockBits) :
    tagOf p (reconstruct p t s o) = t ∧ setIndexOf p (reconstruct p t s o) = s ∧
      offsetOf p (reconstruct p t s o) = o := by
  have e := reconstruct_toNat hp ht hs ho
  have hB := Nat.two_pow_pos p.blockBits
  have hS := Nat.two_pow_pos p.setBits
  have e' : (reconstruct p t s o).toNat = o.toNat + 2 ^ p.blockBits * (s.toNat + 2 ^ p.setBits * t.toNat) := by
    rw [e, pow_add]
    ring
  have hd : (reconstruct p t s o).toNat / 2 ^ p.blockBits = s.toNat + 2 ^ p.setBits * t.toNat := by
    rw [e', Nat.add_mul_div_left _ _ hB, Nat.div_eq_of_lt ho, zero_add]
  refine ⟨BitVec.eq_of_toNat_eq ?_, BitVec.eq_of_toNat_eq ?_, BitVec.eq_of_toNat_eq ?_⟩
  · rw [tagOf_toNat, pow_add, ← Nat.div_div_eq_div_mul, hd, Nat.add_mul_div_left _ _ hS, Nat.div_eq_of_lt hs, zero_add]
  · rw [setIndexOf_toNat hp, hd, Nat.add_mul_mod_self_left, Nat.mod_eq_of_lt hs]
  · rw [offsetOf_toNat hp, e', Nat.add_mul_mod_self_left, Nat.mod_eq_of_lt ho]

/-- Two addresses with the same three parts are one. -/
theorem eq_of_parts (hp : p.wf) {a b : Word} (ht : tagOf p a = tagOf p b) (hs : setIndexOf p a = setIndexOf p b)
    (ho : offsetOf p a = offsetOf p b) : a = b := by
  apply BitVec.eq_of_toNat_eq
  rw [split_toNat hp a, split_toNat hp b, ht, hs, ho]

theorem blockBaseOf_toNat (hp : p.wf) (a : Word) :
    (blockBaseOf p a).toNat = a.toNat - a.toNat % 2 ^ p.blockBits := by
  have hsum : (blockBaseOf p a).toNat + (offsetOf p a).toNat = a.toNat := by
    have h0 : offsetOf p a &&& blockBaseOf p a = 0#64 := by
      ext i hi
      simp only [offsetOf, blockBaseOf, BitVec.getElem_and, BitVec.getElem_not, BitVec.getElem_zero]
      cases a[i] <;> cases (blockSizeWord p - 1#64)[i] <;> rfl
    have h1 : offsetOf p a ||| blockBaseOf p a = a := by
      ext i hi
      simp only [offsetOf, blockBaseOf, BitVec.getElem_or, BitVec.getElem_and, BitVec.getElem_not]
      cases a[i] <;> cases (blockSizeWord p - 1#64)[i] <;> rfl
    have h2 := BitVec.toNat_add_of_and_eq_zero h0
    rw [BitVec.add_eq_or_of_and_eq_zero _ _ h0, h1] at h2
    omega
  rw [offsetOf_toNat hp] at hsum
  omega

/-- The base of an address's block, by the address's own tag and set (21_cache.md R96). -/
theorem blockBaseOf_eq (hp : p.wf) (a : Word) :
    (blockBaseOf p a).toNat =
      (tagOf p a).toNat * 2 ^ (p.blockBits + p.setBits) + (setIndexOf p a).toNat * 2 ^ p.blockBits := by
  have h1 := blockBaseOf_toNat hp a
  have h2 := split_toNat hp a
  have h3 := offsetOf_toNat hp a
  have h4 := Nat.mod_le a.toNat (2 ^ p.blockBits)
  omega

/-- An aligned access lies inside one block (21_cache.md R92). -/
theorem aligned8_toNat {a : Word} : aligned8 a = true ↔ a.toNat % 8 = 0 := by
  rw [aligned8, beq_iff_eq, ← BitVec.toNat_inj]
  simp [BitVec.extractLsb, Nat.shiftRight_zero]

theorem aligned4_toNat {a : Word} : aligned4 a = true ↔ a.toNat % 4 = 0 := by
  rw [aligned4, beq_iff_eq, ← BitVec.toNat_inj]
  simp [BitVec.extractLsb, Nat.shiftRight_zero]

/-- The offset of an aligned access is a multiple of 8, and its eight bytes are inside the block (21_cache.md
R92). -/
theorem offset_room (hp : p.wf) {a : Word} (ha : aligned8 a = true) :
    (offsetOf p a).toNat % 8 = 0 ∧ (offsetOf p a).toNat + 8 ≤ p.blockSize := by
  have h8 : 8 ∣ 2 ^ p.blockBits := (Nat.pow_dvd_pow 2 hp.1 : 2 ^ 3 ∣ 2 ^ p.blockBits)
  have hm := offsetOf_toNat hp a
  have hlt := offsetOf_lt hp a
  have h0 : (offsetOf p a).toNat % 8 = 0 := by
    rw [hm, Nat.mod_mod_of_dvd _ h8]
    exact aligned8_toNat.mp ha
  obtain ⟨q, hq⟩ := h8
  unfold Params.blockSize
  constructor
  · exact h0
  · omega

/-- The eight addresses of an aligned access share its block: offset `+ k`, same set, same tag. -/
theorem parts_add (hp : p.wf) {a : Word} (ha : aligned8 a = true) {k : Nat} (hk : k < 8) :
    (offsetOf p (a + BitVec.ofNat 64 k)).toNat = (offsetOf p a).toNat + k ∧
      setIndexOf p (a + BitVec.ofNat 64 k) = setIndexOf p a ∧
      tagOf p (a + BitVec.ofNat 64 k) = tagOf p a := by
  have hroom := offset_room hp ha
  have hlt := a.isLt
  have h8 := aligned8_toNat.mp ha
  unfold Params.blockSize at hroom
  have hadd : (a + BitVec.ofNat 64 k).toNat = a.toNat + k := by
    simp only [BitVec.toNat_add, BitVec.toNat_ofNat]
    omega
  have hB := Nat.two_pow_pos p.blockBits
  have ho := offsetOf_toNat hp a
  have hdm := Nat.div_add_mod a.toNat (2 ^ p.blockBits)
  have hsum : a.toNat + k = (a.toNat % 2 ^ p.blockBits + k) + 2 ^ p.blockBits * (a.toNat / 2 ^ p.blockBits) := by omega
  have hin : a.toNat % 2 ^ p.blockBits + k < 2 ^ p.blockBits := by omega
  have hdiv : (a.toNat + k) / 2 ^ p.blockBits = a.toNat / 2 ^ p.blockBits := by
    rw [hsum, Nat.add_mul_div_left _ _ hB, Nat.div_eq_of_lt hin, zero_add]
  refine ⟨?_, BitVec.eq_of_toNat_eq ?_, BitVec.eq_of_toNat_eq ?_⟩
  · rw [offsetOf_toNat hp, hadd, hsum, Nat.add_mul_mod_self_left, Nat.mod_eq_of_lt hin, ho]
  · rw [setIndexOf_toNat hp, setIndexOf_toNat hp, hadd, hdiv]
  · rw [tagOf_toNat, tagOf_toNat, hadd, pow_add, ← Nat.div_div_eq_div_mul, ← Nat.div_div_eq_div_mul, hdiv]

end Sys2Proof.Machine
end

