-- ==== Sys2Proof/Laws/Memory.lean ====
section
/-! SUPPORT. The backing store: read after write, the canonical form, and the multi-byte accesses (20_memory.md
R50, R52). -/

namespace Sys2Proof.Machine

namespace Memory

theorem read_erase (m : Memory) (a b : Nat) : (m.erase a).read b = if b = a then background else m.read b := by
  induction m with
  | nil => simp [erase, read]
  | cons c m ih =>
    by_cases hc : c.1 = a
    · by_cases hb : b = a
      · simpa [erase, hc, hb, read] using ih
      · have : c.1 ≠ b := fun e => hb (e.symm.trans hc)
        have hab : a ≠ b := fun e => hb e.symm
        simpa [erase, hc, hb, read, this, hab] using ih
    · by_cases hb : b = a
      · simp only [erase, bne_iff_ne, ne_eq, hc, not_false_eq_true, List.filter_cons_of_pos, read, if_false, hb]
          at ih ⊢
        simpa [hc] using ih
      · simp only [erase, bne_iff_ne, ne_eq, hc, not_false_eq_true, List.filter_cons_of_pos, read, hb, if_false]
          at ih ⊢
        rw [ih]

theorem read_insert (m : Memory) (a b : Nat) (v : Byte) (h : ∀ c ∈ m, c.1 ≠ a) :
    (m.insert a v).read b = if b = a then v else m.read b := by
  induction m with
  | nil =>
    have : a = b ↔ b = a := eq_comm
    by_cases hb : b = a <;> simp [insert, read, hb, this]
  | cons c m ih =>
    have hc : c.1 ≠ a := h c (by simp)
    have ih := ih (fun d hd => h d (by simp [hd]))
    unfold insert
    split
    · by_cases hb : b = a
      · simp [read, hb]
      · have : a ≠ b := fun e => hb e.symm
        simp [read, hb, this]
    · by_cases hb : b = a
      · subst hb
        simp [read, hc, ih]
      · simp [read, hb, ih]

theorem ne_of_mem_erase {m : Memory} {a : Nat} {c : Host.Cell} (h : c ∈ m.erase a) : c.1 ≠ a := by
  simpa [erase] using (List.mem_filter.mp h).2

/-- Read after write, for every memory (20_memory.md R50, R52). -/
theorem read_write (m : Memory) (a b : Nat) (v : Byte) :
    (m.write a v).read b = if b = a then v else m.read b := by
  unfold write
  split
  · next hv => rw [read_erase, hv]
  · rw [read_insert _ _ _ _ (fun c hc => ne_of_mem_erase hc), read_erase]
    by_cases hb : b = a <;> simp [hb]

theorem mem_insert {m : Memory} {a : Nat} {v : Byte} {c : Host.Cell} :
    c ∈ m.insert a v ↔ c = (a, v) ∨ c ∈ m := by
  induction m with
  | nil => simp [insert]
  | cons d m ih =>
    unfold insert
    split
    · simp
    · simp [ih, or_left_comm]

theorem pairwise_insert {m : Memory} {a : Nat} {v : Byte} (h : m.Pairwise (fun c d => c.1 < d.1))
    (ha : ∀ c ∈ m, c.1 ≠ a) : (m.insert a v).Pairwise (fun c d => c.1 < d.1) := by
  induction m with
  | nil => simp [insert]
  | cons d m ih =>
    have hd := ha d (by simp)
    rw [List.pairwise_cons] at h
    unfold insert
    split
    · next hlt =>
      refine List.pairwise_cons.mpr ⟨fun c hc => ?_, List.pairwise_cons.mpr h⟩
      rcases List.mem_cons.mp hc with rfl | hc
      · exact hlt
      · exact lt_trans hlt (h.1 c hc)
    · refine List.pairwise_cons.mpr ⟨fun c hc => ?_, ih h.2 (fun c hc => ha c (by simp [hc]))⟩
      rcases mem_insert.mp hc with rfl | hc
      · simp only
        omega
      · exact h.1 c hc

/-- A byte write keeps the canonical form. -/
theorem wf_write {m : Memory} (h : m.wf) {a : Nat} (ha : a < 2 ^ 64) (v : Byte) : (m.write a v).wf := by
  have he : (m.erase a).wf :=
    ⟨h.1.sublist List.filter_sublist, fun c hc => h.2 c (List.mem_of_mem_filter hc)⟩
  unfold write
  split
  · exact he
  · next hv =>
    refine ⟨pairwise_insert he.1 (fun c hc => ne_of_mem_erase hc), fun c hc => ?_⟩
    rcases mem_insert.mp hc with rfl | hc
    · exact ⟨hv, ha⟩
    · exact he.2 c hc

/-- Canonical memories that read alike are the same list. -/
theorem ext_of_wf {m m' : Memory} (h : m.wf) (h' : m'.wf) (hr : ∀ a, m.read a = m'.read a) : m = m' := by
  have low : ∀ (c : Host.Cell) (m : Memory), (∀ d ∈ m, c.1 < d.1) → m.read c.1 = background := by
    intro c m hm
    induction m with
    | nil => rfl
    | cons d m ih =>
      have hd := hm d (by simp)
      have : d.1 ≠ c.1 := by omega
      simp only [read, this, if_false]
      exact ih (fun e he => hm e (by simp [he]))
  induction m generalizing m' with
  | nil =>
    cases m' with
    | nil => rfl
    | cons c m' =>
      have := hr c.1
      simp only [read, if_true] at this
      exact absurd this.symm (h'.2 c (by simp)).1
  | cons c m ih =>
    have hs := List.pairwise_cons.mp h.1
    have hc := (h.2 c (by simp)).1
    cases m' with
    | nil =>
      have := hr c.1
      simp only [read, if_true] at this
      exact absurd this hc
    | cons c' m' =>
      have hs' := List.pairwise_cons.mp h'.1
      have hc' := (h'.2 c' (by simp)).1
      have key : c.1 = c'.1 := by
        rcases lt_trichotomy c.1 c'.1 with hlt | heq | hgt
        · have e := hr c.1
          have : read (c' :: m') c.1 = background :=
            low c (c' :: m') (fun d hd => by
              rcases List.mem_cons.mp hd with rfl | hd
              · exact hlt
              · exact lt_trans hlt (hs'.1 d hd))
          rw [this] at e
          simp only [read, if_true] at e
          exact absurd e hc
        · exact heq
        · have e := hr c'.1
          have : read (c :: m) c'.1 = background :=
            low c' (c :: m) (fun d hd => by
              rcases List.mem_cons.mp hd with rfl | hd
              · exact hgt
              · exact lt_trans hgt (hs.1 d hd))
          rw [this] at e
          simp only [read, if_true] at e
          exact absurd e.symm hc'
      have kv : c.2 = c'.2 := by
        have e := hr c.1
        simpa [read, key] using e
      have tl : m = m' := by
        refine ih ⟨hs.2, fun d hd => h.2 d (by simp [hd])⟩ ⟨hs'.2, fun d hd => h'.2 d (by simp [hd])⟩ (fun a => ?_)
        by_cases ha : a = c.1
        · subst ha
          rw [low c m hs.1, key, low c' m' hs'.1]
        · have e := hr a
          have h1 : c.1 ≠ a := fun e => ha e.symm
          have h2 : c'.1 ≠ a := fun e => ha (e.symm.trans key.symm)
          simpa [read, h1, h2] using e
      rw [tl, Prod.ext key kv]

end Memory

@[simp] theorem readBytes_length (m : Memory) (a : Word) (n : Nat) : (readBytes m a n).length = n := by
  induction n generalizing a with
  | zero => rfl
  | succ n ih => simp [readBytes, ih]

/-- The bytes of a multi-byte read, the address of byte `k` being `a + k` modulo `2^64`. -/
theorem readBytes_getElem? (m : Memory) (a : Word) (n k : Nat) (h : k < n) :
    (readBytes m a n)[k]? = some (m.read (a + BitVec.ofNat 64 k).toNat) := by
  induction n generalizing a k with
  | zero => omega
  | succ n ih =>
    cases k with
    | zero => simp [readBytes]
    | succ k =>
      have e : a + 1#64 + BitVec.ofNat 64 k = a + BitVec.ofNat 64 (k + 1) := by
        apply BitVec.eq_of_toNat_eq
        simp only [BitVec.toNat_add, BitVec.toNat_ofNat]
        omega
      simp [readBytes, ih (a + 1#64) k (by omega), e]

theorem writeBytes_wf {m : Memory} (h : m.wf) (a : Word) (bs : List Byte) : (writeBytes m a bs).wf := by
  induction bs generalizing m a with
  | nil => exact h
  | cons b bs ih => exact ih (Memory.wf_write h a.isLt b) (a + 1#64)

/-- What a multi-byte write leaves at every address. -/
theorem writeBytes_read (m : Memory) (a b : Word) (bs : List Byte) (h : bs.length ≤ 2 ^ 64) :
    (writeBytes m a bs).read b.toNat =
      if (b - a).toNat < bs.length then (bs[(b - a).toNat]?).getD 0#8 else m.read b.toNat := by
  induction bs generalizing m a with
  | nil => simp [writeBytes]
  | cons v bs ih =>
    simp only [List.length_cons] at h ⊢
    rw [writeBytes, ih _ _ (by omega), Memory.read_write]
    have hb := b.isLt
    have ha := a.isLt
    by_cases e : b = a
    · subst e
      have : (b - (b + 1#64)).toNat = 2 ^ 64 - 1 := by
        simp only [BitVec.toNat_sub, BitVec.toNat_add, BitVec.toNat_ofNat]
        omega
      rw [this, if_neg (by omega)]
      simp
    · have hne : b.toNat ≠ a.toNat := fun h => e (BitVec.eq_of_toNat_eq h)
      have hs : (b - a).toNat = (b - (a + 1#64)).toNat + 1 := by
        simp only [BitVec.toNat_sub, BitVec.toNat_add, BitVec.toNat_ofNat]
        omega
      rw [hs, if_neg hne]
      by_cases hl : (b - (a + 1#64)).toNat < bs.length
      · rw [if_pos hl, if_pos (by omega), List.getElem?_cons_succ]
      · rw [if_neg hl, if_neg (by omega)]

end Sys2Proof.Machine
end

