-- ==== Sys2Proof/Laws/Bytes.lean ====
section
/-! SUPPORT. Little-endian bytes and values (20_memory.md R53). -/

namespace Sys2Proof

@[simp] theorem leBytes_length (n v : Nat) : (leBytes n v).length = n := by
  induction n generalizing v with
  | zero => rfl
  | succ n ih => simp [leBytes, ih]

/-- Byte `k` of a value is its bits `8k+7` down to `8k`. -/
theorem leBytes_getElem? (n v k : Nat) (h : k < n) :
    (leBytes n v)[k]? = some (BitVec.ofNat 8 (v / 2 ^ (8 * k))) := by
  induction n generalizing v k with
  | zero => omega
  | succ n ih =>
    cases k with
    | zero => simp [leBytes]
    | succ k =>
      have e : v / 256 / 2 ^ (8 * k) = v / 2 ^ (8 * (k + 1)) := by
        rw [Nat.div_div_eq_div_mul, show 8 * (k + 1) = 8 + 8 * k by ring, pow_add,
          show (2 : Nat) ^ 8 = 256 by norm_num]
      simp [leBytes, ih (v / 256) k (by omega), e]

theorem leValue_lt (bs : List Byte) : leValue bs < 256 ^ bs.length := by
  induction bs with
  | nil => simp [leValue]
  | cons b bs ih =>
    have := b.isLt
    simp only [leValue, List.length_cons, pow_succ]
    omega

/-- Taking a value apart into bytes and putting it together again. -/
theorem leValue_leBytes (n v : Nat) : leValue (leBytes n v) = v % 256 ^ n := by
  induction n generalizing v with
  | zero => simp [leBytes, leValue, Nat.mod_one]
  | succ n ih =>
    rw [leBytes, leValue, ih, BitVec.toNat_ofNat, show 256 ^ (n + 1) = 256 * 256 ^ n by ring, Nat.mod_mul]

/-- Putting bytes together and taking the value apart again. -/
theorem leBytes_leValue (bs : List Byte) : leBytes bs.length (leValue bs) = bs := by
  induction bs with
  | nil => rfl
  | cons b bs ih =>
    have hb := b.isLt
    have h1 : (b.toNat + 256 * leValue bs) / 256 = leValue bs := by omega
    have h2 : BitVec.ofNat 8 (b.toNat + 256 * leValue bs) = b := by
      apply BitVec.eq_of_toNat_eq
      rw [BitVec.toNat_ofNat]
      omega
    rw [List.length_cons, leBytes, leValue, h1, h2, ih]

namespace Machine

@[simp] theorem dwordBytes_length (v : Word) : (dwordBytes v).length = 8 := leBytes_length 8 v.toNat

/-- Byte `k` of a 64-bit value is `v[8k+7 : 8k]`. -/
theorem dwordBytes_getElem? (v : Word) (k : Nat) (h : k < 8) :
    (dwordBytes v)[k]? = some (v.extractLsb' (8 * k) 8) := by
  rw [dwordBytes, leBytes_getElem? _ _ _ h]
  congr 1
  apply BitVec.eq_of_toNat_eq
  simp [Nat.shiftRight_eq_div_pow]

/-- Eight bytes stored and put together again are the value. -/
@[simp] theorem dwordOf_dwordBytes (v : Word) : dwordOf (dwordBytes v) = v := by
  apply BitVec.eq_of_toNat_eq
  have := v.isLt
  rw [dwordOf, BitVec.toNat_ofNat, dwordBytes, leValue_leBytes]
  omega

/-- A value put together from eight bytes has those bytes. -/
theorem dwordBytes_dwordOf {bs : List Byte} (h : bs.length = 8) : dwordBytes (dwordOf bs) = bs := by
  have hlt := leValue_lt bs
  rw [h] at hlt
  have e : (dwordOf bs).toNat = leValue bs := by
    rw [dwordOf, BitVec.toNat_ofNat]
    omega
  rw [dwordBytes, e]
  have := leBytes_leValue bs
  rwa [h] at this

/-- A list of bytes is determined by its entries below its length. -/
theorem bytes_ext {n : Nat} {bs cs : List Byte} (hb : bs.length = n) (hc : cs.length = n)
    (h : ∀ k, k < n → bs[k]? = cs[k]?) : bs = cs := by
  apply List.ext_getElem?
  intro k
  by_cases hk : k < n
  · exact h k hk
  · rw [List.getElem?_eq_none (by omega), List.getElem?_eq_none (by omega)]

@[simp] theorem setBytes_length (d : List Byte) (o : Nat) (bs : List Byte) : (setBytes d o bs).length = d.length := by
  induction bs generalizing d o with
  | nil => rfl
  | cons b bs ih => simp [setBytes, ih]

/-- What bytes stored into a block's array leave at every place. -/
theorem setBytes_getElem? (d : List Byte) (o : Nat) (bs : List Byte) (k : Nat) (hk : k < d.length) :
    (setBytes d o bs)[k]? = if o ≤ k ∧ k < o + bs.length then bs[k - o]? else d[k]? := by
  induction bs generalizing d o with
  | nil =>
    rw [setBytes, if_neg (by simp only [List.length_nil]; omega)]
  | cons b bs ih =>
    rw [setBytes, ih _ _ (by simpa using hk), List.getElem?_set, List.length_cons]
    by_cases h1 : o = k
    · subst h1
      rw [if_neg (by omega), if_pos (by omega)]
      simp [hk]
    · by_cases h2 : o ≤ k ∧ k < o + (bs.length + 1)
      · rw [if_pos (by omega), if_pos h2, show k - o = (k - (o + 1)) + 1 by omega, List.getElem?_cons_succ]
      · rw [if_neg (by omega), if_neg h2, if_neg h1]

end Machine

end Sys2Proof
end

