-- ==== Sys2Proof/Laws/Registers.lean ====
section
/-! SUPPORT. The two ports of the register file: what a read returns after a write (10_state.md R22, R23). -/

namespace Sys2Proof.Machine

@[simp] theorem regRead_zero (r : Registers) : regRead r 0#5 = 0#64 := rfl

@[simp] theorem regWrite_zero (r : Registers) (v : Word) : regWrite r 0#5 v = r := rfl

/-- Everything a register write does to what the read ports return. -/
theorem regRead_regWrite (r : Registers) (i j : RegIdx) (v : Word) :
    regRead (regWrite r i v) j = if j = i ∧ j ≠ 0#5 then v else regRead r j := by
  unfold regRead regWrite
  by_cases hj : j = 0#5
  · simp [hj]
  · by_cases hi : i = 0#5
    · subst hi
      simp [hj]
    · have hi' : i.toNat ≠ 0 := fun h => hi (BitVec.eq_of_toNat_eq (by simpa using h))
      have hj' : j.toNat ≠ 0 := fun h => hj (BitVec.eq_of_toNat_eq (by simpa using h))
      simp only [hi, hj, if_false, ne_eq, not_false_eq_true, and_true]
      rw [Vector.getElem_set]
      by_cases h : j = i
      · simp [h]
      · have : i.toNat - 1 ≠ j.toNat - 1 := fun e => h (BitVec.eq_of_toNat_eq (by omega))
        simp [h, this]

@[simp] theorem State.x_zero (s : State) : s.x 0#5 = 0#64 := rfl

/-- `regRead_regWrite` for a state. -/
theorem State.x_setX (s : State) (i : RegIdx) (v : Word) (j : RegIdx) :
    (s.setX i v).x j = if j = i ∧ j ≠ 0#5 then v else s.x j := regRead_regWrite s.regs i j v

@[simp] theorem State.setX_zero (s : State) (v : Word) : s.setX 0#5 v = s := rfl

/-- The register file is determined by what the read ports return. -/
theorem regs_ext {r r' : Registers} (h : ∀ i, regRead r i = regRead r' i) : r = r' := by
  apply Vector.ext
  intro k hk
  have := h (BitVec.ofNat 5 (k + 1))
  have hk' : (BitVec.ofNat 5 (k + 1)).toNat = k + 1 := by
    simp only [BitVec.toNat_ofNat]
    omega
  have hne : BitVec.ofNat 5 (k + 1) ≠ 0#5 := fun e => by
    rw [e] at hk'
    simp at hk'
  simpa [regRead, hne, hk'] using this

end Sys2Proof.Machine
end

