-- ==== Sys2Proof/Laws/Cache.lean ====
section
/-! SUPPORT. The cache engine: one lemma for each operation that says everything it does, in the terms of
`State.setAt`, `State.backing` and `State.view` (21_cache.md R86 to R98). -/

namespace Sys2Proof.Machine

/-! Sets. -/

theorem State.setAt_putSet (s : State) (i j : Word) (c : CacheSet) (hi : i.toNat < s.cache.length) :
    (s.putSet i c).setAt j = if j = i then c else s.setAt j := by
  unfold State.setAt
  rw [State.putSet_cache, State.putSet_params, List.getElem?_set]
  by_cases h : j = i
  · simp [h, hi]
  · have : i.toNat ≠ j.toNat := fun e => h (BitVec.eq_of_toNat_eq e.symm)
    simp [h, this]

theorem State.setAt_mem (s : State) (i : Word) (hi : i.toNat < s.cache.length) : s.setAt i ∈ s.cache := by
  unfold State.setAt
  rw [List.getElem?_eq_getElem hi]
  exact List.getElem_mem hi

theorem setIndex_lt_length {s : State} (hp : s.params.wf) (hs : CacheShape s) (a : Word) :
    (setIndexOf s.params a).toNat < s.cache.length := by
  rw [hs.sets]
  exact setIndexOf_lt hp a

/-- The set of `b` after the set of `a` is replaced. -/
theorem setFor_putSet {s : State} (hp : s.params.wf) (hs : CacheShape s) (a b : Word) (c : CacheSet) :
    (s.putSet (setIndexOf s.params a) c).setFor b =
      if setIndexOf s.params b = setIndexOf s.params a then c else s.setFor b := by
  unfold State.setFor
  rw [State.setAt_putSet _ _ _ _ (setIndex_lt_length hp hs a), State.putSet_params]

theorem shape_putSet {s : State} (hs : CacheShape s) (i : Word) {c : CacheSet}
    (hl : c.data.length = s.params.blockSize)
    (ht : c.tag.toNat < 2 ^ (64 - s.params.blockBits - s.params.setBits)) : CacheShape (s.putSet i c) := by
  refine ⟨?_, fun d hd => ?_, fun d hd => ?_⟩
  · simpa using hs.sets
  · rcases List.mem_or_eq_of_mem_set hd with h | rfl
    · exact hs.block d h
    · exact hl
  · rcases List.mem_or_eq_of_mem_set hd with h | rfl
    · exact hs.tag d h
    · exact ht

theorem setFor_data_length {s : State} (hp : s.params.wf) (hs : CacheShape s) (a : Word) :
    (s.setFor a).data.length = s.params.blockSize :=
  hs.block _ (s.setAt_mem _ (setIndex_lt_length hp hs a))

theorem setFor_tag_lt {s : State} (hp : s.params.wf) (hs : CacheShape s) (a : Word) :
    (s.setFor a).tag.toNat < 2 ^ (64 - s.params.blockBits - s.params.setBits) :=
  hs.tag _ (s.setAt_mem _ (setIndex_lt_length hp hs a))

/-! Clean means equal to memory, by address. -/

/-- `CleanMatchesBacking` said of the address a byte stands for. -/
theorem clean_iff {s : State} (hp : s.params.wf) (hs : CacheShape s) :
    CleanMatchesBacking s ↔ ∀ b, (s.setFor b).state = .clean → (s.setFor b).tag = tagOf s.params b →
      (s.setFor b).data[(offsetOf s.params b).toNat]? = some (s.backing b) := by
  constructor
  · intro h b hc ht
    have := h (setIndexOf s.params b) (setIndexOf_lt hp b) hc _ (offsetOf_lt hp b)
    rw [BitVec.ofNat_toNat, BitVec.setWidth_eq] at this
    have hb : reconstruct s.params (s.setAt (setIndexOf s.params b)).tag (setIndexOf s.params b) (offsetOf s.params b) = b := by
      have hp' := parts_of_reconstruct hp (setFor_tag_lt hp hs b) (setIndexOf_lt hp b) (offsetOf_lt hp b)
      exact eq_of_parts hp (hp'.1.trans ht) hp'.2.1 hp'.2.2
    rw [hb] at this
    exact this
  · intro h i hi hc k hk
    have hk64 : k < 2 ^ 64 :=
      lt_trans hk (Nat.pow_lt_pow_right (by omega) (by have := hp.2; omega))
    have hkn : (BitVec.ofNat 64 k).toNat = k := by
      rw [BitVec.toNat_ofNat, Nat.mod_eq_of_lt hk64]
    have ht : (s.setAt i).tag.toNat < 2 ^ (64 - s.params.blockBits - s.params.setBits) :=
      hs.tag _ (s.setAt_mem i (by rw [hs.sets]; exact hi))
    have hp' := parts_of_reconstruct hp ht hi (show (BitVec.ofNat 64 k).toNat < 2 ^ s.params.blockBits by rw [hkn]; exact hk)
    have hset : s.setFor (reconstruct s.params (s.setAt i).tag i (BitVec.ofNat 64 k)) = s.setAt i := by
      unfold State.setFor
      rw [hp'.2.1]
    have := h (reconstruct s.params (s.setAt i).tag i (BitVec.ofNat 64 k)) (by rw [hset]; exact hc)
      (by rw [hset, hp'.1])
    rwa [hset, hp'.2.2, hkn] at this

/-! View. -/

theorem State.cached_iff (s : State) (a : Word) :
    s.cached a = true ↔ s.params.cacheEnable = true ∧ (s.setFor a).state ≠ .invalid ∧ (s.setFor a).tag = tagOf s.params a := by
  simp [State.cached, and_assoc]

theorem State.view_of_cached {s : State} {a : Word} (h : s.cached a = true) :
    s.view a = ((s.setFor a).data[(offsetOf s.params a).toNat]?).getD 0x00#8 := by
  simp [State.view, h]

theorem State.view_of_not_cached {s : State} {a : Word} (h : ¬ s.cached a = true) : s.view a = s.backing a := by
  simp [State.view, h]

theorem State.view_disabled {s : State} (h : s.params.cacheEnable = false) (a : Word) : s.view a = s.backing a :=
  State.view_of_not_cached (by simp [State.cached, h])

/-- `view` depends on the set of the address and the backing byte alone. -/
theorem State.view_congr {s t : State} {b : Word} (hp : t.params = s.params) (hset : t.setFor b = s.setFor b)
    (hb : s.cached b = true ∨ t.backing b = s.backing b) : t.view b = s.view b := by
  have hc : t.cached b = s.cached b := by
    unfold State.cached
    rw [hp, hset]
  unfold State.view
  rw [hc, hp, hset]
  rcases hb with h | h
  · simp [h]
  · rw [h]

/-- Where a set holds no newer data, loads see the backing store. -/
theorem view_eq_backing_of_not_dirty {s : State} (h : MachineInv s) {b : Word} (hd : (s.setFor b).state ≠ .dirty) :
    s.view b = s.backing b := by
  by_cases hc : s.cached b = true
  · have hc' := (s.cached_iff b).mp hc
    have hcl : (s.setFor b).state = .clean := by
      cases e : (s.setFor b).state
      · exact absurd e hc'.2.1
      · rfl
      · exact absurd e hd
    rw [State.view_of_cached hc, (clean_iff h.params h.shape).mp h.clean b hcl hc'.2.2]
    rfl
  · exact State.view_of_not_cached hc

/-! Fill. -/

theorem fill_setFor {s : State} (hp : s.params.wf) (hs : CacheShape s) (a b : Word) :
    (fill s a).setFor b = if setIndexOf s.params b = setIndexOf s.params a then
      { state := .clean, tag := tagOf s.params a,
        data := readBytes s.mem (blockBaseOf s.params a) s.params.blockSize } else s.setFor b :=
  setFor_putSet hp hs a b _

@[simp] theorem fill_backing (s : State) (a b : Word) : (fill s a).backing b = s.backing b := rfl

theorem fill_byte {s : State} (hp : s.params.wf) {a b : Word} (hi : setIndexOf s.params b = setIndexOf s.params a)
    (ht : tagOf s.params b = tagOf s.params a) :
    (readBytes s.mem (blockBaseOf s.params a) s.params.blockSize)[(offsetOf s.params b).toNat]? = some (s.backing b) := by
  rw [readBytes_getElem? _ _ s.params.blockSize _ (offsetOf_lt hp b)]
  have e : blockBaseOf s.params a + BitVec.ofNat 64 (offsetOf s.params b).toNat = b := by
    apply BitVec.eq_of_toNat_eq
    have h1 := blockBaseOf_eq hp a
    have h2 := split_toNat hp b
    have h3 := b.isLt
    rw [hi, ht] at h2
    rw [BitVec.ofNat_toNat, BitVec.setWidth_eq, BitVec.toNat_add, h1]
    omega
  rw [e]
  rfl

/-- A fill keeps the invariant. -/
theorem fill_inv {s : State} (h : MachineInv s) (he : s.params.cacheEnable = true) (a : Word) : MachineInv (fill s a) := by
  have hs : CacheShape (fill s a) := shape_putSet h.shape _ (by simp) (tagOf_lt h.params a)
  refine ⟨h.params, h.mem, hs, (clean_iff (s := fill s a) h.params hs).mpr fun b hc ht => ?_,
    fun hf => absurd (hf.symm.trans he) (by simp)⟩
  rw [fill_setFor h.params h.shape] at hc ht ⊢
  by_cases hi : setIndexOf s.params b = setIndexOf s.params a
  · simp only [hi, if_true, fill_params] at ht ⊢
    exact fill_byte h.params hi ht.symm
  · simp only [hi, if_false] at hc ht ⊢
    exact (clean_iff h.params h.shape).mp h.clean b hc ht

/-- A fill over a set whose bytes are all in the backing store changes nothing a load sees. -/
theorem fill_view {s : State} (h : MachineInv s) {a : Word}
    (hd : ∀ b, setIndexOf s.params b = setIndexOf s.params a → s.view b = s.backing b) (b : Word) :
    (fill s a).view b = s.view b := by
  by_cases hi : setIndexOf s.params b = setIndexOf s.params a
  · rw [hd b hi]
    by_cases hc : (fill s a).cached b = true
    · have hc' := ((fill s a).cached_iff b).mp hc
      rw [State.view_of_cached hc]
      rw [fill_setFor h.params h.shape, if_pos hi] at hc' ⊢
      simp only [fill_params]
      rw [fill_byte h.params hi hc'.2.2.symm]
      rfl
    · exact State.view_of_not_cached hc
  · refine State.view_congr rfl ?_ (Or.inr rfl)
    rw [fill_setFor h.params h.shape, if_neg hi]

/-! Writeback. -/

/-- Whether `b` lies in the block the set of `a` holds. -/
def inBlockOf (s : State) (a b : Word) : Prop :=
  setIndexOf s.params b = setIndexOf s.params a ∧ tagOf s.params b = (s.setFor a).tag

theorem writeback_backing {s : State} (hp : s.params.wf) (hs : CacheShape s) (a b : Word) :
    (inBlockOf s a b → some ((writeback s a).backing b) = (s.setFor a).data[(offsetOf s.params b).toNat]?) ∧
      (¬ inBlockOf s a b → (writeback s a).backing b = s.backing b) := by
  have hlen := setFor_data_length hp hs a
  have hB := hp.2
  have hlt : s.params.blockSize ≤ 2 ^ 64 := Nat.pow_le_pow_right (by omega) (by omega)
  have hrd := writeBytes_read s.mem (reconstruct s.params (s.setFor a).tag (setIndexOf s.params a) 0#64) b
    (s.setFor a).data (by omega)
  have hbk : (writeback s a).backing b = (writeBytes s.mem
      (reconstruct s.params (s.setFor a).tag (setIndexOf s.params a) 0#64) (s.setFor a).data).read b.toNat := rfl
  have hz : (0#64 : Word).toNat < 2 ^ s.params.blockBits := by simp
  have hr := reconstruct_toNat hp (setFor_tag_lt hp hs a) (setIndexOf_lt hp a) hz
  have hparts := parts_of_reconstruct hp (setFor_tag_lt hp hs a) (setIndexOf_lt hp a) hz
  have hob := offsetOf_lt hp b
  have hsb := split_toNat hp b
  have hbl := b.isLt
  rw [BitVec.toNat_ofNat, Nat.zero_mod, Nat.add_zero] at hr
  generalize reconstruct s.params (s.setFor a).tag (setIndexOf s.params a) 0#64 = base at *
  have hbase := base.isLt
  constructor
  · rintro ⟨hi, ht⟩
    have e : (b - base).toNat = (offsetOf s.params b).toNat := by
      rw [hi, ht] at hsb
      rw [BitVec.toNat_sub]
      omega
    have hin : (offsetOf s.params b).toNat < (s.setFor a).data.length := by
      rw [hlen]
      exact hob
    rw [e, if_pos hin, List.getElem?_eq_getElem hin] at hrd
    rw [List.getElem?_eq_getElem hin, hbk, hrd]
    rfl
  · intro hn
    have hout : ¬ (b - base).toNat < (s.setFor a).data.length := by
      intro hlt'
      apply hn
      rw [hlen] at hlt'
      have hd : b.toNat = base.toNat + (b - base).toNat := by
        have hfit : base.toNat + s.params.blockSize ≤ 2 ^ 64 := by
          have h1 := hparts.2.2
          have hbd : base.toNat % 2 ^ s.params.blockBits = 0 := by
            rw [← offsetOf_toNat hp, h1]
            rfl
          have hdvd := blockSize_dvd hp
          have hdm := Nat.div_add_mod base.toNat (2 ^ s.params.blockBits)
          rw [hbd, Nat.add_zero] at hdm
          have hq : base.toNat / 2 ^ s.params.blockBits < 2 ^ (64 - s.params.blockBits) := by
            rw [Nat.div_lt_iff_lt_mul (Nat.two_pow_pos _), mul_comm, hdvd]
            exact hbase
          calc base.toNat + s.params.blockSize
              = 2 ^ s.params.blockBits * (base.toNat / 2 ^ s.params.blockBits) + 2 ^ s.params.blockBits := by
                rw [hdm]; rfl
            _ = 2 ^ s.params.blockBits * (base.toNat / 2 ^ s.params.blockBits + 1) := by ring
            _ ≤ 2 ^ s.params.blockBits * 2 ^ (64 - s.params.blockBits) := Nat.mul_le_mul_left _ hq
            _ = 2 ^ 64 := hdvd
        rw [BitVec.toNat_sub] at hlt' ⊢
        omega
      have hk : (BitVec.ofNat 64 (b - base).toNat).toNat < 2 ^ s.params.blockBits := by
        rw [BitVec.ofNat_toNat, BitVec.setWidth_eq]
        exact hlt'
      have hr2 := reconstruct_toNat hp (setFor_tag_lt hp hs a) (setIndexOf_lt hp a) hk
      have hp2 := parts_of_reconstruct hp (setFor_tag_lt hp hs a) (setIndexOf_lt hp a) hk
      have heq : reconstruct s.params (s.setFor a).tag (setIndexOf s.params a) (BitVec.ofNat 64 (b - base).toNat) = b := by
        apply BitVec.eq_of_toNat_eq
        rw [hr2, BitVec.ofNat_toNat, BitVec.setWidth_eq]
        omega
      rw [heq] at hp2
      exact ⟨hp2.2.1, hp2.1⟩
    rw [if_neg hout] at hrd
    rw [hbk, hrd]
    rfl

@[simp] theorem writeback_setFor (s : State) (a b : Word) : (writeback s a).setFor b = s.setFor b := rfl

@[simp] theorem writeback_setAt (s : State) (a i : Word) : (writeback s a).setAt i = s.setAt i := rfl

theorem writeback_inv {s : State} (h : MachineInv s) (he : s.params.cacheEnable = true) {a : Word} (hd : (s.setFor a).state = .dirty) : MachineInv (writeback s a) := by
  have hs : CacheShape (writeback s a) := ⟨h.shape.sets, h.shape.block, h.shape.tag⟩
  refine ⟨h.params, writeBytes_wf h.mem _ _, hs, (clean_iff (s := writeback s a) h.params hs).mpr fun b hc ht => ?_,
    fun hf => absurd (hf.symm.trans he) (by simp)⟩
  have hn : ¬ inBlockOf s a b := by
    rintro ⟨hi, -⟩
    have : s.setFor b = s.setFor a := by
      unfold State.setFor
      rw [hi]
    rw [writeback_setFor, this, hd] at hc
    cases hc
  rw [(writeback_backing h.params h.shape a b).2 hn]
  exact (clean_iff h.params h.shape).mp h.clean b hc ht

/-- A writeback of a set that holds data changes nothing a load sees. -/
theorem writeback_view {s : State} (h : MachineInv s) (he : s.params.cacheEnable = true) {a : Word}
    (hd : (s.setFor a).state = .dirty) (b : Word) : (writeback s a).view b = s.view b := by
  refine State.view_congr rfl rfl ?_
  by_cases hb : inBlockOf s a b
  · left
    have hset : s.setFor b = s.setFor a := by
      unfold State.setFor
      rw [hb.1]
    exact (s.cached_iff b).mpr ⟨he, by simp [hset, hd], by rw [hset, hb.2]⟩
  · exact Or.inr ((writeback_backing h.params h.shape a b).2 hb)

/-- After a writeback the backing store holds what loads saw in the block. -/
theorem writeback_backing_view {s : State} (h : MachineInv s) (he : s.params.cacheEnable = true) {a b : Word}
    (hd : (s.setFor a).state = .dirty) (hb : inBlockOf s a b) : (writeback s a).backing b = s.view b := by
  have hset : s.setFor b = s.setFor a := by
    unfold State.setFor
    rw [hb.1]
  have hc : s.cached b = true := (s.cached_iff b).mpr ⟨he, by simp [hset, hd], by rw [hset, hb.2]⟩
  rw [State.view_of_cached hc, hset, ← (writeback_backing h.params h.shape a b).1 hb]
  rfl

theorem evictedByte_iff {s : State} (he : s.params.cacheEnable = true) (a b : Word) :
    s.evictedByte a b = true ↔
      (s.setFor a).state = .dirty ∧ (s.setFor a).tag ≠ tagOf s.params a ∧ inBlockOf s a b := by
  simp [State.evictedByte, State.evicts, he, inBlockOf, and_assoc]

/-! Lookup. -/

/-- What a lookup is, case by case (21_cache.md R87). -/
theorem lookup_cases (s : State) (a : Word) :
    (lookup s a = s ∧ (s.setFor a).state ≠ .invalid ∧ (s.setFor a).tag = tagOf s.params a) ∨
    (lookup s a = fill s a ∧ (s.setFor a).state ≠ .dirty) ∨
    (lookup s a = fill (writeback s a) a ∧ (s.setFor a).state = .dirty ∧ (s.setFor a).tag ≠ tagOf s.params a) := by
  unfold lookup
  cases e : (s.setFor a).state
  · exact Or.inr (Or.inl ⟨rfl, by simp⟩)
  · by_cases ht : (s.setFor a).tag = tagOf s.params a
    · exact Or.inl ⟨by simp [ht], by simp, ht⟩
    · exact Or.inr (Or.inl ⟨by simp [ht], by simp⟩)
  · by_cases ht : (s.setFor a).tag = tagOf s.params a
    · exact Or.inl ⟨by simp [ht], by simp, ht⟩
    · exact Or.inr (Or.inr ⟨by simp [ht], rfl, ht⟩)

@[simp] theorem lookup_params (s : State) (a : Word) : (lookup s a).params = s.params := by
  rcases lookup_cases s a with ⟨e, -⟩ | ⟨e, -⟩ | ⟨e, -⟩ <;> rw [e] <;> rfl

@[simp] theorem lookup_pc (s : State) (a : Word) : (lookup s a).pc = s.pc := by
  rcases lookup_cases s a with ⟨e, -⟩ | ⟨e, -⟩ | ⟨e, -⟩ <;> rw [e] <;> rfl

@[simp] theorem lookup_regs (s : State) (a : Word) : (lookup s a).regs = s.regs := by
  rcases lookup_cases s a with ⟨e, -⟩ | ⟨e, -⟩ | ⟨e, -⟩ <;> rw [e] <;> rfl

theorem lookup_inv {s : State} (h : MachineInv s) (he : s.params.cacheEnable = true) (a : Word) : MachineInv (lookup s a) := by
  rcases lookup_cases s a with ⟨e, -⟩ | ⟨e, -⟩ | ⟨e, hd, -⟩ <;> rw [e]
  · exact h
  · exact fill_inv h he a
  · exact fill_inv (writeback_inv h he hd) he a

/-- After a lookup the set of `a` holds the block of `a`; in no state but DIRTY if it was. -/
theorem lookup_hit {s : State} (h : MachineInv s) (he : s.params.cacheEnable = true) (a : Word) :
    ((lookup s a).setFor a).state ≠ .invalid ∧ ((lookup s a).setFor a).tag = tagOf s.params a := by
  rcases lookup_cases s a with ⟨e, hv, ht⟩ | ⟨e, -⟩ | ⟨e, hd, -⟩ <;> rw [e]
  · exact ⟨hv, ht⟩
  · rw [fill_setFor h.params h.shape]
    simp
  · rw [fill_setFor (s := writeback s a) h.params (writeback_inv h he hd).shape]
    simp

/-- A lookup touches the addressed set alone (21_cache.md R86). -/
theorem lookup_setAt {s : State} (h : MachineInv s) (he : s.params.cacheEnable = true) (a i : Word) (hi : i ≠ setIndexOf s.params a) :
    (lookup s a).setAt i = s.setAt i := by
  have key : ∀ u : State, u.params = s.params → CacheShape u → (fill u a).setAt i = u.setAt i := by
    intro u hu hs
    have hp : u.params.wf := hu ▸ h.params
    unfold fill
    rw [State.setAt_putSet _ _ _ _ (setIndex_lt_length hp hs a), hu, if_neg hi]
  rcases lookup_cases s a with ⟨e, -⟩ | ⟨e, -⟩ | ⟨e, hd, -⟩ <;> rw [e]
  · exact key s rfl h.shape
  · exact key _ rfl (writeback_inv h he hd).shape

/-- A lookup changes nothing a load sees (21_cache.md R98). -/
theorem lookup_view {s : State} (h : MachineInv s) (he : s.params.cacheEnable = true) (a b : Word) :
    (lookup s a).view b = s.view b := by
  rcases lookup_cases s a with ⟨e, -⟩ | ⟨e, hd⟩ | ⟨e, hd, ht⟩ <;> rw [e]
  · refine fill_view h (fun c hc => ?_) b
    apply view_eq_backing_of_not_dirty h
    have : s.setFor c = s.setFor a := by
      unfold State.setFor
      rw [hc]
    rwa [this]
  · have hw := writeback_inv h he hd
    rw [fill_view hw (fun c hc => ?_) b, writeback_view h he hd]
    rw [writeback_view h he hd]
    have hset : s.setFor c = s.setFor a := by
      unfold State.setFor
      rw [show setIndexOf s.params c = setIndexOf s.params a from hc]
    by_cases hb : inBlockOf s a c
    · exact (writeback_backing_view h he hd hb).symm
    · rw [(writeback_backing h.params h.shape a c).2 hb]
      apply State.view_of_not_cached
      intro hcc
      have := (s.cached_iff c).mp hcc
      rw [hset] at this
      exact hb ⟨hc, this.2.2.symm⟩

/-- What a lookup does to the backing store: the bytes of a DIRTY victim, and no other (21_cache.md R87, R90). -/
theorem lookup_backing {s : State} (h : MachineInv s) (he : s.params.cacheEnable = true) (a b : Word) :
    (lookup s a).backing b = if s.evictedByte a b then s.view b else s.backing b := by
  by_cases hev : s.evictedByte a b = true
  · rw [if_pos hev]
    obtain ⟨hd, ht, hb⟩ := (evictedByte_iff he a b).mp hev
    rcases lookup_cases s a with ⟨-, -, e⟩ | ⟨-, e⟩ | ⟨e, -⟩
    · exact absurd e ht
    · exact absurd hd e
    · rw [e, fill_backing]
      exact writeback_backing_view h he hd hb
  · rw [if_neg hev]
    rcases lookup_cases s a with ⟨e, -⟩ | ⟨e, -⟩ | ⟨e, hd, ht⟩ <;> rw [e]
    · rfl
    · rw [fill_backing]
      exact (writeback_backing h.params h.shape a b).2 fun hb => hev ((evictedByte_iff he a b).mpr ⟨hd, ht, hb⟩)

/-! The eight bytes of an aligned access. -/

theorem inDword_iff {a b : Word} : inDword a b = true ↔ (b - a).toNat < 8 := by
  simp [inDword]

/-- A byte of the dword at `a` is `a + k`. -/
theorem eq_add_of_inDword {a b : Word} (_h : inDword a b = true) : b = a + BitVec.ofNat 64 (b - a).toNat := by
  rw [BitVec.ofNat_toNat, BitVec.setWidth_eq]
  rw [BitVec.add_comm, BitVec.sub_add_cancel]

/-- A set that holds the block of an aligned `a` holds the eight bytes loads see there. -/
theorem dword_of_set {s : State} (h : MachineInv s) (he : s.params.cacheEnable = true) {a : Word} (ha : aligned8 a = true)
    (hv : (s.setFor a).state ≠ .invalid) (ht : (s.setFor a).tag = tagOf s.params a) :
    ((s.setFor a).data.drop (offsetOf s.params a).toNat).take 8 =
      (List.range 8).map fun k => s.view (a + BitVec.ofNat 64 k) := by
  have hroom := offset_room h.params ha
  have hlen := setFor_data_length h.params h.shape a
  apply bytes_ext (n := 8)
  · simp only [List.length_take, List.length_drop, hlen]
    omega
  · simp
  · intro k hk
    have hparts := parts_add h.params ha hk
    have hset : s.setFor (a + BitVec.ofNat 64 k) = s.setFor a := by
      unfold State.setFor
      rw [hparts.2.1]
    have hc : s.cached (a + BitVec.ofNat 64 k) = true :=
      (s.cached_iff _).mpr ⟨he, by rw [hset]; exact hv, by rw [hset, hparts.2.2]; exact ht⟩
    rw [List.getElem?_take_of_lt hk, List.getElem?_drop, List.getElem?_map, List.getElem?_range hk, Option.map_some,
      State.view_of_cached hc, hset, hparts.1]
    rw [List.getElem?_eq_getElem (by omega)]
    rfl

/-! Modify. -/

theorem modifySet_setFor {s : State} (hp : s.params.wf) (hs : CacheShape s) (a v b : Word) :
    (modifySet s a v).setFor b = if setIndexOf s.params b = setIndexOf s.params a then
      { s.setFor a with
        state := .dirty,
        data := setBytes (s.setFor a).data (offsetOf s.params a).toNat (dwordBytes v) } else s.setFor b :=
  setFor_putSet hp hs a b _

@[simp] theorem modifySet_backing (s : State) (a v b : Word) : (modifySet s a v).backing b = s.backing b := rfl

theorem modifySet_inv {s : State} (h : MachineInv s) (he : s.params.cacheEnable = true) (a v : Word) : MachineInv (modifySet s a v) := by
  have hs : CacheShape (modifySet s a v) :=
    shape_putSet h.shape _ (by simp [setFor_data_length h.params h.shape a]) (setFor_tag_lt h.params h.shape a)
  refine ⟨h.params, h.mem, hs, (clean_iff (s := modifySet s a v) h.params hs).mpr fun b hc ht => ?_,
    fun hf => absurd (hf.symm.trans he) (by simp)⟩
  rw [modifySet_setFor h.params h.shape] at hc ht ⊢
  by_cases hi : setIndexOf s.params b = setIndexOf s.params a
  · simp [hi] at hc
  · simp only [hi, if_false] at hc ht ⊢
    exact (clean_iff h.params h.shape).mp h.clean b hc ht

/-- A store into a set that holds its block changes what loads see at its eight bytes and nowhere else. -/
theorem modifySet_view {s : State} (h : MachineInv s) (he : s.params.cacheEnable = true) {a : Word} (ha : aligned8 a = true)
    (hv : (s.setFor a).state ≠ .invalid) (ht : (s.setFor a).tag = tagOf s.params a) (v b : Word) :
    (modifySet s a v).view b = if inDword a b then ((dwordBytes v)[(b - a).toNat]?).getD 0x00#8 else s.view b := by
  have hroom := offset_room h.params ha
  have hlen := setFor_data_length h.params h.shape a
  have hobB := offsetOf_lt h.params b
  by_cases hin : inDword a b = true
  · rw [if_pos hin]
    have hk := inDword_iff.mp hin
    have hparts := parts_add h.params ha hk
    rw [← eq_add_of_inDword hin] at hparts
    have hc : (modifySet s a v).cached b = true := by
      rw [State.cached_iff, modifySet_setFor h.params h.shape, if_pos hparts.2.1]
      exact ⟨he, by simp, by rw [modifySet_params, hparts.2.2]; exact ht⟩
    rw [State.view_of_cached hc, modifySet_setFor h.params h.shape, if_pos hparts.2.1]
    simp only [modifySet_params]
    rw [setBytes_getElem? _ _ _ _ (by rw [hlen]; exact hobB), hparts.1, dwordBytes_length, if_pos (by omega),
      show (offsetOf s.params a).toNat + (b - a).toNat - (offsetOf s.params a).toNat = (b - a).toNat by omega]
  · rw [if_neg hin]
    by_cases hi : setIndexOf s.params b = setIndexOf s.params a
    · have hset : s.setFor b = s.setFor a := by
        unfold State.setFor
        rw [hi]
      by_cases hc : s.cached b = true
      · have hc' := (s.cached_iff b).mp hc
        rw [hset] at hc'
        have hcm : (modifySet s a v).cached b = true := by
          rw [State.cached_iff, modifySet_setFor h.params h.shape, if_pos hi]
          exact ⟨he, by simp, hc'.2.2⟩
        rw [State.view_of_cached hc, State.view_of_cached hcm, modifySet_setFor h.params h.shape, if_pos hi, hset]
        simp only [modifySet_params]
        rw [setBytes_getElem? _ _ _ _ (by rw [hlen]; exact hobB), dwordBytes_length, if_neg]
        intro hr
        apply hin
        rw [inDword_iff]
        have htag : tagOf s.params b = tagOf s.params a := hc'.2.2.symm.trans ht
        have h1 := split_toNat h.params a
        have h2 := split_toNat h.params b
        rw [htag, hi] at h2
        have h3 := a.isLt
        have h4 := b.isLt
        rw [BitVec.toNat_sub]
        omega
      · have hcm : ¬ (modifySet s a v).cached b = true := by
          intro hcm
          rw [State.cached_iff, modifySet_setFor h.params h.shape, if_pos hi] at hcm
          exact hc ((s.cached_iff b).mpr ⟨he, by rw [hset]; exact hv, by rw [hset]; exact hcm.2.2⟩)
        rw [State.view_of_not_cached hc, State.view_of_not_cached hcm, modifySet_backing]
    · refine State.view_congr rfl ?_ (Or.inr rfl)
      rw [modifySet_setFor h.params h.shape, if_neg hi]

end Sys2Proof.Machine
end

