-- ==== Sys2Proof/Laws/Access.lean ====
section
/-! SUPPORT. The memory stage's two accesses: one lemma each that says everything the access does, with the cache
enabled or disabled (20_memory.md R58 to R60; 21_cache.md R98). -/

namespace Sys2Proof.Machine

theorem evictedByte_disabled {s : State} (he : s.params.cacheEnable = false) (a b : Word) :
    s.evictedByte a b = false := by
  simp [State.evictedByte, State.evicts, he]

/-! The direct path. -/

theorem directRead_eq {s : State} (he : s.params.cacheEnable = false) (a : Word) : directRead s a = s.viewDword a := by
  unfold directRead State.viewDword
  congr 1
  apply bytes_ext (n := 8) (by simp) (by simp)
  intro k hk
  rw [readBytes_getElem? _ _ 8 _ hk, List.getElem?_map, List.getElem?_range hk, Option.map_some, State.view_disabled he]
  rfl

theorem directWrite_backing (s : State) (a v b : Word) :
    (directWrite s a v).backing b = if inDword a b then ((dwordBytes v)[(b - a).toNat]?).getD 0x00#8 else s.backing b := by
  have := writeBytes_read s.mem a b (dwordBytes v) (by simp)
  rw [dwordBytes_length] at this
  unfold State.backing
  rw [directWrite_mem, this]
  simp [inDword]

theorem directWrite_inv {s : State} (h : MachineInv s) (he : s.params.cacheEnable = false) (a v : Word) :
    MachineInv (directWrite s a v) := by
  refine ⟨h.params, writeBytes_wf h.mem _ _, ⟨h.shape.sets, h.shape.block, h.shape.tag⟩, ?_, h.unused⟩
  intro i hi hc
  have hmem := s.setAt_mem i (by rw [h.shape.sets]; exact hi)
  have hinv := h.unused he _ hmem
  rw [show (directWrite s a v).setAt i = s.setAt i from rfl, hinv] at hc
  cases hc

/-! MemRead. -/

/-- Everything a data read does. -/
structure MemReadSpec (s : State) (a : Word) : Prop where
  inv : MachineInv (memRead s a).1
  params : (memRead s a).1.params = s.params
  pc : (memRead s a).1.pc = s.pc
  regs : (memRead s a).1.regs = s.regs
  view : ∀ b, (memRead s a).1.view b = s.view b
  backing : ∀ b, (memRead s a).1.backing b = if s.evictedByte a b then s.view b else s.backing b
  others : ∀ i, i ≠ setIndexOf s.params a → (memRead s a).1.setAt i = s.setAt i
  value : (memRead s a).2 = s.viewDword a

theorem memRead_spec {s : State} (h : MachineInv s) {a : Word} (ha : aligned8 a = true) : MemReadSpec s a := by
  cases he : s.params.cacheEnable
  · constructor <;> simp only [memRead, he, Bool.false_eq_true, if_false]
    · exact h
    · simp
    · intro b
      simp [evictedByte_disabled he]
    · simp
    · exact directRead_eq he a
  · have hhit := lookup_hit h he a
    have hinv := lookup_inv h he a
    constructor <;> simp only [memRead, he, if_true, cacheRead]
    · exact hinv
    · exact lookup_params s a
    · exact lookup_pc s a
    · exact lookup_regs s a
    · exact lookup_view h he a
    · exact lookup_backing h he a
    · exact fun i hi => lookup_setAt h he a i hi
    · have := dword_of_set hinv (by simpa using he) ha hhit.1 (by simpa using hhit.2)
      rw [lookup_params] at this
      rw [this]
      unfold State.viewDword
      simp only [lookup_view h he]

/-! MemWrite. -/

/-- Everything a data write does. -/
structure MemWriteSpec (s : State) (a v : Word) : Prop where
  inv : MachineInv (memWrite s a v)
  params : (memWrite s a v).params = s.params
  pc : (memWrite s a v).pc = s.pc
  regs : (memWrite s a v).regs = s.regs
  view : ∀ b, (memWrite s a v).view b =
    if inDword a b then ((dwordBytes v)[(b - a).toNat]?).getD 0x00#8 else s.view b
  cached : s.params.cacheEnable = true →
    ∀ b, (memWrite s a v).backing b = if s.evictedByte a b then s.view b else s.backing b
  direct : s.params.cacheEnable = false → ∀ b, (memWrite s a v).backing b =
    if inDword a b then ((dwordBytes v)[(b - a).toNat]?).getD 0x00#8 else s.backing b
  others : ∀ i, i ≠ setIndexOf s.params a → (memWrite s a v).setAt i = s.setAt i
  dirty : s.params.cacheEnable = true →
    ((memWrite s a v).setFor a).state = .dirty ∧ ((memWrite s a v).setFor a).tag = tagOf s.params a

theorem memWrite_spec {s : State} (h : MachineInv s) {a : Word} (ha : aligned8 a = true) (v : Word) : MemWriteSpec s a v := by
  cases he : s.params.cacheEnable
  · have e : memWrite s a v = directWrite s a v := by simp [memWrite, he]
    constructor <;> rw [e]
    · exact directWrite_inv h he a v
    · rfl
    · rfl
    · rfl
    · intro b
      rw [State.view_disabled (by simpa using he), State.view_disabled he, directWrite_backing]
    · intro h1
      exact absurd (he.symm.trans h1) (by simp)
    · exact fun _ b => directWrite_backing s a v b
    · exact fun i _ => rfl
    · intro h1
      exact absurd (he.symm.trans h1) (by simp)
  · have e : memWrite s a v = modifySet (lookup s a) a v := by simp [memWrite, he, cacheWrite]
    have hinv := lookup_inv h he a
    have hhit := lookup_hit h he a
    have hel : (lookup s a).params.cacheEnable = true := by simpa using he
    constructor <;> rw [e]
    · exact modifySet_inv hinv hel a v
    · simp
    · simp
    · simp
    · intro b
      rw [modifySet_view hinv hel ha hhit.1 (by simpa using hhit.2), lookup_view h he]
    · intro _ b
      rw [modifySet_backing, lookup_backing h he]
    · intro h1
      exact absurd (he.symm.trans h1) (by simp)
    · intro i hi
      rw [modifySet, State.setAt_putSet _ _ _ _ (setIndex_lt_length hinv.params hinv.shape a), lookup_params, if_neg hi]
      exact lookup_setAt h he a i hi
    · intro _
      rw [modifySet_setFor hinv.params hinv.shape]
      simpa using hhit.2

end Sys2Proof.Machine
end

