-- ==== Sys2Proof/Laws/Encoding.lean ====
section
/-! SUPPORT. Fields of a word in numbers, fields of an encoded word, and a word from its fields (30_encoding.md R111
to R115). -/

namespace Sys2Proof

theorem append_toNat {m n : Nat} (x : BitVec m) (y : BitVec n) : (x ++ y).toNat = x.toNat * 2 ^ n + y.toNat := by
  rw [BitVec.toNat_append, ← Nat.shiftLeft_add_eq_or_of_lt y.isLt, Nat.shiftLeft_eq]

theorem extractLsb_toNat' {n : Nat} (x : BitVec n) (hi lo : Nat) :
    (x.extractLsb hi lo).toNat = x.toNat / 2 ^ lo % 2 ^ (hi - lo + 1) := by
  rw [BitVec.extractLsb_toNat, Nat.shiftRight_eq_div_pow]

/-- `extract_bits` as a number (40_pipeline.md R142). -/
theorem extractBits_toNat (w : InstWord) (hi lo : Nat) :
    (extractBits w hi lo).toNat = w.toNat / 2 ^ lo % 2 ^ (hi - lo + 1) := extractLsb_toNat' w hi lo

/-! The fields of a word in numbers. -/

theorem opcodeOf_toNat (w : InstWord) : (opcodeOf w).toNat = w.toNat / 2 ^ 0 % 2 ^ 7 := extractBits_toNat w 6 0
theorem rdOf_toNat (w : InstWord) : (rdOf w).toNat = w.toNat / 2 ^ 7 % 2 ^ 5 := extractBits_toNat w 11 7
theorem funct3Of_toNat (w : InstWord) : (funct3Of w).toNat = w.toNat / 2 ^ 12 % 2 ^ 3 := extractBits_toNat w 14 12
theorem rs1Of_toNat (w : InstWord) : (rs1Of w).toNat = w.toNat / 2 ^ 15 % 2 ^ 5 := extractBits_toNat w 19 15
theorem rs2Of_toNat (w : InstWord) : (rs2Of w).toNat = w.toNat / 2 ^ 20 % 2 ^ 5 := extractBits_toNat w 24 20
theorem funct7Of_toNat (w : InstWord) : (funct7Of w).toNat = w.toNat / 2 ^ 25 % 2 ^ 7 := extractBits_toNat w 31 25
theorem immIOf_toNat (w : InstWord) : (immIOf w).toNat = w.toNat / 2 ^ 20 % 2 ^ 12 := extractBits_toNat w 31 20

theorem immSOf_toNat (w : InstWord) :
    (immSOf w).toNat = (w.toNat / 2 ^ 25 % 2 ^ 7) * 2 ^ 5 + w.toNat / 2 ^ 7 % 2 ^ 5 := by
  have := append_toNat (extractBits w 31 25) (extractBits w 11 7)
  rw [extractBits_toNat, extractBits_toNat] at this
  exact this

theorem immBOf_toNat (w : InstWord) :
    (immBOf w).toNat = (w.toNat / 2 ^ 31 % 2 ^ 1) * 2 ^ 12 + (w.toNat / 2 ^ 7 % 2 ^ 1) * 2 ^ 11 +
      (w.toNat / 2 ^ 25 % 2 ^ 6) * 2 ^ 5 + (w.toNat / 2 ^ 8 % 2 ^ 4) * 2 := by
  have e : (immBOf w).toNat = _ :=
    append_toNat (extractBits w 31 31 ++ extractBits w 7 7 ++ extractBits w 30 25 ++ extractBits w 11 8) 0#1
  simp only [append_toNat, extractBits_toNat, BitVec.toNat_ofNat] at e
  rw [e]
  norm_num
  ring

/-! The encoded word in numbers. -/

theorem encodeR_toNat (f7 : BitVec 7) (rs2 rs1 : RegIdx) (f3 : BitVec 3) (rd : RegIdx) (op : BitVec 7) :
    (encodeR f7 rs2 rs1 f3 rd op).toNat = f7.toNat * 2 ^ 25 + rs2.toNat * 2 ^ 20 + rs1.toNat * 2 ^ 15 +
      f3.toNat * 2 ^ 12 + rd.toNat * 2 ^ 7 + op.toNat := by
  have : (encodeR f7 rs2 rs1 f3 rd op).toNat = _ := append_toNat (f7 ++ rs2 ++ rs1 ++ f3 ++ rd) op
  simp only [append_toNat] at this
  rw [this]
  ring

theorem encodeI_toNat (imm : BitVec 12) (rs1 : RegIdx) (f3 : BitVec 3) (rd : RegIdx) (op : BitVec 7) :
    (encodeI imm rs1 f3 rd op).toNat = imm.toNat * 2 ^ 20 + rs1.toNat * 2 ^ 15 + f3.toNat * 2 ^ 12 +
      rd.toNat * 2 ^ 7 + op.toNat := by
  have : (encodeI imm rs1 f3 rd op).toNat = _ := append_toNat (imm ++ rs1 ++ f3 ++ rd) op
  simp only [append_toNat] at this
  rw [this]
  ring

theorem encodeS_toNat (imm : BitVec 12) (rs2 rs1 : RegIdx) (f3 : BitVec 3) (op : BitVec 7) :
    (encodeS imm rs2 rs1 f3 op).toNat = imm.toNat / 2 ^ 5 % 2 ^ 7 * 2 ^ 25 + rs2.toNat * 2 ^ 20 +
      rs1.toNat * 2 ^ 15 + f3.toNat * 2 ^ 12 + imm.toNat % 2 ^ 5 * 2 ^ 7 + op.toNat := by
  have : (encodeS imm rs2 rs1 f3 op).toNat = _ :=
    append_toNat (imm.extractLsb 11 5 ++ rs2 ++ rs1 ++ f3 ++ imm.extractLsb 4 0) op
  simp only [append_toNat, extractLsb_toNat'] at this
  rw [this]
  norm_num
  ring

theorem encodeB_toNat (imm : BitVec 13) (rs2 rs1 : RegIdx) (f3 : BitVec 3) (op : BitVec 7) :
    (encodeB imm rs2 rs1 f3 op).toNat = imm.toNat / 2 ^ 12 % 2 * 2 ^ 31 + imm.toNat / 2 ^ 5 % 2 ^ 6 * 2 ^ 25 +
      rs2.toNat * 2 ^ 20 + rs1.toNat * 2 ^ 15 + f3.toNat * 2 ^ 12 + imm.toNat / 2 % 2 ^ 4 * 2 ^ 8 +
      imm.toNat / 2 ^ 11 % 2 * 2 ^ 7 + op.toNat := by
  have : (encodeB imm rs2 rs1 f3 op).toNat = _ :=
    append_toNat (imm.extractLsb 12 12 ++ imm.extractLsb 10 5 ++ rs2 ++ rs1 ++ f3 ++ imm.extractLsb 4 1 ++
      imm.extractLsb 11 11) op
  simp only [append_toNat, extractLsb_toNat'] at this
  rw [this]
  norm_num
  ring

/-! The fields of an encoded word. -/

section
variable (f7 : BitVec 7) (rs2 rs1 rd : RegIdx) (f3 : BitVec 3) (op : BitVec 7) (imm : BitVec 12) (off : BitVec 13)

theorem fields_encodeR :
    opcodeOf (encodeR f7 rs2 rs1 f3 rd op) = op ∧ funct3Of (encodeR f7 rs2 rs1 f3 rd op) = f3 ∧
    funct7Of (encodeR f7 rs2 rs1 f3 rd op) = f7 ∧ rdOf (encodeR f7 rs2 rs1 f3 rd op) = rd ∧
    rs1Of (encodeR f7 rs2 rs1 f3 rd op) = rs1 ∧ rs2Of (encodeR f7 rs2 rs1 f3 rd op) = rs2 := by
  have h7 := f7.isLt
  have h2 := rs2.isLt
  have h1 := rs1.isLt
  have h3 := f3.isLt
  have hd := rd.isLt
  have ho := op.isLt
  refine ⟨?_, ?_, ?_, ?_, ?_, ?_⟩ <;> apply BitVec.eq_of_toNat_eq <;>
    simp only [opcodeOf_toNat, funct3Of_toNat, funct7Of_toNat, rdOf_toNat, rs1Of_toNat, rs2Of_toNat, encodeR_toNat] <;>
    omega

theorem fields_encodeI :
    opcodeOf (encodeI imm rs1 f3 rd op) = op ∧ funct3Of (encodeI imm rs1 f3 rd op) = f3 ∧
    rdOf (encodeI imm rs1 f3 rd op) = rd ∧ rs1Of (encodeI imm rs1 f3 rd op) = rs1 ∧
    immIOf (encodeI imm rs1 f3 rd op) = imm := by
  have hi := imm.isLt
  have h1 := rs1.isLt
  have h3 := f3.isLt
  have hd := rd.isLt
  have ho := op.isLt
  refine ⟨?_, ?_, ?_, ?_, ?_⟩ <;> apply BitVec.eq_of_toNat_eq <;>
    simp only [opcodeOf_toNat, funct3Of_toNat, rdOf_toNat, rs1Of_toNat, immIOf_toNat, encodeI_toNat] <;>
    omega

/-- The S format is the R format with the immediate in the places of funct7 and rd (30_encoding.md R112, R114). -/
theorem encodeS_eq : encodeS imm rs2 rs1 f3 op = encodeR (imm.extractLsb 11 5) rs2 rs1 f3 (imm.extractLsb 4 0) op := rfl

theorem fields_encodeS :
    opcodeOf (encodeS imm rs2 rs1 f3 op) = op ∧ funct3Of (encodeS imm rs2 rs1 f3 op) = f3 ∧
    rs1Of (encodeS imm rs2 rs1 f3 op) = rs1 ∧ rs2Of (encodeS imm rs2 rs1 f3 op) = rs2 ∧
    immSOf (encodeS imm rs2 rs1 f3 op) = imm := by
  obtain ⟨h1, h2, h3, h4, h5, h6⟩ := fields_encodeR (imm.extractLsb 11 5) rs2 rs1 (imm.extractLsb 4 0) f3 op
  rw [← encodeS_eq] at h1 h2 h3 h4 h5 h6
  refine ⟨h1, h2, h5, h6, BitVec.eq_of_toNat_eq ?_⟩
  have e : (immSOf (encodeS imm rs2 rs1 f3 op)).toNat = _ :=
    append_toNat (funct7Of (encodeS imm rs2 rs1 f3 op)) (rdOf (encodeS imm rs2 rs1 f3 op))
  rw [h3, h4, extractLsb_toNat', extractLsb_toNat'] at e
  rw [e]
  have := imm.isLt
  omega

theorem offsetEven_toNat : offsetEven off = true ↔ off.toNat % 2 = 0 := by
  simp [offsetEven, BitVec.getLsbD, Nat.testBit_zero]

/-- The B format is the R format with the offset in the places of funct7 and rd (30_encoding.md R112, R115). -/
theorem encodeB_eq : encodeB off rs2 rs1 f3 op =
    encodeR (off.extractLsb 12 12 ++ off.extractLsb 10 5) rs2 rs1 f3 (off.extractLsb 4 1 ++ off.extractLsb 11 11) op := by
  apply BitVec.eq_of_toNat_eq
  rw [encodeB_toNat, encodeR_toNat, append_toNat, append_toNat]
  simp only [extractLsb_toNat']
  norm_num
  ring

/-- The B offset from the fields in the places of funct7 and rd. -/
theorem immBOf_fields (w : InstWord) : (immBOf w).toNat =
    (funct7Of w).toNat / 64 * 4096 + (rdOf w).toNat % 2 * 2048 + (funct7Of w).toNat % 64 * 32 +
      (rdOf w).toNat / 2 * 2 := by
  rw [immBOf_toNat, funct7Of_toNat, rdOf_toNat]
  omega

/-- An even offset below `2 ^ 13` is the sum of its four pieces, wherever they stood in between. -/
theorem scatter_offset {n : Nat} (hn : n < 2 ^ 13) (he : n % 2 = 0) :
    (n / 2 ^ 12 % 2 ^ (12 - 12 + 1) * 2 ^ (10 - 5 + 1) + n / 2 ^ 5 % 2 ^ (10 - 5 + 1)) / 64 * 4096 +
      (n / 2 ^ 1 % 2 ^ (4 - 1 + 1) * 2 ^ (11 - 11 + 1) + n / 2 ^ 11 % 2 ^ (11 - 11 + 1)) % 2 * 2048 +
      (n / 2 ^ 12 % 2 ^ (12 - 12 + 1) * 2 ^ (10 - 5 + 1) + n / 2 ^ 5 % 2 ^ (10 - 5 + 1)) % 64 * 32 +
      (n / 2 ^ 1 % 2 ^ (4 - 1 + 1) * 2 ^ (11 - 11 + 1) + n / 2 ^ 11 % 2 ^ (11 - 11 + 1)) / 2 * 2 = n := by
  norm_num only at *
  obtain ⟨a, b, c, d, ha, hb, hc, hd, rfl⟩ : ∃ a b c d, a < 2 ∧ b < 2 ∧ c < 64 ∧ d < 16 ∧
      n = a * 4096 + b * 2048 + c * 32 + d * 2 :=
    ⟨n / 4096, n / 2048 % 2, n / 32 % 64, n / 2 % 16, by omega, by omega, by omega, by omega, by omega⟩
  have e1 : (a * 4096 + b * 2048 + c * 32 + d * 2) / 4096 = a := by omega
  have e2 : (a * 4096 + b * 2048 + c * 32 + d * 2) / 32 = a * 128 + b * 64 + c := by omega
  have e3 : (a * 4096 + b * 2048 + c * 32 + d * 2) / 2 = a * 2048 + b * 1024 + c * 16 + d := by omega
  have e4 : (a * 4096 + b * 2048 + c * 32 + d * 2) / 2048 = a * 2 + b := by omega
  rw [e1, e2, e3, e4]
  have f1 : a % 2 * 64 + (a * 128 + b * 64 + c) % 64 = a * 64 + c := by omega
  have f2 : (a * 2048 + b * 1024 + c * 16 + d) % 16 * 2 + (a * 2 + b) % 2 = d * 2 + b := by omega
  have g1 : (a * 64 + c) / 64 = a := by omega
  have g2 : (a * 64 + c) % 64 = c := by omega
  have g3 : (d * 2 + b) / 2 = d := by omega
  have g4 : (d * 2 + b) % 2 = b := by omega
  rw [f1, f2, g1, g2, g3, g4]

/-- Gathering an offset from the places of funct7 and rd and scattering it again gives the two fields back. -/
theorem gather_offset {f r : Nat} (hf : f < 2 ^ 7) (hr : r < 2 ^ 5) :
    (f / 64 * 4096 + r % 2 * 2048 + f % 64 * 32 + r / 2 * 2) / 2 ^ 12 % 2 ^ (12 - 12 + 1) * 2 ^ (10 - 5 + 1) +
        (f / 64 * 4096 + r % 2 * 2048 + f % 64 * 32 + r / 2 * 2) / 2 ^ 5 % 2 ^ (10 - 5 + 1) = f ∧
    (f / 64 * 4096 + r % 2 * 2048 + f % 64 * 32 + r / 2 * 2) / 2 ^ 1 % 2 ^ (4 - 1 + 1) * 2 ^ (11 - 11 + 1) +
        (f / 64 * 4096 + r % 2 * 2048 + f % 64 * 32 + r / 2 * 2) / 2 ^ 11 % 2 ^ (11 - 11 + 1) = r := by
  norm_num only at *
  obtain ⟨a, b, ha, hb, rfl⟩ : ∃ a b, a < 2 ∧ b < 64 ∧ f = a * 64 + b := ⟨f / 64, f % 64, by omega, by omega, by omega⟩
  obtain ⟨c, d, hc, hd, rfl⟩ : ∃ c d, c < 16 ∧ d < 2 ∧ r = c * 2 + d := ⟨r / 2, r % 2, by omega, by omega, by omega⟩
  have e : (a * 64 + b) / 64 * 4096 + (c * 2 + d) % 2 * 2048 + (a * 64 + b) % 64 * 32 + (c * 2 + d) / 2 * 2 =
      a * 4096 + d * 2048 + b * 32 + c * 2 := by
    have e1 : (a * 64 + b) / 64 = a := by omega
    have e2 : (a * 64 + b) % 64 = b := by omega
    have e3 : (c * 2 + d) % 2 = d := by omega
    have e4 : (c * 2 + d) / 2 = c := by omega
    rw [e1, e2, e3, e4]
  rw [e]
  have e1 : (a * 4096 + d * 2048 + b * 32 + c * 2) / 4096 = a := by omega
  have e2 : (a * 4096 + d * 2048 + b * 32 + c * 2) / 32 = a * 128 + d * 64 + b := by omega
  have e3 : (a * 4096 + d * 2048 + b * 32 + c * 2) / 2 = a * 2048 + d * 1024 + b * 16 + c := by omega
  have e4 : (a * 4096 + d * 2048 + b * 32 + c * 2) / 2048 = a * 2 + d := by omega
  rw [e1, e2, e3, e4]
  clear e1 e2 e3 e4 e
  constructor <;> omega

theorem fields_encodeB (he : offsetEven off = true) :
    opcodeOf (encodeB off rs2 rs1 f3 op) = op ∧ funct3Of (encodeB off rs2 rs1 f3 op) = f3 ∧
    rs1Of (encodeB off rs2 rs1 f3 op) = rs1 ∧ rs2Of (encodeB off rs2 rs1 f3 op) = rs2 ∧
    immBOf (encodeB off rs2 rs1 f3 op) = off := by
  obtain ⟨h1, h2, h3, h4, h5, h6⟩ := fields_encodeR (off.extractLsb 12 12 ++ off.extractLsb 10 5) rs2 rs1
    (off.extractLsb 4 1 ++ off.extractLsb 11 11) f3 op
  rw [← encodeB_eq] at h1 h2 h3 h4 h5 h6
  refine ⟨h1, h2, h5, h6, BitVec.eq_of_toNat_eq ?_⟩
  rw [immBOf_fields, h3, h4, append_toNat, append_toNat]
  simp only [extractLsb_toNat']
  exact scatter_offset off.isLt ((offsetEven_toNat off).mp he)

end

/-! A word from its fields. -/

section
variable (w : InstWord)

theorem encodeR_fields : encodeR (funct7Of w) (rs2Of w) (rs1Of w) (funct3Of w) (rdOf w) (opcodeOf w) = w := by
  have := w.isLt
  apply BitVec.eq_of_toNat_eq
  simp only [opcodeOf_toNat, funct3Of_toNat, funct7Of_toNat, rdOf_toNat, rs1Of_toNat, rs2Of_toNat, encodeR_toNat]
  omega

theorem encodeI_fields : encodeI (immIOf w) (rs1Of w) (funct3Of w) (rdOf w) (opcodeOf w) = w := by
  have := w.isLt
  apply BitVec.eq_of_toNat_eq
  simp only [opcodeOf_toNat, funct3Of_toNat, rdOf_toNat, rs1Of_toNat, immIOf_toNat, encodeI_toNat]
  omega

theorem encodeS_fields : encodeS (immSOf w) (rs2Of w) (rs1Of w) (funct3Of w) (opcodeOf w) = w := by
  have h1 : (immSOf w).extractLsb 11 5 = funct7Of w := by
    apply BitVec.eq_of_toNat_eq
    rw [extractLsb_toNat', immSOf_toNat, funct7Of_toNat]
    omega
  have h2 : (immSOf w).extractLsb 4 0 = rdOf w := by
    apply BitVec.eq_of_toNat_eq
    rw [extractLsb_toNat', immSOf_toNat, rdOf_toNat]
    omega
  rw [encodeS_eq, h1, h2]
  exact encodeR_fields w

theorem encodeB_fields : encodeB (immBOf w) (rs2Of w) (rs1Of w) (funct3Of w) (opcodeOf w) = w := by
  have hf := (funct7Of w).isLt
  have hr := (rdOf w).isLt
  have h1 : (immBOf w).extractLsb 12 12 ++ (immBOf w).extractLsb 10 5 = funct7Of w := by
    apply BitVec.eq_of_toNat_eq
    rw [append_toNat, extractLsb_toNat', extractLsb_toNat', immBOf_fields]
    exact (gather_offset hf hr).1
  have h2 : (immBOf w).extractLsb 4 1 ++ (immBOf w).extractLsb 11 11 = rdOf w := by
    apply BitVec.eq_of_toNat_eq
    rw [append_toNat, extractLsb_toNat', extractLsb_toNat', immBOf_fields]
    exact (gather_offset hf hr).2
  rw [encodeB_eq, h1, h2]
  exact encodeR_fields w

theorem immBOf_even : offsetEven (immBOf w) = true := by
  rw [offsetEven_toNat, immBOf_toNat]
  omega

end

/-- The four bytes a word is laid out in decode to the word (20_memory.md R53). -/
theorem decodeBytes_of_bytes (b0 b1 b2 b3 : Byte) (rest : List Byte) :
    decodeBytes (b0 :: b1 :: b2 :: b3 :: rest) =
      .ok (decodeWord (BitVec.ofNat 32 (leValue [b0, b1, b2, b3])), rest) := rfl

/-! The class a format's word is decoded in. -/

section
variable (f7 : BitVec 7) (rs2 rs1 rd : RegIdx) (f3 : BitVec 3) (imm : BitVec 12) (off : BitVec 13)

theorem decodeWord_encodeR : decodeWord (encodeR f7 rs2 rs1 f3 rd opcodeOp) = decodeOp f3 f7 rd rs1 rs2 := by
  obtain ⟨e1, e2, e3, e4, e5, e6⟩ := fields_encodeR f7 rs2 rs1 rd f3 opcodeOp
  rw [decodeWord, e1, e2, e3, e4, e5, e6, if_pos rfl]

theorem decodeWord_encodeI : decodeWord (encodeI imm rs1 f3 rd opcodeOpImm) = decodeOpImm f3 rd rs1 imm := by
  obtain ⟨e1, e2, e3, e4, e5⟩ := fields_encodeI rs1 rd f3 opcodeOpImm imm
  rw [decodeWord, e1, e2, e3, e4, e5, if_neg (by decide), if_pos rfl]

theorem decodeWord_encodeI_load : decodeWord (encodeI imm rs1 f3 rd opcodeLoad) = decodeLoad f3 rd rs1 imm := by
  obtain ⟨e1, e2, e3, e4, e5⟩ := fields_encodeI rs1 rd f3 opcodeLoad imm
  rw [decodeWord, e1, e2, e3, e4, e5, if_neg (by decide), if_neg (by decide), if_pos rfl]

theorem decodeWord_encodeS : decodeWord (encodeS imm rs2 rs1 f3 opcodeStore) = decodeStore f3 rs1 rs2 imm := by
  obtain ⟨e1, e2, e3, e4, e5⟩ := fields_encodeS rs2 rs1 f3 opcodeStore imm
  rw [decodeWord, e1, e2, e3, e4, e5, if_neg (by decide), if_neg (by decide), if_neg (by decide), if_pos rfl]

theorem decodeWord_encodeB (h : offsetEven off = true) :
    decodeWord (encodeB off rs2 rs1 f3 opcodeBranch) = decodeBranch f3 rs1 rs2 off := by
  obtain ⟨e1, e2, e3, e4, e5⟩ := fields_encodeB rs2 rs1 f3 opcodeBranch off h
  rw [decodeWord, e1, e2, e3, e4, e5, if_neg (by decide), if_neg (by decide), if_neg (by decide), if_neg (by decide),
    if_pos rfl]

end

/-- The decoder rejects by opcode alone (30_encoding.md R123). -/
theorem decodeWord_unsupported {w : InstWord} (h : opcodeSupported (opcodeOf w) = false) :
    decodeWord w = .unsupported w := by
  simp [opcodeSupported] at h
  simp [decodeWord, h]

/-! Matching a word against a mask of the opcode table (30_encoding.md R129). -/

theorem and_opcode_funct3 (w : InstWord) :
    w &&& 0x0000707F#32 = (0#17 ++ funct3Of w ++ 0#5 ++ opcodeOf w : BitVec 32) := by
  apply BitVec.eq_of_getLsbD_eq
  intro i hi
  simp only [BitVec.getLsbD_and, BitVec.getLsbD_append, funct3Of, opcodeOf, extractBits, BitVec.getLsbD_extractLsb]
  interval_cases i <;> simp

theorem and_opcode_funct3_funct7 (w : InstWord) :
    w &&& 0xFE00707F#32 = (funct7Of w ++ 0#10 ++ funct3Of w ++ 0#5 ++ opcodeOf w : BitVec 32) := by
  apply BitVec.eq_of_getLsbD_eq
  intro i hi
  simp only [BitVec.getLsbD_and, BitVec.getLsbD_append, funct3Of, opcodeOf, funct7Of, extractBits, BitVec.getLsbD_extractLsb]
  interval_cases i <;> simp

/-- A word matches a row with mask 0x707F when its opcode and funct3 are the row's. -/
theorem match_opcode_funct3 {w v : InstWord} (hv : v &&& 0x0000707F#32 = v) :
    w &&& 0x0000707F#32 = v ↔ opcodeOf w = opcodeOf v ∧ funct3Of w = funct3Of v := by
  constructor
  · intro h
    rw [← h, and_opcode_funct3 w]
    constructor <;> apply BitVec.eq_of_toNat_eq <;>
      simp only [opcodeOf_toNat, funct3Of_toNat, append_toNat, BitVec.toNat_ofNat] <;> omega
  · rintro ⟨h1, h2⟩
    rw [and_opcode_funct3, h1, h2, ← and_opcode_funct3, hv]

/-- A word matches a row with mask 0xFE00707F when its opcode, funct3 and funct7 are the row's. -/
theorem match_opcode_funct3_funct7 {w v : InstWord} (hv : v &&& 0xFE00707F#32 = v) :
    w &&& 0xFE00707F#32 = v ↔ opcodeOf w = opcodeOf v ∧ funct3Of w = funct3Of v ∧ funct7Of w = funct7Of v := by
  constructor
  · intro h
    rw [← h, and_opcode_funct3_funct7 w]
    refine ⟨?_, ?_, ?_⟩ <;> apply BitVec.eq_of_toNat_eq <;>
      simp only [opcodeOf_toNat, funct3Of_toNat, funct7Of_toNat, append_toNat, BitVec.toNat_ofNat] <;> omega
  · rintro ⟨h1, h2, h3⟩
    rw [and_opcode_funct3_funct7, h1, h2, h3, ← and_opcode_funct3_funct7, hv]

end Sys2Proof
end

