-- ==== Sys2Proof/Laws/Exec.lean ====
section
/-! SUPPORT. One lemma for each shared operation that a meaning calls, saying everything it can do, and the one case
analysis over `exec` that every claim about all instructions goes through. -/

namespace Sys2Proof.Machine

/-! Bytes of a dword. -/

/-- Byte `k` of a value is the entry of its byte list. -/
theorem dwordBytes_getD {v : Word} {k : Nat} (h : k < 8) : ((dwordBytes v)[k]?).getD 0x00#8 = byteOf v k := by
  rw [dwordBytes_getElem? v k h]
  rfl

/-- The byte a store leaves at an address, in the claims' words. -/
theorem stored_byte (v : Word) (a b : Word) (x : Byte) :
    (if inDword a b then ((dwordBytes v)[(b - a).toNat]?).getD 0x00#8 else x) =
      if inDword a b then byteOf v (b - a).toNat else x := by
  by_cases h : inDword a b = true
  · rw [if_pos h, if_pos h, dwordBytes_getD (inDword_iff.mp h)]
  · rw [if_neg h, if_neg h]

/-- The dword loads see is determined by its eight bytes. -/
theorem viewDword_congr {s t : State} {a : Word} (h : ∀ k, k < 8 → s.view (a + BitVec.ofNat 64 k) = t.view (a + BitVec.ofNat 64 k)) :
    s.viewDword a = t.viewDword a := by
  unfold State.viewDword
  congr 1
  apply List.map_congr_left
  intro k hk
  exact h k (List.mem_range.mp hk)

/-- If the eight bytes loads see are those of a value, the dword is the value. -/
theorem viewDword_eq {s : State} {a v : Word} (h : ∀ k, k < 8 → s.view (a + BitVec.ofNat 64 k) = byteOf v k) :
    s.viewDword a = v := by
  rw [← dwordOf_dwordBytes v]
  unfold State.viewDword
  congr 1
  apply bytes_ext (n := 8) (by simp) (by simp)
  intro k hk
  rw [List.getElem?_map, List.getElem?_range hk, Option.map_some, h k hk, dwordBytes_getElem? v k hk]
  rfl

/-! The addressed set after an access. -/

theorem lookup_state {s : State} (h : MachineInv s) (he : s.params.cacheEnable = true) (a : Word) :
    ((lookup s a).setFor a).state = if s.cached a then (s.setFor a).state else .clean := by
  rcases lookup_cases s a with ⟨e, hv, ht⟩ | ⟨e, hd⟩ | ⟨e, hd, ht⟩
  · rw [e, if_pos ((s.cached_iff a).mpr ⟨he, hv, ht⟩)]
  · by_cases hc : s.cached a = true
    · have hc' := (s.cached_iff a).mp hc
      have hs : (s.setFor a).state = .clean := by
        cases es : (s.setFor a).state
        · exact absurd es hc'.2.1
        · rfl
        · exact absurd es hd
      rw [e, fill_setFor h.params h.shape, if_pos rfl, if_pos hc, hs]
    · rw [e, fill_setFor h.params h.shape, if_pos rfl, if_neg hc]
  · have hc : ¬ s.cached a = true := fun hc => ht ((s.cached_iff a).mp hc).2.2
    rw [e, fill_setFor (s := writeback s a) h.params (writeback_inv h he hd).shape, if_pos rfl, if_neg hc]

/-! The families. -/

/-- A register-register or register-immediate instruction: the register, the pc, nothing else. -/
theorem setX_advance_effect (s : State) (rd : RegIdx) (v : Word) :
    RegisterEffect s (s.setX rd v).advance rd v (s.pc + 4#64) where
  reg r := by rw [State.x_advance, State.x_setX]
  pc := rfl
  backing _ := rfl
  view _ := rfl
  cache := rfl
  params := rfl

/-- A branch: the pc, nothing else. -/
theorem goto_effect (s : State) (t : Word) : PcEffect s (s.goto t) t where
  reg _ := rfl
  pc := rfl
  backing _ := rfl
  view _ := rfl
  cache := rfl
  params := rfl

/-- A load from an aligned address. -/
theorem load_effect {s : State} (h : MachineInv s) {a : Word} (ha : aligned8 a = true) (rd : RegIdx) :
    LoadEffect s ((memRead s a).1.setX rd (memRead s a).2).advance rd a := by
  have m := memRead_spec h ha
  constructor
  · intro r
    rw [State.x_advance, State.x_setX, m.value]
    unfold State.x
    rw [m.regs]
  · rw [State.advance_pc, State.setX_pc, m.pc]
  · exact m.view
  · exact m.backing
  · intro he
    have hit := lookup_hit h he a
    have st := lookup_state h he a
    have e : (memRead s a).1 = lookup s a := by simp [memRead, he, cacheRead]
    rw [e]
    refine ⟨?_, st⟩
    refine (State.cached_iff _ a).mpr ?_
    simp only [State.advance_params, State.setX_params, lookup_params]
    exact ⟨he, hit⟩
  · exact m.others
  · intro he
    simp [memRead, he]
  · exact m.params

/-- A store to an aligned address. -/
theorem store_effect {s : State} (h : MachineInv s) {a : Word} (ha : aligned8 a = true) (v : Word) :
    StoreEffect s (memWrite s a v).advance a v := by
  have m := memWrite_spec h ha v
  constructor
  · intro r
    rw [State.x_advance]
    unfold State.x
    rw [m.regs]
  · rw [State.advance_pc, m.pc]
  · intro b
    rw [State.view_advance, m.view, stored_byte]
  · exact m.cached
  · intro he b
    rw [State.backing_advance, m.direct he, stored_byte]
  · intro he
    have hd := m.dirty he
    refine ⟨(State.cached_iff _ a).mpr ⟨?_, ?_, ?_⟩, ?_⟩
    · rw [State.advance_params, m.params, he]
    · show ((memWrite s a v).advance.setFor a).state ≠ .invalid
      rw [show (memWrite s a v).advance.setFor a = (memWrite s a v).setFor a from rfl, hd.1]
      simp
    · rw [show (memWrite s a v).advance.setFor a = (memWrite s a v).setFor a from rfl, hd.2, State.advance_params, m.params]
    · exact hd.1
  · exact m.others
  · intro he
    simp [memWrite, he]
  · exact m.params

/-! Every instruction. -/

/-- What `exec` can do, one case for each kind of instruction: a register takes a value and the pc advances; a
load; a store; a branch, taken or not; the error of an unsupported word. -/
inductive ExecCase (i : Instr) (s : State) : Prop where
  | register (rd : RegIdx) (v : Word) (h : exec i s = .next (s.setX rd v).advance) (hr : dataRequest i s = .none)
  | load (rd : RegIdx) (a : Word)
      (h : exec i s = if aligned8 a then .next ((memRead s a).1.setX rd (memRead s a).2).advance
        else .fault (.misalignedData a))
      (hr : dataRequest i s = .read a)
  | store (a v : Word)
      (h : exec i s = if aligned8 a then .next (memWrite s a v).advance else .fault (.misalignedData a))
      (hr : dataRequest i s = .write a v)
  | branch (c : Bool) (imm : BitVec 13) (h : exec i s = .next (if c then s.goto (s.pc + sext imm) else s.advance))
      (hr : dataRequest i s = .none)
  | error (w : InstWord) (hi : i = .unsupported w) (h : exec i s = .fault (.unsupportedInstruction s.pc w))
      (hr : dataRequest i s = .none)

theorem exec_cases (i : Instr) (s : State) : ExecCase i s := by
  cases i
  case sub => exact .register _ _ rfl rfl
  case add => exact .register _ _ rfl rfl
  case xor => exact .register _ _ rfl rfl
  case or => exact .register _ _ rfl rfl
  case and => exact .register _ _ rfl rfl
  case opF3_001 => exact .register _ _ rfl rfl
  case opF3_010 => exact .register _ _ rfl rfl
  case opF3_011 => exact .register _ _ rfl rfl
  case opF3_101 => exact .register _ _ rfl rfl
  case addi => exact .register _ _ rfl rfl
  case xori => exact .register _ _ rfl rfl
  case ori => exact .register _ _ rfl rfl
  case andi => exact .register _ _ rfl rfl
  case opImmF3_001 => exact .register _ _ rfl rfl
  case opImmF3_010 => exact .register _ _ rfl rfl
  case opImmF3_011 => exact .register _ _ rfl rfl
  case opImmF3_101 => exact .register _ _ rfl rfl
  case ld => exact .load _ _ rfl rfl
  case loadF3_000 => exact .load _ _ rfl rfl
  case loadF3_001 => exact .load _ _ rfl rfl
  case loadF3_010 => exact .load _ _ rfl rfl
  case loadF3_100 => exact .load _ _ rfl rfl
  case loadF3_101 => exact .load _ _ rfl rfl
  case loadF3_110 => exact .load _ _ rfl rfl
  case loadF3_111 => exact .load _ _ rfl rfl
  case sd => exact .store _ _ rfl rfl
  case storeF3_000 => exact .store _ _ rfl rfl
  case storeF3_001 => exact .store _ _ rfl rfl
  case storeF3_010 => exact .store _ _ rfl rfl
  case storeF3_100 => exact .store _ _ rfl rfl
  case storeF3_101 => exact .store _ _ rfl rfl
  case storeF3_110 => exact .store _ _ rfl rfl
  case storeF3_111 => exact .store _ _ rfl rfl
  case beq => exact .branch _ _ rfl rfl
  case bne => exact .branch _ _ rfl rfl
  case blt => exact .branch _ _ rfl rfl
  case bge => exact .branch _ _ rfl rfl
  case bltu => exact .branch _ _ rfl rfl
  case bgeu => exact .branch _ _ rfl rfl
  case branchF3_010 => exact .branch _ _ rfl rfl
  case branchF3_011 => exact .branch _ _ rfl rfl
  case unsupported => exact .error _ rfl rfl rfl

/-! What the invariant and the readers of a state depend on. -/

/-- The invariant speaks of the parameters, the backing store and the cache alone. -/
theorem inv_of_same {s t : State} (h : MachineInv s) (hp : t.params = s.params) (hm : t.mem = s.mem) (hc : t.cache = s.cache) :
    MachineInv t := by
  obtain ⟨p, pc, r, m, c⟩ := s
  obtain ⟨p', pc', r', m', c'⟩ := t
  simp only at hp hm hc
  subst hp hm hc
  exact ⟨h.params, h.mem, ⟨h.shape.sets, h.shape.block, h.shape.tag⟩, h.clean, h.unused⟩

/-- So does a fetch of the backing store alone. -/
theorem fetchRead_congr {s t : State} {a : Word} (h : ∀ k, k < 4 → s.backing (a + BitVec.ofNat 64 k) = t.backing (a + BitVec.ofNat 64 k)) :
    fetchRead s a = fetchRead t a := by
  unfold fetchRead
  congr 2
  apply bytes_ext (n := 4) (by simp) (by simp)
  intro k hk
  rw [readBytes_getElem? _ _ 4 _ hk, readBytes_getElem? _ _ 4 _ hk]
  exact congrArg some (h k hk)

/-! Runs. -/

/-- One more step of a run. -/
theorem run_succ {M : Host.Core} {s t : M.State} (h : M.step s = .next t) (n : Nat) : M.run (n + 1) s = M.run n t := by
  rw [Host.Core.run, h]

/-! A step that answers a next state. -/

/-- The conditions under which `step` reaches `exec`, and with which instruction. -/
theorem step_next {s t : State} (h : step s = .next t) :
    s.params.wf ∧ aligned4 s.pc = true ∧ exec (decodeWord (fetchRead s s.pc)) s = .next t := by
  unfold step at h
  by_cases hp : s.params.wf
  · by_cases hpc : aligned4 s.pc = true
    · rw [if_pos hp, if_pos hpc] at h
      exact ⟨hp, hpc, h⟩
    · rw [if_pos hp, if_neg hpc] at h
      cases h
  · rw [if_neg hp] at h
    cases h

/-- The traffic of a step that reaches its fetch. -/
theorem stepCalls_eq {s : State} (hp : s.params.wf) (hpc : aligned4 s.pc = true) :
    stepCalls s = fetchCalls s.pc ++ dataCalls s (dataRequest (decodeWord (fetchRead s s.pc)) s) :=
  if_pos ⟨hp, hpc⟩

/-- A step that stops before its fetch makes no call. -/
theorem stepCalls_stopped {s : State} (h : ¬(s.params.wf ∧ aligned4 s.pc = true)) : stepCalls s = [] := if_neg h

theorem step_eq {s : State} (hp : s.params.wf) (hpc : aligned4 s.pc = true) :
    step s = exec (decodeWord (fetchRead s s.pc)) s := by
  unfold step
  rw [if_pos hp, if_pos hpc]

end Sys2Proof.Machine
end

