-- ==== Sys2Proof/Laws/PerInstr.lean ====
section
/-! SUPPORT. One fact for each constructor: the word of a well-formed instruction matches the opcode-table row the
constructor stands for, and is one an assembler emits for that row exactly when the instruction is canonical
(30_encoding.md R124, R129). -/

namespace Sys2Proof.Laws.MatchesItsRow

open Sys2Proof.Machine

/-- The instruction's word matches its row, canonically or not as `Instr.canonical` says. -/
def Statement (i : Instr) : Prop :=
  i.wf = true → ∃ r ∈ opcodeRows, r.order = rowOrder i ∧ r.covers (encode i) = true ∧
    r.coversCanonically (encode i) = i.canonical

/-- A word of the R format against a row that fixes opcode and funct3, and funct7 = 0 when canonical. -/
theorem canonical_R (f7 : BitVec 7) (rd rs1 rs2 : RegIdx) {f3 : BitVec 3} {op : BitVec 7} {v : InstWord}
    (hv : v &&& 0x0000707F#32 = v) (hv' : v &&& 0xFE00707F#32 = v)
    (ho : opcodeOf v = op) (h3 : funct3Of v = f3) (h7 : funct7Of v = 0#7) :
    (encodeR f7 rs2 rs1 f3 rd op &&& 0x0000707F#32 == v) = true ∧
      (encodeR f7 rs2 rs1 f3 rd op &&& 0xFE00707F#32 == v) = (f7 == 0#7) := by
  obtain ⟨e1, e2, e3, -⟩ := fields_encodeR f7 rs2 rs1 rd f3 op
  constructor
  · rw [beq_iff_eq, match_opcode_funct3 hv, e1, e2]
    exact ⟨ho.symm, h3.symm⟩
  · rw [Bool.eq_iff_iff, beq_iff_eq, beq_iff_eq, match_opcode_funct3_funct7 hv', e1, e2, e3, h7]
    exact ⟨fun h => h.2.2, fun h => ⟨ho.symm, h3.symm, h⟩⟩

/-- A word against a row that fixes opcode and funct3 alone. -/
theorem covers_fields {w v : InstWord} (hv : v &&& 0x0000707F#32 = v) (ho : opcodeOf w = opcodeOf v)
    (h3 : funct3Of w = funct3Of v) : (w &&& 0x0000707F#32 == v) = true :=
  beq_iff_eq.mpr ((match_opcode_funct3 hv).mpr ⟨ho, h3⟩)

theorem sub (rd rs1 rs2 : RegIdx) : Statement (.sub rd rs1 rs2) := by
  intro _
  have e := fields_encodeR funct7Sub rs2 rs1 rd funct3AddSub opcodeOp
  have k : (encode (.sub rd rs1 rs2) &&& 0xFE00707F#32 == 0x40000033#32) = true :=
    beq_iff_eq.mpr ((match_opcode_funct3_funct7 (by decide)).mpr ⟨e.1, e.2.1, e.2.2.1⟩)
  exact ⟨⟨1, "SUB", 0xFE00707F#32, 0x40000033#32, some 0xFE00707F#32⟩, by simp [opcodeRows, opRows], rfl, k, k⟩

theorem add (f7 : BitVec 7) (rd rs1 rs2 : RegIdx) : Statement (.add f7 rd rs1 rs2) := by
  intro _
  have e := canonical_R f7 rd rs1 rs2 (v := 0x00000033#32) (by decide) (by decide) rfl rfl rfl
  exact ⟨⟨2, "ADD", 0x0000707F#32, 0x00000033#32, some 0xFE00707F#32⟩, by simp [opcodeRows, opRows], rfl, e.1, e.2⟩

theorem xor (f7 : BitVec 7) (rd rs1 rs2 : RegIdx) : Statement (.xor f7 rd rs1 rs2) := by
  intro _
  have e := canonical_R f7 rd rs1 rs2 (v := 0x00004033#32) (by decide) (by decide) rfl rfl rfl
  exact ⟨⟨3, "XOR", 0x0000707F#32, 0x00004033#32, some 0xFE00707F#32⟩, by simp [opcodeRows, opRows], rfl, e.1, e.2⟩

theorem or (f7 : BitVec 7) (rd rs1 rs2 : RegIdx) : Statement (.or f7 rd rs1 rs2) := by
  intro _
  have e := canonical_R f7 rd rs1 rs2 (v := 0x00006033#32) (by decide) (by decide) rfl rfl rfl
  exact ⟨⟨4, "OR", 0x0000707F#32, 0x00006033#32, some 0xFE00707F#32⟩, by simp [opcodeRows, opRows], rfl, e.1, e.2⟩

theorem and (f7 : BitVec 7) (rd rs1 rs2 : RegIdx) : Statement (.and f7 rd rs1 rs2) := by
  intro _
  have e := canonical_R f7 rd rs1 rs2 (v := 0x00007033#32) (by decide) (by decide) rfl rfl rfl
  exact ⟨⟨5, "AND", 0x0000707F#32, 0x00007033#32, some 0xFE00707F#32⟩, by simp [opcodeRows, opRows], rfl, e.1, e.2⟩

theorem opF3_001 (f7 : BitVec 7) (rd rs1 rs2 : RegIdx) : Statement (.opF3_001 f7 rd rs1 rs2) := by
  intro _
  have e := fields_encodeR f7 rs2 rs1 rd (funct3Of 0x00001033#32) opcodeOp
  exact ⟨⟨6, "OP.F3_001", 0x0000707F#32, 0x00001033#32, none⟩, by simp [opcodeRows, opRows], rfl, covers_fields (by decide) e.1 e.2.1, rfl⟩

theorem opF3_010 (f7 : BitVec 7) (rd rs1 rs2 : RegIdx) : Statement (.opF3_010 f7 rd rs1 rs2) := by
  intro _
  have e := fields_encodeR f7 rs2 rs1 rd (funct3Of 0x00002033#32) opcodeOp
  exact ⟨⟨7, "OP.F3_010", 0x0000707F#32, 0x00002033#32, none⟩, by simp [opcodeRows, opRows], rfl, covers_fields (by decide) e.1 e.2.1, rfl⟩

theorem opF3_011 (f7 : BitVec 7) (rd rs1 rs2 : RegIdx) : Statement (.opF3_011 f7 rd rs1 rs2) := by
  intro _
  have e := fields_encodeR f7 rs2 rs1 rd (funct3Of 0x00003033#32) opcodeOp
  exact ⟨⟨8, "OP.F3_011", 0x0000707F#32, 0x00003033#32, none⟩, by simp [opcodeRows, opRows], rfl, covers_fields (by decide) e.1 e.2.1, rfl⟩

theorem opF3_101 (f7 : BitVec 7) (rd rs1 rs2 : RegIdx) : Statement (.opF3_101 f7 rd rs1 rs2) := by
  intro _
  have e := fields_encodeR f7 rs2 rs1 rd (funct3Of 0x00005033#32) opcodeOp
  exact ⟨⟨9, "OP.F3_101", 0x0000707F#32, 0x00005033#32, none⟩, by simp [opcodeRows, opRows], rfl, covers_fields (by decide) e.1 e.2.1, rfl⟩

theorem addi (rd rs1 : RegIdx) (imm : BitVec 12) : Statement (.addi rd rs1 imm) := by
  intro _
  have e := fields_encodeI rs1 rd (funct3Of 0x00000013#32) opcodeOpImm imm
  have k := covers_fields (v := 0x00000013#32) (by decide) e.1 e.2.1
  exact ⟨⟨10, "ADDI", 0x0000707F#32, 0x00000013#32, some 0x0000707F#32⟩, by simp [opcodeRows, opImmRows], rfl, k, k⟩

theorem xori (rd rs1 : RegIdx) (imm : BitVec 12) : Statement (.xori rd rs1 imm) := by
  intro _
  have e := fields_encodeI rs1 rd (funct3Of 0x00004013#32) opcodeOpImm imm
  have k := covers_fields (v := 0x00004013#32) (by decide) e.1 e.2.1
  exact ⟨⟨11, "XORI", 0x0000707F#32, 0x00004013#32, some 0x0000707F#32⟩, by simp [opcodeRows, opImmRows], rfl, k, k⟩

theorem ori (rd rs1 : RegIdx) (imm : BitVec 12) : Statement (.ori rd rs1 imm) := by
  intro _
  have e := fields_encodeI rs1 rd (funct3Of 0x00006013#32) opcodeOpImm imm
  have k := covers_fields (v := 0x00006013#32) (by decide) e.1 e.2.1
  exact ⟨⟨12, "ORI", 0x0000707F#32, 0x00006013#32, some 0x0000707F#32⟩, by simp [opcodeRows, opImmRows], rfl, k, k⟩

theorem andi (rd rs1 : RegIdx) (imm : BitVec 12) : Statement (.andi rd rs1 imm) := by
  intro _
  have e := fields_encodeI rs1 rd (funct3Of 0x00007013#32) opcodeOpImm imm
  have k := covers_fields (v := 0x00007013#32) (by decide) e.1 e.2.1
  exact ⟨⟨13, "ANDI", 0x0000707F#32, 0x00007013#32, some 0x0000707F#32⟩, by simp [opcodeRows, opImmRows], rfl, k, k⟩

theorem opImmF3_001 (rd rs1 : RegIdx) (imm : BitVec 12) : Statement (.opImmF3_001 rd rs1 imm) := by
  intro _
  have e := fields_encodeI rs1 rd (funct3Of 0x00001013#32) opcodeOpImm imm
  exact ⟨⟨14, "OP-IMM.F3_001", 0x0000707F#32, 0x00001013#32, none⟩, by simp [opcodeRows, opImmRows], rfl, covers_fields (by decide) e.1 e.2.1, rfl⟩

theorem opImmF3_010 (rd rs1 : RegIdx) (imm : BitVec 12) : Statement (.opImmF3_010 rd rs1 imm) := by
  intro _
  have e := fields_encodeI rs1 rd (funct3Of 0x00002013#32) opcodeOpImm imm
  exact ⟨⟨15, "OP-IMM.F3_010", 0x0000707F#32, 0x00002013#32, none⟩, by simp [opcodeRows, opImmRows], rfl, covers_fields (by decide) e.1 e.2.1, rfl⟩

theorem opImmF3_011 (rd rs1 : RegIdx) (imm : BitVec 12) : Statement (.opImmF3_011 rd rs1 imm) := by
  intro _
  have e := fields_encodeI rs1 rd (funct3Of 0x00003013#32) opcodeOpImm imm
  exact ⟨⟨16, "OP-IMM.F3_011", 0x0000707F#32, 0x00003013#32, none⟩, by simp [opcodeRows, opImmRows], rfl, covers_fields (by decide) e.1 e.2.1, rfl⟩

theorem opImmF3_101 (rd rs1 : RegIdx) (imm : BitVec 12) : Statement (.opImmF3_101 rd rs1 imm) := by
  intro _
  have e := fields_encodeI rs1 rd (funct3Of 0x00005013#32) opcodeOpImm imm
  exact ⟨⟨17, "OP-IMM.F3_101", 0x0000707F#32, 0x00005013#32, none⟩, by simp [opcodeRows, opImmRows], rfl, covers_fields (by decide) e.1 e.2.1, rfl⟩

theorem ld (rd rs1 : RegIdx) (imm : BitVec 12) : Statement (.ld rd rs1 imm) := by
  intro _
  have e := fields_encodeI rs1 rd (funct3Of 0x00003003#32) opcodeLoad imm
  have k := covers_fields (v := 0x00003003#32) (by decide) e.1 e.2.1
  exact ⟨⟨18, "LD", 0x0000707F#32, 0x00003003#32, some 0x0000707F#32⟩, by simp [opcodeRows, loadRows], rfl, k, k⟩

theorem loadF3_000 (rd rs1 : RegIdx) (imm : BitVec 12) : Statement (.loadF3_000 rd rs1 imm) := by
  intro _
  have e := fields_encodeI rs1 rd (funct3Of 0x00000003#32) opcodeLoad imm
  exact ⟨⟨19, "LOAD.F3_000", 0x0000707F#32, 0x00000003#32, none⟩, by simp [opcodeRows, loadRows], rfl, covers_fields (by decide) e.1 e.2.1, rfl⟩

theorem loadF3_001 (rd rs1 : RegIdx) (imm : BitVec 12) : Statement (.loadF3_001 rd rs1 imm) := by
  intro _
  have e := fields_encodeI rs1 rd (funct3Of 0x00001003#32) opcodeLoad imm
  exact ⟨⟨20, "LOAD.F3_001", 0x0000707F#32, 0x00001003#32, none⟩, by simp [opcodeRows, loadRows], rfl, covers_fields (by decide) e.1 e.2.1, rfl⟩

theorem loadF3_010 (rd rs1 : RegIdx) (imm : BitVec 12) : Statement (.loadF3_010 rd rs1 imm) := by
  intro _
  have e := fields_encodeI rs1 rd (funct3Of 0x00002003#32) opcodeLoad imm
  exact ⟨⟨21, "LOAD.F3_010", 0x0000707F#32, 0x00002003#32, none⟩, by simp [opcodeRows, loadRows], rfl, covers_fields (by decide) e.1 e.2.1, rfl⟩

theorem loadF3_100 (rd rs1 : RegIdx) (imm : BitVec 12) : Statement (.loadF3_100 rd rs1 imm) := by
  intro _
  have e := fields_encodeI rs1 rd (funct3Of 0x00004003#32) opcodeLoad imm
  exact ⟨⟨22, "LOAD.F3_100", 0x0000707F#32, 0x00004003#32, none⟩, by simp [opcodeRows, loadRows], rfl, covers_fields (by decide) e.1 e.2.1, rfl⟩

theorem loadF3_101 (rd rs1 : RegIdx) (imm : BitVec 12) : Statement (.loadF3_101 rd rs1 imm) := by
  intro _
  have e := fields_encodeI rs1 rd (funct3Of 0x00005003#32) opcodeLoad imm
  exact ⟨⟨23, "LOAD.F3_101", 0x0000707F#32, 0x00005003#32, none⟩, by simp [opcodeRows, loadRows], rfl, covers_fields (by decide) e.1 e.2.1, rfl⟩

theorem loadF3_110 (rd rs1 : RegIdx) (imm : BitVec 12) : Statement (.loadF3_110 rd rs1 imm) := by
  intro _
  have e := fields_encodeI rs1 rd (funct3Of 0x00006003#32) opcodeLoad imm
  exact ⟨⟨24, "LOAD.F3_110", 0x0000707F#32, 0x00006003#32, none⟩, by simp [opcodeRows, loadRows], rfl, covers_fields (by decide) e.1 e.2.1, rfl⟩

theorem loadF3_111 (rd rs1 : RegIdx) (imm : BitVec 12) : Statement (.loadF3_111 rd rs1 imm) := by
  intro _
  have e := fields_encodeI rs1 rd (funct3Of 0x00007003#32) opcodeLoad imm
  exact ⟨⟨25, "LOAD.F3_111", 0x0000707F#32, 0x00007003#32, none⟩, by simp [opcodeRows, loadRows], rfl, covers_fields (by decide) e.1 e.2.1, rfl⟩

theorem sd (rs1 rs2 : RegIdx) (imm : BitVec 12) : Statement (.sd rs1 rs2 imm) := by
  intro _
  have e := fields_encodeS rs2 rs1 (funct3Of 0x00003023#32) opcodeStore imm
  have k := covers_fields (v := 0x00003023#32) (by decide) e.1 e.2.1
  exact ⟨⟨26, "SD", 0x0000707F#32, 0x00003023#32, some 0x0000707F#32⟩, by simp [opcodeRows, storeRows], rfl, k, k⟩

theorem storeF3_000 (rs1 rs2 : RegIdx) (imm : BitVec 12) : Statement (.storeF3_000 rs1 rs2 imm) := by
  intro _
  have e := fields_encodeS rs2 rs1 (funct3Of 0x00000023#32) opcodeStore imm
  exact ⟨⟨27, "STORE.F3_000", 0x0000707F#32, 0x00000023#32, none⟩, by simp [opcodeRows, storeRows], rfl, covers_fields (by decide) e.1 e.2.1, rfl⟩

theorem storeF3_001 (rs1 rs2 : RegIdx) (imm : BitVec 12) : Statement (.storeF3_001 rs1 rs2 imm) := by
  intro _
  have e := fields_encodeS rs2 rs1 (funct3Of 0x00001023#32) opcodeStore imm
  exact ⟨⟨28, "STORE.F3_001", 0x0000707F#32, 0x00001023#32, none⟩, by simp [opcodeRows, storeRows], rfl, covers_fields (by decide) e.1 e.2.1, rfl⟩

theorem storeF3_010 (rs1 rs2 : RegIdx) (imm : BitVec 12) : Statement (.storeF3_010 rs1 rs2 imm) := by
  intro _
  have e := fields_encodeS rs2 rs1 (funct3Of 0x00002023#32) opcodeStore imm
  exact ⟨⟨29, "STORE.F3_010", 0x0000707F#32, 0x00002023#32, none⟩, by simp [opcodeRows, storeRows], rfl, covers_fields (by decide) e.1 e.2.1, rfl⟩

theorem storeF3_100 (rs1 rs2 : RegIdx) (imm : BitVec 12) : Statement (.storeF3_100 rs1 rs2 imm) := by
  intro _
  have e := fields_encodeS rs2 rs1 (funct3Of 0x00004023#32) opcodeStore imm
  exact ⟨⟨30, "STORE.F3_100", 0x0000707F#32, 0x00004023#32, none⟩, by simp [opcodeRows, storeRows], rfl, covers_fields (by decide) e.1 e.2.1, rfl⟩

theorem storeF3_101 (rs1 rs2 : RegIdx) (imm : BitVec 12) : Statement (.storeF3_101 rs1 rs2 imm) := by
  intro _
  have e := fields_encodeS rs2 rs1 (funct3Of 0x00005023#32) opcodeStore imm
  exact ⟨⟨31, "STORE.F3_101", 0x0000707F#32, 0x00005023#32, none⟩, by simp [opcodeRows, storeRows], rfl, covers_fields (by decide) e.1 e.2.1, rfl⟩

theorem storeF3_110 (rs1 rs2 : RegIdx) (imm : BitVec 12) : Statement (.storeF3_110 rs1 rs2 imm) := by
  intro _
  have e := fields_encodeS rs2 rs1 (funct3Of 0x00006023#32) opcodeStore imm
  exact ⟨⟨32, "STORE.F3_110", 0x0000707F#32, 0x00006023#32, none⟩, by simp [opcodeRows, storeRows], rfl, covers_fields (by decide) e.1 e.2.1, rfl⟩

theorem storeF3_111 (rs1 rs2 : RegIdx) (imm : BitVec 12) : Statement (.storeF3_111 rs1 rs2 imm) := by
  intro _
  have e := fields_encodeS rs2 rs1 (funct3Of 0x00007023#32) opcodeStore imm
  exact ⟨⟨33, "STORE.F3_111", 0x0000707F#32, 0x00007023#32, none⟩, by simp [opcodeRows, storeRows], rfl, covers_fields (by decide) e.1 e.2.1, rfl⟩

theorem beq (rs1 rs2 : RegIdx) (imm : BitVec 13) : Statement (.beq rs1 rs2 imm) := by
  intro h
  have e := fields_encodeB rs2 rs1 (funct3Of 0x00000063#32) opcodeBranch imm h
  have k := covers_fields (v := 0x00000063#32) (by decide) e.1 e.2.1
  exact ⟨⟨34, "BEQ", 0x0000707F#32, 0x00000063#32, some 0x0000707F#32⟩, by simp [opcodeRows, branchRows], rfl, k, k⟩

theorem bne (rs1 rs2 : RegIdx) (imm : BitVec 13) : Statement (.bne rs1 rs2 imm) := by
  intro h
  have e := fields_encodeB rs2 rs1 (funct3Of 0x00001063#32) opcodeBranch imm h
  have k := covers_fields (v := 0x00001063#32) (by decide) e.1 e.2.1
  exact ⟨⟨35, "BNE", 0x0000707F#32, 0x00001063#32, some 0x0000707F#32⟩, by simp [opcodeRows, branchRows], rfl, k, k⟩

theorem blt (rs1 rs2 : RegIdx) (imm : BitVec 13) : Statement (.blt rs1 rs2 imm) := by
  intro h
  have e := fields_encodeB rs2 rs1 (funct3Of 0x00004063#32) opcodeBranch imm h
  have k := covers_fields (v := 0x00004063#32) (by decide) e.1 e.2.1
  exact ⟨⟨36, "BLT", 0x0000707F#32, 0x00004063#32, some 0x0000707F#32⟩, by simp [opcodeRows, branchRows], rfl, k, k⟩

theorem bge (rs1 rs2 : RegIdx) (imm : BitVec 13) : Statement (.bge rs1 rs2 imm) := by
  intro h
  have e := fields_encodeB rs2 rs1 (funct3Of 0x00005063#32) opcodeBranch imm h
  have k := covers_fields (v := 0x00005063#32) (by decide) e.1 e.2.1
  exact ⟨⟨37, "BGE", 0x0000707F#32, 0x00005063#32, some 0x0000707F#32⟩, by simp [opcodeRows, branchRows], rfl, k, k⟩

theorem bltu (rs1 rs2 : RegIdx) (imm : BitVec 13) : Statement (.bltu rs1 rs2 imm) := by
  intro h
  have e := fields_encodeB rs2 rs1 (funct3Of 0x00006063#32) opcodeBranch imm h
  have k := covers_fields (v := 0x00006063#32) (by decide) e.1 e.2.1
  exact ⟨⟨38, "BLTU", 0x0000707F#32, 0x00006063#32, some 0x0000707F#32⟩, by simp [opcodeRows, branchRows], rfl, k, k⟩

theorem bgeu (rs1 rs2 : RegIdx) (imm : BitVec 13) : Statement (.bgeu rs1 rs2 imm) := by
  intro h
  have e := fields_encodeB rs2 rs1 (funct3Of 0x00007063#32) opcodeBranch imm h
  have k := covers_fields (v := 0x00007063#32) (by decide) e.1 e.2.1
  exact ⟨⟨39, "BGEU", 0x0000707F#32, 0x00007063#32, some 0x0000707F#32⟩, by simp [opcodeRows, branchRows], rfl, k, k⟩

theorem branchF3_010 (rs1 rs2 : RegIdx) (imm : BitVec 13) : Statement (.branchF3_010 rs1 rs2 imm) := by
  intro h
  have e := fields_encodeB rs2 rs1 (funct3Of 0x00002063#32) opcodeBranch imm h
  exact ⟨⟨40, "BRANCH.F3_010", 0x0000707F#32, 0x00002063#32, none⟩, by simp [opcodeRows, branchRows], rfl, covers_fields (by decide) e.1 e.2.1, rfl⟩

theorem branchF3_011 (rs1 rs2 : RegIdx) (imm : BitVec 13) : Statement (.branchF3_011 rs1 rs2 imm) := by
  intro h
  have e := fields_encodeB rs2 rs1 (funct3Of 0x00003063#32) opcodeBranch imm h
  exact ⟨⟨41, "BRANCH.F3_011", 0x0000707F#32, 0x00003063#32, none⟩, by simp [opcodeRows, branchRows], rfl, covers_fields (by decide) e.1 e.2.1, rfl⟩

theorem unsupported (inst : InstWord) : Statement (.unsupported inst) := by
  intro _
  refine ⟨⟨42, "UNSUPPORTED", 0x00000000#32, 0x00000000#32, none⟩, by simp [opcodeRows, otherRows], rfl, ?_, rfl⟩
  simp [OpcodeRow.covers]

end Sys2Proof.Laws.MatchesItsRow
end

