-- ==== Sys2Proof/Tests/Slice0.lean ====
section
/-! SUPPORT. The model's own tests and the witnesses of the statements' hypotheses. Every expected value is the
spec's: 95_test_vectors.md, by the vector's name, and the rules cited there. -/

namespace Sys2Proof.Tests

open Sys2Proof.Machine

/-! Helpers. -/

/-- Whether an outcome is a next state with a property. -/
def nextWith (o : Host.Outcome State Fault Refusal) (p : State → Bool) : Bool :=
  match o with
  | .next t => p t
  | .fault _ => false
  | .refused _ => false

/-- Whether an outcome is a fault with a property. -/
def faultWith (o : Host.Outcome State Fault Refusal) (p : Fault → Bool) : Bool :=
  match o with
  | .next _ => false
  | .fault f => p f
  | .refused _ => false

theorem next_of_nextWith {o : Host.Outcome State Fault Refusal} {p : State → Bool} (h : nextWith o p = true) :
    ∃ t, o = .next t ∧ p t = true := by
  cases o with
  | next t => exact ⟨t, rfl, h⟩
  | fault f => cases h
  | refused r => cases h

/-- The register file with some registers set, the others 0. -/
def regsOf (l : List (RegIdx × Word)) : Registers :=
  l.foldl (fun r p => regWrite r p.1 p.2) (Vector.replicate 31 0x0#64)

/-- The cache of the vectors: BLOCK_SIZE 16, NUM_SETS 4. -/
def vectorParams (enable : Bool) : Params := { blockBits := 4, setBits := 2, cacheEnable := enable }

/-- The setting of the vectors: a cold cache, memory all 0, the given pc and registers. -/
def start (enable : Bool) (pc : Word) (l : List (RegIdx × Word)) : State :=
  State.init (vectorParams enable) pc (regsOf l) []

/-- Bytes put into the backing store. -/
def withBytes (s : State) (a : Word) (bs : List Byte) : State := { s with mem := writeBytes s.mem a bs }

/-- One step on a word placed at the pc. -/
def run (s : State) (w : Nat) : Host.Outcome State Fault Refusal := step (s.withFetchWord 32 w)

/-- A step on `w` at 0x1000 leaves `v` in `x[r]` and the pc at 0x1004. -/
def gives (l : List (RegIdx × Word)) (w : Nat) (r : RegIdx) (v : Word) : Bool :=
  nextWith (run (start false 0x1000#64 l) w) fun t => t.x r == v && t.pc == 0x1004#64

/-! WellFormed: each check refuses an ill-formed term. -/

/-- ADD with the subtract mark is no term of any word (30_encoding.md R120). -/
theorem test_wf_add_with_subtract_mark : (Instr.add 0x20#7 3#5 1#5 2#5).wf = false := by decide

/-- Odd branch offsets are no word's (30_encoding.md R115). -/
theorem test_wf_odd_offsets :
    ([Instr.beq 1#5 2#5 1#13, .bne 1#5 2#5 3#13, .blt 1#5 2#5 5#13, .bge 1#5 2#5 7#13, .bltu 1#5 2#5 9#13,
      .bgeu 1#5 2#5 0x1FFF#13, .branchF3_010 1#5 2#5 11#13, .branchF3_011 1#5 2#5 0x1001#13].all fun i => !i.wf) =
      true := by decide

/-- UNSUPPORTED does not carry a word of a supported opcode (30_encoding.md R123). -/
theorem test_wf_unsupported_of_supported_opcode : (Instr.unsupported 0x00208863#32).wf = false := by decide

/-! Decode, for every constructor, from words of 95_test_vectors.md; one word of each format bit by bit. -/

/-- OP, V-R1 and V-R2: funct7, rs2, rs1, funct3, rd, opcode written out. -/
theorem test_decode_op :
    decodeWord 0b0000000_00010_00001_000_00011_0110011#32 = .add 0#7 3#5 1#5 2#5 ∧
    decodeWord 0b0100000_00010_00001_000_00011_0110011#32 = .sub 3#5 1#5 2#5 ∧
    decodeWord 0x0020C1B3#32 = .xor 0#7 3#5 1#5 2#5 ∧
    decodeWord 0x0020E1B3#32 = .or 0#7 3#5 1#5 2#5 ∧
    decodeWord 0x0020F1B3#32 = .and 0#7 3#5 1#5 2#5 ∧
    decodeWord 0x002091B3#32 = .opF3_001 0#7 3#5 1#5 2#5 ∧
    decodeWord 0x0020A1B3#32 = .opF3_010 0#7 3#5 1#5 2#5 ∧
    decodeWord 0x0020B1B3#32 = .opF3_011 0#7 3#5 1#5 2#5 ∧
    decodeWord 0x4020D1B3#32 = .opF3_101 0x20#7 3#5 1#5 2#5 ∧
    decodeWord 0x022081B3#32 = .add 1#7 3#5 1#5 2#5 := by decide

/-- OP-IMM, V-M1: imm, rs1, funct3, rd, opcode written out. -/
theorem test_decode_op_imm :
    decodeWord 0b111111111111_00001_000_00011_0010011#32 = .addi 3#5 1#5 0xFFF#12 ∧
    decodeWord 0x7FF0C193#32 = .xori 3#5 1#5 0x7FF#12 ∧
    decodeWord 0xF000E193#32 = .ori 3#5 1#5 0xF00#12 ∧
    decodeWord 0xFF00F193#32 = .andi 3#5 1#5 0xFF0#12 ∧
    decodeWord 0x00509193#32 = .opImmF3_001 3#5 1#5 5#12 ∧
    decodeWord 0xFFE0A193#32 = .opImmF3_010 3#5 1#5 0xFFE#12 ∧
    decodeWord 0xFFE0B193#32 = .opImmF3_011 3#5 1#5 0xFFE#12 ∧
    decodeWord 0x4030D193#32 = .opImmF3_101 3#5 1#5 0x403#12 := by decide

/-- LOAD, V-L1. -/
theorem test_decode_load :
    decodeWord 0b111111111000_00101_011_00111_0000011#32 = .ld 7#5 5#5 0xFF8#12 ∧
    decodeWord 0x00028383#32 = .loadF3_000 7#5 5#5 0#12 ∧
    decodeWord 0x00029383#32 = .loadF3_001 7#5 5#5 0#12 ∧
    decodeWord 0x0002A383#32 = .loadF3_010 7#5 5#5 0#12 ∧
    decodeWord 0x0002C383#32 = .loadF3_100 7#5 5#5 0#12 ∧
    decodeWord 0x0002D383#32 = .loadF3_101 7#5 5#5 0#12 ∧
    decodeWord 0x0002E383#32 = .loadF3_110 7#5 5#5 0#12 ∧
    decodeWord 0x0002F383#32 = .loadF3_111 7#5 5#5 0#12 := by decide

/-- STORE, V-S1: imm[11:5], rs2, rs1, funct3, imm[4:0], opcode written out. -/
theorem test_decode_store :
    decodeWord 0b1111111_00110_00101_011_10000_0100011#32 = .sd 5#5 6#5 0xFF0#12 ∧
    decodeWord 0x00628023#32 = .storeF3_000 5#5 6#5 0#12 ∧
    decodeWord 0x00629023#32 = .storeF3_001 5#5 6#5 0#12 ∧
    decodeWord 0x0062A423#32 = .storeF3_010 5#5 6#5 8#12 ∧
    decodeWord 0x0062C023#32 = .storeF3_100 5#5 6#5 0#12 ∧
    decodeWord 0x0062D023#32 = .storeF3_101 5#5 6#5 0#12 ∧
    decodeWord 0x0062E023#32 = .storeF3_110 5#5 6#5 0#12 ∧
    decodeWord 0x0062F023#32 = .storeF3_111 5#5 6#5 0#12 := by decide

/-- BRANCH, V-B1 and V-I1: imm[12], imm[10:5], rs2, rs1, funct3, imm[4:1], imm[11], opcode written out. -/
theorem test_decode_branch :
    decodeWord 0b0_000000_00010_00001_000_1000_0_1100011#32 = .beq 1#5 2#5 16#13 ∧
    decodeWord 0b0_000000_00000_00000_000_0000_1_1100011#32 = .beq 0#5 0#5 2048#13 ∧
    decodeWord 0xFE009CE3#32 = .bne 1#5 0#5 0x1FF8#13 ∧
    decodeWord 0x0020C463#32 = .blt 1#5 2#5 8#13 ∧
    decodeWord 0x0020D863#32 = .bge 1#5 2#5 16#13 ∧
    decodeWord 0x0020E463#32 = .bltu 1#5 2#5 8#13 ∧
    decodeWord 0x0020F863#32 = .bgeu 1#5 2#5 16#13 ∧
    decodeWord 0x0020A863#32 = .branchF3_010 1#5 2#5 16#13 ∧
    decodeWord 0x0020B863#32 = .branchF3_011 1#5 2#5 16#13 := by decide

/-- UNSUPPORTED, V-U1: neighbours of a supported opcode, all zeros, all ones, ECALL. -/
theorem test_decode_unsupported :
    decodeWord 0b00000000000000000000000000110010#32 = .unsupported 0x32#32 ∧
    decodeWord 0x00000034#32 = .unsupported 0x34#32 ∧
    decodeWord 0x00000000#32 = .unsupported 0#32 ∧
    decodeWord 0xFFFFFFFF#32 = .unsupported 0xFFFFFFFF#32 ∧
    decodeWord 0x00000073#32 = .unsupported 0x73#32 := by decide

/-- Bytes as they lie in memory, V-F1, and a list too short for a word. -/
theorem test_decode_bytes :
    decodeBytes [0xB3#8, 0x81#8, 0x20#8, 0x00#8, 0x7F#8] = .ok (.add 0#7 3#5 1#5 2#5, [0x7F#8]) ∧
    decodeBytes [0xB3#8, 0x81#8, 0x20#8] = .error .truncated ∧
    decodeTableWord 32 0x002081B3 = some (.add 0#7 3#5 1#5 2#5) := by
  refine ⟨rfl, rfl, ?_⟩
  decide

/-- V-I1, immediates: the extremes of each format. -/
theorem test_immediates :
    extractImmediate 0x7FF00013#32 = .ok 0x7FF#64 ∧ extractImmediate 0x80000013#32 = .ok 0xFFFFFFFFFFFFF800#64 ∧
    extractImmediate 0x7E003FA3#32 = .ok 0x7FF#64 ∧ extractImmediate 0x80003023#32 = .ok 0xFFFFFFFFFFFFF800#64 ∧
    extractImmediate 0x2A0004E3#32 = .ok 0xAA8#64 ∧ extractImmediate 0x800000E3#32 = .ok 0xFFFFFFFFFFFFF800#64 ∧
    extractImmediate 0xFFFFFFE3#32 = .ok 0xFFFFFFFFFFFFFFFE#64 ∧ extractImmediate 0xFFFFFFB3#32 = .ok 0#64 ∧
    extractImmediate 0x00000073#32 = .error 0x73#32 := by
  refine ⟨rfl, rfl, rfl, rfl, rfl, rfl, rfl, rfl, rfl⟩

/-! Reset. -/

/-- 70_reset_and_hazards.md R320: sets INVALID; x0 reads 0; the chosen values of log entries 1 to 3. -/
theorem test_reset :
    State.reset.pc = 0x1000#64 ∧ State.reset.x 0#5 = 0#64 ∧ State.reset.cache.length = 4 ∧
    (State.reset.cache.all fun c => c.state == .invalid) = true ∧ State.reset.mem = [] := by decide

/-! OP, V-R1 to V-R3. -/

theorem test_add : gives [(1#5, 0xFFFFFFFFFFFFFFFF#64), (2#5, 1#64)] 0x002081B3 3#5 0#64 = true := by decide
theorem test_add_funct7 : gives [(1#5, 0xFFFFFFFFFFFFFFFF#64), (2#5, 1#64)] 0x022081B3 3#5 0#64 = true := by decide
theorem test_sub : gives [(1#5, 1#64), (2#5, 2#64)] 0x402081B3 3#5 0xFFFFFFFFFFFFFFFF#64 = true := by decide
theorem test_sub_negate : gives [(1#5, 5#64)] 0x401001B3 3#5 0xFFFFFFFFFFFFFFFB#64 = true := by decide
theorem test_xor : gives [(1#5, 0xFF00FF00FF00FF00#64), (2#5, 0x0FF00FF00FF00FF0#64)] 0x0020C1B3 3#5
    0xF0F0F0F0F0F0F0F0#64 = true := by decide
theorem test_or : gives [(1#5, 0xFF00FF00FF00FF00#64), (2#5, 0x0FF00FF00FF00FF0#64)] 0x0020E1B3 3#5
    0xFFF0FFF0FFF0FFF0#64 = true := by decide
theorem test_and : gives [(1#5, 0xFF00FF00FF00FF00#64), (2#5, 0x0FF00FF00FF00FF0#64)] 0x0020F1B3 3#5
    0x0F000F000F000F00#64 = true := by decide
theorem test_op_f3_001 : gives [(1#5, 0xFFFFFFFFFFFFFFFF#64), (2#5, 1#64)] 0x002091B3 3#5 0#64 = true := by decide
theorem test_op_f3_010 : gives [(1#5, 0xFFFFFFFFFFFFFFFF#64), (2#5, 1#64)] 0x0020A1B3 3#5 0#64 = true := by decide
theorem test_op_f3_011 : gives [(1#5, 0xFFFFFFFFFFFFFFFF#64), (2#5, 1#64)] 0x0020B1B3 3#5 0#64 = true := by decide
theorem test_op_f3_101 : gives [(1#5, 0xFFFFFFFFFFFFFFFF#64), (2#5, 1#64)] 0x4020D1B3 3#5 0#64 = true := by decide

/-- V-R3: the destination is a source; rd = 0; the highest register numbers. -/
theorem test_register_corners :
    gives [(1#5, 0x4000000000000001#64)] 0x001080B3 1#5 0x8000000000000002#64 = true ∧
    gives [(1#5, 5#64), (2#5, 6#64)] 0x00208033 0#5 0#64 = true ∧
    gives [(31#5, 1#64), (30#5, 2#64)] 0x01EF8FB3 31#5 3#64 = true := by decide

/-! OP-IMM, V-M1. -/

theorem test_addi : gives [(1#5, 0x7FFFFFFFFFFFFFFF#64)] 0x7FF08193 3#5 0x80000000000007FE#64 = true := by decide
theorem test_addi_bit30 : gives [(1#5, 1#64)] 0x40008193 3#5 0x401#64 = true := by decide
theorem test_xori : gives [(1#5, 0xFFFFFFFFFFFFFFFF#64)] 0x7FF0C193 3#5 0xFFFFFFFFFFFFF800#64 = true := by decide
theorem test_ori : gives [(1#5, 0x12#64)] 0xF000E193 3#5 0xFFFFFFFFFFFFFF12#64 = true := by decide
theorem test_andi : gives [(1#5, 0x123456789ABCDEFF#64)] 0xFF00F193 3#5 0x123456789ABCDEF0#64 = true := by decide
theorem test_op_imm_f3_001 : gives [(1#5, 3#64)] 0x00509193 3#5 8#64 = true := by decide
theorem test_op_imm_f3_010 : gives [(1#5, 10#64)] 0xFFE0A193 3#5 8#64 = true := by decide
theorem test_op_imm_f3_011 : gives [(1#5, 10#64)] 0xFFE0B193 3#5 8#64 = true := by decide
theorem test_op_imm_f3_101 : gives [(1#5, 0x100#64)] 0x4030D193 3#5 0x503#64 = true := by decide

/-- V-B2: pc + 4 wraps. -/
theorem test_pc_wraps :
    nextWith (run (start false 0xFFFFFFFFFFFFFFFC#64 []) 0x00000013) (fun t => t.pc == 0#64) = true := by decide

/-! LOAD, V-L1: x5 = 0x2000, the bytes 11 22 33 44 55 66 77 88 there. -/

/-- A load of the vector's dword into x7. -/
def loads (enable : Bool) (w : Nat) : Bool :=
  nextWith (run (withBytes (start enable 0x1000#64 [(5#5, 0x2000#64), (7#5, 0xAA#64)]) 0x2000#64
      [0x11#8, 0x22#8, 0x33#8, 0x44#8, 0x55#8, 0x66#8, 0x77#8, 0x88#8]) w)
    fun t => t.x 7#5 == 0x8877665544332211#64 && t.pc == 0x1004#64

theorem test_ld : loads false 0x0002B383 = true := by decide
theorem test_load_f3_000 : loads false 0x00028383 = true := by decide
theorem test_load_f3_001 : loads false 0x00029383 = true := by decide
theorem test_load_f3_010 : loads true 0x0002A383 = true := by decide
theorem test_load_f3_100 : loads false 0x0002C383 = true := by decide
theorem test_load_f3_101 : loads true 0x0002D383 = true := by decide
theorem test_load_f3_110 : loads false 0x0002E383 = true := by decide
theorem test_load_f3_111 : loads false 0x0002F383 = true := by decide

/-- The address wraps below 0: x5 = 0, offset -8. -/
theorem test_ld_wraps :
    nextWith (run (withBytes (start false 0x1000#64 []) 0xFFFFFFFFFFFFFFF8#64
        [0x08#8, 0x07#8, 0x06#8, 0x05#8, 0x04#8, 0x03#8, 0x02#8, 0x01#8]) 0xFF82B383)
      (fun t => t.x 7#5 == 0x0102030405060708#64) = true := by decide

/-- An address that is no multiple of 8. -/
theorem test_ld_misaligned :
    faultWith (run (start false 0x1000#64 [(5#5, 0x2000#64)]) 0x0042B383) (· == .misalignedData 0x2004#64) = true := by
  decide

/-! STORE, V-S1: x5 = 0x2000, x6 = 0x0123456789ABCDEF. -/

/-- A store of x6 to `a`: the eight bytes at the backing store with the cache disabled, in what loads see with it
enabled, and the ninth byte untouched. -/
def stores (enable : Bool) (w : Nat) (a : Word) : Bool :=
  nextWith (run (withBytes (start enable 0x1000#64 [(5#5, 0x2000#64), (6#5, 0x0123456789ABCDEF#64)]) (a + 8#64) [0x5A#8])
      w)
    fun t => (if enable then (List.range 9).map (fun k => t.view (a + BitVec.ofNat 64 k)) else readBytes t.mem a 9) ==
      [0xEF#8, 0xCD#8, 0xAB#8, 0x89#8, 0x67#8, 0x45#8, 0x23#8, 0x01#8, 0x5A#8] && t.pc == 0x1004#64

theorem test_sd : stores false 0x0062B423 0x2008#64 = true := by decide
theorem test_store_f3_000 : stores false 0x00628023 0x2000#64 = true := by decide
theorem test_store_f3_001 : stores false 0x00629023 0x2000#64 = true := by decide
theorem test_store_f3_010 : stores false 0x0062A423 0x2008#64 = true := by decide
theorem test_store_f3_100 : stores true 0x0062C023 0x2000#64 = true := by decide
theorem test_store_f3_101 : stores false 0x0062D023 0x2000#64 = true := by decide
theorem test_store_f3_110 : stores false 0x0062E023 0x2000#64 = true := by decide
theorem test_store_f3_111 : stores false 0x0062F023 0x2000#64 = true := by decide

/-- V-T7 with the cache enabled: set 0 is filled, becomes DIRTY with tag 0x80, and the backing store keeps its
bytes. -/
theorem test_sd_cached :
    nextWith (run (start true 0x1000#64 [(5#5, 0x2000#64), (6#5, 0x0123456789ABCDEF#64)]) 0x0062B423)
      (fun t => (t.setAt 0#64).state == .dirty && (t.setAt 0#64).tag == 0x80#64 && t.backing 0x2008#64 == 0#8) =
      true := by decide

/-! BRANCH, V-B1 and V-B2. -/

/-- The next pc of a branch word at 0x2000. -/
def branches (a b : Word) (w : Nat) (t : Word) : Bool :=
  nextWith (run (start false 0x2000#64 [(1#5, a), (2#5, b)]) w) (fun s => s.pc == t)

theorem test_beq : branches 5#64 5#64 0x00208863 0x2010#64 = true ∧ branches 5#64 6#64 0x00208863 0x2004#64 = true := by
  decide
theorem test_bne : branches 1#64 2#64 0x00209863 0x2010#64 = true ∧ branches 0#64 0#64 0x00209863 0x2004#64 = true := by
  decide
theorem test_blt : branches 0xFFFFFFFFFFFFFFFF#64 0#64 0x0020C863 0x2010#64 = true ∧
    branches 0#64 0xFFFFFFFFFFFFFFFF#64 0x0020C863 0x2004#64 = true := by decide
theorem test_bge : branches 0x7FFFFFFFFFFFFFFF#64 0x8000000000000000#64 0x0020D863 0x2010#64 = true ∧
    branches 0x8000000000000000#64 0x7FFFFFFFFFFFFFFF#64 0x0020D863 0x2004#64 = true := by decide
theorem test_bltu : branches 0#64 0xFFFFFFFFFFFFFFFF#64 0x0020E863 0x2010#64 = true ∧
    branches 0xFFFFFFFFFFFFFFFF#64 0#64 0x0020E863 0x2004#64 = true := by decide
theorem test_bgeu : branches 0x8000000000000000#64 0x7FFFFFFFFFFFFFFF#64 0x0020F863 0x2010#64 = true ∧
    branches 1#64 2#64 0x0020F863 0x2004#64 = true := by decide
theorem test_branch_f3_010 : branches 0#64 0#64 0x0020A863 0x2004#64 = true := by decide
theorem test_branch_f3_011 : branches 1#64 2#64 0x0020B863 0x2004#64 = true := by decide

/-- V-B2: the farthest backward target, and a target that wraps below 0. -/
theorem test_branch_targets :
    branches 0#64 0#64 0x80000063 0x1000#64 = true ∧
    nextWith (run (start false 0#64 []) 0xFE000EE3) (fun t => t.pc == 0xFFFFFFFFFFFFFFFC#64) = true := by decide

/-! UNSUPPORTED, V-U1, and a fetch outside the precondition, V-F1. -/

theorem test_unsupported :
    faultWith (run (start false 0x1000#64 []) 0x00000073) (· == .unsupportedInstruction 0x1000#64 0x73#32) = true := by
  decide

theorem test_misaligned_fetch :
    faultWith (run (start false 0x1002#64 []) 0x00000013) (· == .misalignedFetch 0x1002#64) = true := by decide

/-- V-F1, traffic: four ascending reads for an instruction without a data access, none at 0x1002. -/
theorem test_fetch_traffic :
    stepCalls (start false 0x1000#64 []) =
      [.readByte 0x1000#64, .readByte 0x1001#64, .readByte 0x1002#64, .readByte 0x1003#64] ∧
    stepCalls (start false 0x1002#64 []) = [] := by decide

/-! The cache, V-C1 to V-C6. -/

/-- V-C1: three rows, at three sizes. -/
theorem test_address_split :
    tagOf (vectorParams true) 0x0123456789ABCDE8#64 = 0x48D159E26AF37#64 ∧
    setIndexOf (vectorParams true) 0x0123456789ABCDE8#64 = 2#64 ∧
    offsetOf (vectorParams true) 0x0123456789ABCDE8#64 = 8#64 ∧
    tagOf ⟨6, 8, true⟩ 0x12345678#64 = 0x48D1#64 ∧ setIndexOf ⟨6, 8, true⟩ 0x12345678#64 = 89#64 ∧
    offsetOf ⟨6, 8, true⟩ 0x12345678#64 = 56#64 ∧ tagOf ⟨3, 0, true⟩ 0xFFFFFFFFFFFFFFF8#64 = 0x1FFFFFFFFFFFFFFF#64 ∧
    setIndexOf ⟨3, 0, true⟩ 0xFFFFFFFFFFFFFFF8#64 = 0#64 := by decide

/-- V-C3, the three steps: the value survives an eviction by a read. -/
theorem test_eviction_by_read :
    let s1 := memWrite (start true 0#64 []) 0x2008#64 0xDEADBEEFCAFEF00D#64
    let s2 := (memRead s1 0x2048#64).1
    requestCalls s1 0x2048#64 = writeCalls 0x2000#64 (List.replicate 8 0#8 ++ dwordBytes 0xDEADBEEFCAFEF00D#64) ++
      readCalls 0x2040#64 16 ∧
    readBytes s2.mem 0x2008#64 8 = [0x0D#8, 0xF0#8, 0xFE#8, 0xCA#8, 0xEF#8, 0xBE#8, 0xAD#8, 0xDE#8] ∧
    (s2.setAt 0#64).state = .clean ∧ (s2.setAt 0#64).tag = 0x81#64 ∧
    (memRead s2 0x2008#64).2 = 0xDEADBEEFCAFEF00D#64 := by decide

/-- V-C5, the smallest cache, step 2: a write evicts a DIRTY block. -/
theorem test_smallest_cache :
    let s1 := memWrite (State.init ⟨3, 0, true⟩ 0#64 (regsOf []) []) 0x100#64 0xAAAA#64
    let s2 := memWrite s1 0x108#64 0xBBBB#64
    requestCalls s1 0x108#64 = writeCalls 0x100#64 (dwordBytes 0xAAAA#64) ++ readCalls 0x108#64 8 ∧
    (s2.setAt 0#64).state = .dirty ∧ (s2.setAt 0#64).tag = 0x21#64 ∧ (memRead s2 0x100#64).2 = 0xAAAA#64 := by decide

/-- V-C6, the widest tag: the writeback address is rebuilt from it. -/
theorem test_widest_tag :
    let s1 := memWrite (start true 0#64 []) 0xFFFFFFFFFFFFFFF8#64 0x77#64
    let s2 := (memRead s1 0x38#64).1
    (s1.setAt 3#64).tag = 0x3FFFFFFFFFFFFFF#64 ∧ s2.backing 0xFFFFFFFFFFFFFFF8#64 = 0x77#8 ∧
    (memRead s2 0xFFFFFFFFFFFFFFF8#64).2 = 0x77#64 := by decide

/-! Witnesses: for each statement of Certificates/Slice0/Obligations.lean with hypotheses, states and operands that
meet them together, each clause at a boundary of its range. -/

/-- `MachineInv`, as a check. -/
def invCheck (s : State) : Bool :=
  decide s.params.wf && decide s.mem.wf && s.cache.length == s.params.numSets &&
    (s.cache.all fun c => c.data.length == s.params.blockSize &&
      decide (c.tag.toNat < 2 ^ (64 - s.params.blockBits - s.params.setBits))) &&
    ((List.range s.params.numSets).all fun i =>
      (s.setAt (BitVec.ofNat 64 i)).state != .clean || (List.range s.params.blockSize).all fun k =>
        (s.setAt (BitVec.ofNat 64 i)).data[k]? ==
          some (s.backing (reconstruct s.params (s.setAt (BitVec.ofNat 64 i)).tag (BitVec.ofNat 64 i) (BitVec.ofNat 64 k)))) &&
    (s.params.cacheEnable || s.cache.all fun c => c.state == .invalid)

theorem inv_of_check {s : State} (h : invCheck s = true) : MachineInv s := by
  simp only [invCheck, Bool.and_eq_true, decide_eq_true_eq, beq_iff_eq, List.all_eq_true, Bool.or_eq_true, bne_iff_ne,
    List.mem_range] at h
  obtain ⟨⟨⟨⟨⟨h1, h2⟩, h3⟩, h4⟩, h5⟩, h6⟩ := h
  refine ⟨h1, h2, ⟨h3, fun c hc => (h4 c hc).1, fun c hc => (h4 c hc).2⟩, fun i hi hc k hk => ?_, fun he c hc => ?_⟩
  · have := h5 i.toNat hi
    rw [BitVec.ofNat_toNat, BitVec.setWidth_eq] at this
    rcases this with h | h
    · exact absurd hc h
    · exact h k hk
  · rcases h6 with h | h
    · rw [he] at h
      cases h
    · exact h c hc

/-- Registers of the witnesses: x1 = -1, x2 = 1, x5 = 0x2000, x6 = 0x0123456789ABCDEF, x8 = 0x2040, x9 = 0x2010. -/
def someRegs : Registers :=
  regsOf [(1#5, 0xFFFFFFFFFFFFFFFF#64), (2#5, 1#64), (5#5, 0x2000#64), (6#5, 0x0123456789ABCDEF#64), (8#5, 0x2040#64),
    (9#5, 0x2010#64)]

/-- A cache in which set 0 is DIRTY, set 1 CLEAN, set 2 INVALID, and set 3 DIRTY with the highest tag. -/
def warm : State :=
  { params := vectorParams true, pc := 0x1000#64, regs := someRegs, mem := writeBytes [] 0x2013#64 [0x77#8],
    cache := [
      { state := .dirty, tag := 0x80#64, data := List.replicate 16 0xD0#8 },
      { state := .clean, tag := 0x80#64, data := [0#8, 0#8, 0#8, 0x77#8] ++ List.replicate 12 0#8 },
      { state := .invalid, tag := 0x7#64, data := List.replicate 16 0x1#8 },
      { state := .dirty, tag := 0x3FFFFFFFFFFFFFF#64, data := List.replicate 16 0xD3#8 }] }

/-- The cache disabled. -/
def bare : State := { start false 0x1000#64 [] with regs := someRegs }

/-- The cache enabled, every set INVALID. -/
def cold : State := { start true 0x1000#64 [] with regs := someRegs }

theorem warm_inv : MachineInv warm := inv_of_check (by decide)
theorem bare_inv : MachineInv bare := inv_of_check (by decide)
theorem cold_inv : MachineInv cold := inv_of_check (by decide)

/-- `warm` with a word at the pc. -/
def warmAt (w : Nat) : State := warm.withFetchWord 32 w

theorem witness_DecodeOfEncodeIsTheInstruction :
    (Instr.add 0x7F#7 31#5 0#5 31#5).wf = true ∧ (Instr.beq 31#5 0#5 0x1000#13).wf = true ∧
    (Instr.bgeu 0#5 31#5 0xFFE#13).wf = true ∧ (Instr.sd 31#5 31#5 0x800#12).wf = true ∧
    (Instr.unsupported 0xFFFFFFFF#32).wf = true := by decide

theorem witness_FirstMatchingRowIsDecoded :
    (opcodeRows.filter fun r => r.covers 0x402081B3#32).map (·.mnemonic) = ["SUB", "ADD", "UNSUPPORTED"] := by decide

theorem witness_DecodeFailsOnOpcodeAlone :
    opcodeOf 0xFFFFFFB3#32 ∈ [opcodeOp, opcodeOpImm, opcodeLoad, opcodeStore, opcodeBranch] ∧
    opcodeOf 0x00000032#32 ∉ [opcodeOp, opcodeOpImm, opcodeLoad, opcodeStore, opcodeBranch] := by decide

theorem witness_ImmediateOfEveryWord :
    opcodeOf 0xFFFFFFB3#32 = opcodeOp ∧ opcodeOf 0x80000013#32 = opcodeOpImm ∧ opcodeOf 0xFFFFFF83#32 = opcodeLoad ∧
    opcodeOf 0x7E003FA3#32 = opcodeStore ∧ opcodeOf 0x80000063#32 = opcodeBranch ∧
    opcodeSupported (opcodeOf 0x73#32) = false := by decide

/-- The ranges of the bit-field and sign-extension statements: one bit, the whole word, both widths' ends. -/
theorem witness_BitFieldExtraction :
    ((0 : Nat) ≤ 31 ∧ (31 : Nat) ≤ 31) ∧ ((0 : Nat) ≤ 0 ∧ (0 : Nat) ≤ 31) ∧
    (extractBits 0x80000000#32 31 31).toNat = 1 ∧ (extractBits 0x80000000#32 31 0).toNat = 0x80000000 := by decide

theorem witness_SignExtensionByTopBit :
    (0 < 1 ∧ 1 ≤ 64 ∧ (1#1).getLsbD 0 = true) ∧ (0 < 64 ∧ 64 ≤ 64 ∧ (0x8000000000000000#64).getLsbD 63 = true) ∧
    (0x7FF#12).getLsbD 11 = false := by decide

/-- `decodeStage` answers a micro-op with a property. -/
def decodes (f : FetchOut) (r : Registers) (p : MicroOp → Bool) : Bool :=
  match decodeStage f r with
  | .ok u => p u
  | .error _ => false

theorem ok_of_decodes {f : FetchOut} {r : Registers} {p : MicroOp → Bool} (h : decodes f r p = true) :
    ∃ u, decodeStage f r = .ok u ∧ p u = true := by
  unfold decodes at h
  cases e : decodeStage f r with
  | ok u =>
    rw [e] at h
    exact ⟨u, rfl, h⟩
  | error _ =>
    rw [e] at h
    cases h

/-- `sub x3, x0, x1` and `addi x3, x1, 0`: index 0 at each port, and another index at each. -/
theorem witness_RegisterReadPorts :
    (∃ u, decodeStage (fetchStage (warmAt 0x401001B3)) (warmAt 0x401001B3).regs = .ok u ∧
      (u.rs1Val == 0#64 && u.rs2Val == 0xFFFFFFFFFFFFFFFF#64) = true) ∧
    (∃ u, decodeStage (fetchStage (warmAt 0x00008193)) (warmAt 0x00008193).regs = .ok u ∧
      (u.rs1Val == 0xFFFFFFFFFFFFFFFF#64 && u.rs2Val == 0#64) = true) :=
  ⟨ok_of_decodes (by decide), ok_of_decodes (by decide)⟩

/-- A memory-stage input with the given flags and address. -/
def agexWith (re we : Bool) (a : Word) : AgexOut :=
  { pc := 0x1000#64, rd := 7#5, rs2Val := 0x55#64, wbSrc := .mem, regWe := true, memRe := re, memWe := we,
    aluResult := a, pcSrc := .pc4 }

/-- Whether the memory stage answers. -/
def memoryOk (s : State) (x : AgexOut) : Bool :=
  match memoryStage s x with
  | .ok _ => true
  | .error _ => false

theorem ok_of_memoryOk {s : State} {x : AgexOut} (h : memoryOk s x = true) :
    ∃ s' m, memoryStage s x = .ok (s', m) := by
  unfold memoryOk at h
  cases e : memoryStage s x with
  | ok p => exact ⟨p.1, p.2, rfl⟩
  | error _ =>
    rw [e] at h
    cases h

theorem witness_WritebackCommitsOneRegister :
    ∃ s' m, memoryStage warm (agexWith true true 0xFFFFFFFFFFFFFFF8#64) = .ok (s', m) := ok_of_memoryOk (by decide)

/-- rd = 0 and rd = 31, in an R-type, a load and a store. -/
theorem witness_ZeroDestinationDisablesWrite :
    (∃ u, decodeStage { pc := 0#64, inst := 0x00208033#32 } someRegs = .ok u ∧ (u.rd == 0#5) = true) ∧
    (∃ u, decodeStage { pc := 0#64, inst := 0xFFFFFF83#32 } someRegs = .ok u ∧ (u.rd == 31#5 && u.regWe) = true) ∧
    (∃ u, decodeStage { pc := 0#64, inst := 0x0062B423#32 } someRegs = .ok u ∧ (u.rd != 0#5 && !u.regWe) = true) :=
  ⟨ok_of_decodes (by decide), ok_of_decodes (by decide), ok_of_decodes (by decide)⟩

/-- A branch of each kind of condition, and a word of another class. -/
theorem witness_NoWordDecodesToAlways :
    (∃ u, decodeStage { pc := 0#64, inst := 0x00208863#32 } someRegs = .ok u ∧ (u.brCond == .eq) = true) ∧
    (∃ u, decodeStage { pc := 0#64, inst := 0x0020B863#32 } someRegs = .ok u ∧ (u.brCond == .never) = true) ∧
    (∃ u, decodeStage { pc := 0#64, inst := 0x002081B3#32 } someRegs = .ok u ∧ (u.brCond == .never) = true) :=
  ⟨ok_of_decodes (by decide), ok_of_decodes (by decide), ok_of_decodes (by decide)⟩

/-- V-X: `blt x1, x2, 8` at 0x1000 is taken, to 0x1008. -/
theorem witness_AgexOperandsAndSelector :
    (∃ u, decodeStage { pc := 0x1000#64, inst := 0x0020C463#32 } someRegs = .ok u ∧
      ((agexStage u).aluResult == 0x1008#64 && (agexStage u).pcSrc == .alu) = true) ∧
    (∃ u, decodeStage { pc := 0x1000#64, inst := 0x002081B3#32 } someRegs = .ok u ∧
      ((agexStage u).pcSrc == .pc4) = true) := ⟨ok_of_decodes (by decide), ok_of_decodes (by decide)⟩

/-- Each combination of the flags, at the lowest and the highest aligned address, and neither flag at an address that
is not aligned. -/
theorem witness_MemoryStageChecksEachFlag :
    ([agexWith true false 0#64, agexWith false true 0xFFFFFFFFFFFFFFF8#64, agexWith true true 8#64,
      agexWith false false 1#64].all fun x => !(x.memRe || x.memWe) || aligned8 x.aluResult) = true := by decide

theorem witness_BothFlagsReadBeforeWrite :
    MachineInv warm ∧ (agexWith true true 0x2040#64).memRe = true ∧ (agexWith true true 0x2040#64).memWe = true ∧
    aligned8 (agexWith true true 0x2040#64).aluResult = true := ⟨warm_inv, rfl, rfl, by decide⟩

theorem witness_RegisterRegisterWords : opcodeOf 0xFFFFFFB3#32 = opcodeOp ∧ opcodeOf 0x00000033#32 = opcodeOp := by
  decide

theorem witness_RegisterImmediateWords :
    opcodeOf 0xFFFFFF93#32 = opcodeOpImm ∧ opcodeOf 0x80000013#32 = opcodeOpImm := by decide

/-- A hit on a DIRTY set, a hit on a CLEAN one, an INVALID set, an eviction, the cache disabled. -/
theorem witness_EveryLoadCompletes :
    MachineInv warm ∧ aligned8 (dataAddr warm 5#5 8#12) = true ∧ aligned8 (dataAddr warm 9#5 0#12) = true ∧
    aligned8 (dataAddr warm 5#5 0x20#12) = true ∧ aligned8 (dataAddr warm 8#5 0#12) = true ∧
    warm.evicts (dataAddr warm 8#5 0#12) = true ∧ warm.cached (dataAddr warm 5#5 8#12) = true ∧
    MachineInv bare ∧ aligned8 (dataAddr bare 0#5 0xFF8#12) = true :=
  ⟨warm_inv, by decide, by decide, by decide, by decide, by decide, by decide, bare_inv, by decide⟩

theorem witness_EveryStoreCompletes :
    MachineInv warm ∧ aligned8 (dataAddr warm 8#5 8#12) = true ∧ warm.evicts (dataAddr warm 8#5 8#12) = true ∧
    MachineInv bare ∧ aligned8 (dataAddr bare 0#5 0xFF8#12) = true :=
  ⟨warm_inv, by decide, by decide, bare_inv, by decide⟩

theorem witness_LoadAndStoreWordsIgnoreFunct3 :
    opcodeOf 0xFFFFFF83#32 = opcodeLoad ∧ opcodeOf 0xFFFFFFA3#32 = opcodeStore := by decide

theorem witness_MisalignedDataAccessStops :
    (dataAddr warm 5#5 1#12).toNat % 8 ≠ 0 ∧ (dataAddr warm 0#5 0xFFF#12).toNat % 8 ≠ 0 := by decide

theorem witness_BranchWords : opcodeOf 0xFFFFFFE3#32 = opcodeBranch ∧ opcodeOf 0x80000063#32 = opcodeBranch := by
  decide

/-- Each condition true of one pair of registers and false of another: x1 = -1, x2 = 1. -/
theorem witness_SixBranchesTakenExactlyWhen :
    (warm.x 1#5 = warm.x 1#5 ∧ ¬warm.x 1#5 = warm.x 2#5) ∧ (warm.x 1#5 ≠ warm.x 2#5) ∧
    ((warm.x 1#5).toInt < (warm.x 2#5).toInt ∧ ¬(warm.x 2#5).toInt < (warm.x 1#5).toInt) ∧
    ((warm.x 1#5).toInt ≤ (warm.x 2#5).toInt ∧ ¬(warm.x 2#5).toInt ≤ (warm.x 1#5).toInt) ∧
    ((warm.x 2#5).toNat < (warm.x 1#5).toNat ∧ ¬(warm.x 1#5).toNat < (warm.x 2#5).toNat) ∧
    ((warm.x 2#5).toNat ≤ (warm.x 1#5).toNat ∧ ¬(warm.x 1#5).toNat ≤ (warm.x 2#5).toNat) := by decide

theorem witness_ReservedBranchSlotsNeverTaken :
    0xFFFFAFE3#32 &&& 0x0000707F#32 = 0x00002063#32 ∧ 0xFFFFBFE3#32 &&& 0x0000707F#32 = 0x00003063#32 := by decide

theorem witness_OtherOpcodesRaiseUnsupported :
    opcodeOf 0x00000032#32 ∉ [0x33#7, 0x13#7, 0x03#7, 0x23#7, 0x63#7] ∧
    opcodeOf 0xFFFFFFFF#32 ∉ [0x33#7, 0x13#7, 0x03#7, 0x23#7, 0x63#7] := by decide

theorem witness_AbsentRiscvOpcodes : (0#7).extractLsb 1 0 ≠ 3#2 ∧ (0x7E#7).extractLsb 1 0 ≠ 3#2 := by decide

theorem witness_StepRunsTheFetchedInstruction :
    (warmAt 0x0062B423).params.wf ∧ aligned4 (warmAt 0x0062B423).pc = true ∧
    decodeBytes ((List.range 4).map fun k => (warmAt 0x0062B423).backing ((warmAt 0x0062B423).pc + BitVec.ofNat 64 k)) =
      .ok (.sd 5#5 6#5 8#12, []) := ⟨by decide, by decide, rfl⟩

/-- The parameters just outside the spec's bounds, and a pc off by 2. -/
theorem witness_StepStopsBeforeTheFetch :
    ¬(3 ≤ (Params.mk 2 0 true).blockBits ∧ (Params.mk 2 0 true).blockBits + (Params.mk 2 0 true).setBits < 64) ∧
    ¬(3 ≤ (Params.mk 32 32 true).blockBits ∧ (Params.mk 32 32 true).blockBits + (Params.mk 32 32 true).setBits < 64) ∧
    (start true 0x1002#64 []).params.wf ∧ (start true 0x1002#64 []).pc.toNat % 4 ≠ 0 := by decide

theorem witness_StepCompletesExactlyWhenReady :
    Ready (warmAt 0x0062B423) ∧ ¬Ready (warmAt 0x00000073) ∧ ∃ t, step (warmAt 0x0062B423) = .next t := by
  refine ⟨⟨by decide, by decide, by decide, by decide⟩, fun h => absurd h.2.2.1 (by decide), ?_⟩
  obtain ⟨t, h, -⟩ := next_of_nextWith (o := step (warmAt 0x0062B423)) (p := fun _ => true) (by decide)
  exact ⟨t, h⟩

theorem witness_OrdinaryInstructionsAreExceptionFree : ∀ w, Instr.ld 7#5 5#5 4#12 ≠ .unsupported w := by
  intro w h
  cases h

/-- The smallest and the largest legal parameters. -/
theorem witness_InvariantHoldsAfterReset :
    (Params.mk 3 0 false).wf ∧ (Params.mk 60 3 true).wf ∧ Memory.wf [(0, 0x1#8), (2 ^ 64 - 1, 0xFF#8)] := by decide

/-- A load that evicts: every part of the invariant is at work. -/
theorem witness_EveryStepKeepsTheInvariant :
    MachineInv (warmAt 0x00043383) ∧ ∃ t, step (warmAt 0x00043383) = .next t ∧
      (t.setAt 0#64 != warm.setAt 0#64 && t.mem != (warmAt 0x00043383).mem) = true :=
  ⟨inv_of_check (by decide), next_of_nextWith (by decide)⟩

/-- Falling through; a taken branch; a taken branch whose target has bit 1 set. -/
theorem witness_NextPcIsFallThroughOrTarget :
    (∃ t, step (warmAt 0x00000013) = .next t ∧ (t.pc == 0x1004#64) = true) ∧
    (∃ t, step (warmAt 0x80000063) = .next t ∧ (t.pc == 0x0#64) = true) ∧
    (∃ t, step (warmAt 0x00000163) = .next t ∧ (t.pc.toNat % 4 != 0) = true) :=
  ⟨next_of_nextWith (by decide), next_of_nextWith (by decide), next_of_nextWith (by decide)⟩

/-- `addi x31, x2, 1` and `ld x31, 8(x5)`. -/
theorem witness_OnlyTheDestinationRegisterChanges :
    (∃ t, step (warmAt 0x00110F93) = .next t ∧ (t.x 31#5 != (warmAt 0x00110F93).x 31#5) = true) ∧
    (∃ t, step (warmAt 0x0082BF83) = .next t ∧ (t.x 31#5 != (warmAt 0x0082BF83).x 31#5) = true) :=
  ⟨next_of_nextWith (by decide), next_of_nextWith (by decide)⟩

theorem witness_ParametersAndDisabledCacheStay :
    (bare.withFetchWord 32 0x0062B423).params.cacheEnable = false ∧
    ∃ t, step (bare.withFetchWord 32 0x0062B423) = .next t ∧ (t.mem != (bare.withFetchWord 32 0x0062B423).mem) = true :=
  ⟨rfl, next_of_nextWith (by decide)⟩

theorem witness_ParkingBranchRepeatsForEver :
    (warmAt 0x00000063).params.wf ∧ aligned4 (warmAt 0x00000063).pc = true ∧
    fetchRead (warmAt 0x00000063) (warmAt 0x00000063).pc = 0x00000063#32 := by decide

/-- Legal parameters with and without set bits, at both ends. -/
theorem witness_AddressSplitsIntoFields : (Params.mk 3 0 true).wf ∧ (Params.mk 3 60 true).wf := by decide

/-- The highest fields of the smallest and of a larger cache. -/
theorem witness_AddressRoundTrip :
    (0x1FFFFFFFFFFFFFFF#64).toNat < 2 ^ (64 - 3 - 0) ∧ (0#64).toNat < (Params.mk 3 0 true).numSets ∧
    (7#64).toNat < (Params.mk 3 0 true).blockSize ∧ (0x3FFFFFFFFFFFFFF#64).toNat < 2 ^ (64 - 4 - 2) ∧
    (3#64).toNat < (vectorParams true).numSets ∧ (15#64).toNat < (vectorParams true).blockSize := by decide

/-- A row each: INVALID, CLEAN hit, CLEAN miss, DIRTY hit, DIRTY miss. -/
theorem witness_CacheTransitionTable :
    MachineInv warm ∧ warm.params.cacheEnable = true ∧
    ((warm.setFor 0x2020#64).state = .invalid ∧ aligned8 0x2020#64 = true) ∧
    ((warm.setFor 0x2018#64).state = .clean ∧ (warm.setFor 0x2018#64).tag = tagOf warm.params 0x2018#64) ∧
    ((warm.setFor 0x10#64).state = .clean ∧ (warm.setFor 0x10#64).tag ≠ tagOf warm.params 0x10#64) ∧
    ((warm.setFor 0xFFFFFFFFFFFFFFF8#64).state = .dirty ∧
      (warm.setFor 0xFFFFFFFFFFFFFFF8#64).tag = tagOf warm.params 0xFFFFFFFFFFFFFFF8#64) ∧
    ((warm.setFor 0x38#64).state = .dirty ∧ (warm.setFor 0x38#64).tag ≠ tagOf warm.params 0x38#64) :=
  ⟨warm_inv, by decide, by decide, by decide, by decide, by decide, by decide⟩

theorem witness_NoWritebackUnlessDirty :
    warm.params.cacheEnable = true ∧ (warm.setFor 0x10#64).state ≠ .dirty ∧ (warm.setFor 0x2020#64).state ≠ .dirty := by
  decide

theorem witness_WritebackGoesToTheStoredTag :
    MachineInv warm ∧ warm.evicts 0x38#64 = true ∧ aligned8 0x38#64 = true ∧ warm.evicts 0x2040#64 = true ∧
    aligned8 0x2040#64 = true := ⟨warm_inv, by decide, by decide, by decide, by decide⟩

theorem witness_DirtyDataSurvivesEviction :
    MachineInv cold ∧ cold.params.cacheEnable = true ∧ aligned8 0x2008#64 = true ∧ aligned8 0x2048#64 = true ∧
    setIndexOf cold.params 0x2048#64 = setIndexOf cold.params 0x2008#64 ∧
    tagOf cold.params 0x2048#64 ≠ tagOf cold.params 0x2008#64 :=
  ⟨cold_inv, by decide, by decide, by decide, by decide, by decide⟩

/-- A store at 0x2040, which evicts; the same address loaded, and another. -/
theorem witness_LoadAfterStore :
    MachineInv warm ∧ Instr.storeF3_000 8#5 6#5 0#12 ∈ storeForms 8#5 6#5 0#12 ∧
    Instr.loadF3_111 7#5 5#5 0x40#12 ∈ loadForms 7#5 5#5 0x40#12 ∧
    (∃ t, exec (.storeF3_000 8#5 6#5 0#12) warm = .next t ∧ (t.pc == 0x1004#64) = true) ∧
    aligned8 (dataAddr warm 5#5 0x40#12) = true ∧ aligned8 (dataAddr warm 5#5 0x48#12) = true ∧
    dataAddr warm 5#5 0x40#12 = dataAddr warm 8#5 0#12 ∧ dataAddr warm 5#5 0x48#12 ≠ dataAddr warm 8#5 0#12 :=
  ⟨warm_inv, by decide, by decide, next_of_nextWith (by decide), by decide, by decide, by decide, by decide⟩

/-- No set of a cold cache holds an address. -/
theorem cold_not_cached (a : Word) : ¬ cold.cached a = true := by
  intro h
  refine ((cold.cached_iff a).mp h).2.1 ?_
  unfold State.setFor State.setAt
  rw [show cold.cache = List.replicate 4 (invalidSet (vectorParams true)) from rfl, List.getElem?_replicate]
  split <;> rfl

/-- A store made with the cache enabled, which leaves a DIRTY set, and the same store with the cache disabled: the
backing stores differ, what loads see does not. -/
theorem witness_CacheIsTransparentToLoadsAndStores :
    SameToLoads (memWrite cold 0x2000#64 0x55#64) (memWrite bare 0x2000#64 0x55#64) ∧
    fetchRead (memWrite cold 0x2000#64 0x55#64) 0x1000#64 = fetchRead (memWrite bare 0x2000#64 0x55#64) 0x1000#64 ∧
    (memWrite cold 0x2000#64 0x55#64).mem ≠ (memWrite bare 0x2000#64 0x55#64).mem := by
  have c := memWrite_spec cold_inv (show aligned8 0x2000#64 = true by decide) 0x55#64
  have b := memWrite_spec bare_inv (show aligned8 0x2000#64 = true by decide) 0x55#64
  refine ⟨⟨?_, ?_, c.inv, b.inv, fun r => ?_, ?_, fun a => ?_⟩, by decide, by decide⟩
  · rw [c.params]
    rfl
  · rw [b.params]
    rfl
  · unfold State.x
    rw [c.regs, b.regs]
    rfl
  · rw [c.pc, b.pc]
    rfl
  · rw [c.view, b.view, State.view_of_not_cached (cold_not_cached a), State.view_disabled rfl]
    rfl

/-- A step that changes no set and one that changes set 0; two machines that agree in set 0 and the backing store and
differ in set 3. -/
theorem witness_OnlyTheAddressedSetChanges :
    MachineInv (warmAt 0x00043383) ∧ (∃ t, step (warmAt 0x00043383) = .next t ∧ (t.pc == 0x1004#64) = true) ∧
    dataRequest (decodeWord 0x00043383#32) (warmAt 0x00043383) = .read 0x2040#64 ∧
    (1#64 : Word) ≠ setIndexOf (vectorParams true) 0x2040#64 ∧ ((warmAt 0x00043383).setAt 0#64).state ≠ .invalid ∧
    MachineInv warm ∧ MachineInv { warm with cache := warm.cache.set 3 (warm.setAt 2#64) } ∧
    warm.setFor 0x2000#64 = State.setFor { warm with cache := warm.cache.set 3 (warm.setAt 2#64) } 0x2000#64 ∧
    warm ≠ { warm with cache := warm.cache.set 3 (warm.setAt 2#64) } :=
  ⟨inv_of_check (by decide), next_of_nextWith (by decide), by decide, by decide, by decide, warm_inv,
    inv_of_check (by decide), by decide, by decide⟩

theorem witness_PortCallsMakeTheBackingStore :
    ∃ t, step (warmAt 0x00643023) = .next t ∧ (t.mem != (warmAt 0x00643023).mem) = true :=
  next_of_nextWith (by decide)

/-- A store that hits, a store with the cache disabled, and an eviction of the DIRTY block at the top of memory. -/
theorem witness_FetchSeesTheBackingStoreOnly :
    (MachineInv warm ∧ Instr.sd 5#5 6#5 8#12 ∈ storeForms 5#5 6#5 8#12 ∧
      (∃ t, exec (.sd 5#5 6#5 8#12) warm = .next t ∧ (t.pc == 0x1004#64) = true) ∧
      warm.params.cacheEnable = true ∧ warm.evicts (dataAddr warm 5#5 8#12) = false) ∧
    (MachineInv bare ∧ (∃ t, exec (.sd 5#5 6#5 8#12) bare = .next t ∧ (t.pc == 0x1004#64) = true) ∧
      bare.params.cacheEnable = false) ∧
    (aligned8 0xFFFFFFFFFFFFFFF8#64 = true ∧ aligned8 0x38#64 = true ∧ warm.evicts 0x38#64 = true ∧
      setIndexOf warm.params 0xFFFFFFFFFFFFFFF8#64 = setIndexOf warm.params 0x38#64 ∧
      tagOf warm.params 0xFFFFFFFFFFFFFFF8#64 = (warm.setFor 0x38#64).tag) :=
  ⟨⟨warm_inv, by decide, next_of_nextWith (by decide), by decide, by decide⟩,
    ⟨bare_inv, next_of_nextWith (by decide), by decide⟩, by decide, by decide, by decide, by decide, by decide⟩

/-- Two machines whose one set is INVALID and holds different tags and bytes. -/
theorem witness_StaleContentsAreUnobservable :
    (warm.setFor 0x2020#64).state = .invalid ∧
    ∃ s u : State, SameButStale s u ∧ s ≠ u ∧ ∃ t, step s = .next t ∧ (t.pc == 0x1004#64) = true := by
  refine ⟨by decide,
    { params := ⟨3, 0, true⟩, pc := 0x1000#64, regs := someRegs, mem := writeBytes [] 0x1000#64 [0x83#8, 0x33#8, 0x04#8],
      cache := [{ state := .invalid, tag := 0x400#64, data := List.replicate 8 0xAA#8 }] },
    { params := ⟨3, 0, true⟩, pc := 0x1000#64, regs := someRegs, mem := writeBytes [] 0x1000#64 [0x83#8, 0x33#8, 0x04#8],
      cache := [{ state := .invalid, tag := 0x7#64, data := List.replicate 8 0x01#8 }] },
    ⟨rfl, rfl, rfl, rfl, rfl, fun i => ?_, fun i => ?_⟩, by decide, next_of_nextWith (by decide)⟩
  · unfold State.setAt
    generalize i.toNat = n
    rcases n with _ | n <;> rfl
  · unfold State.setAt
    generalize i.toNat = n
    rcases n with _ | n
    · intro h
      exact absurd rfl h
    · intro h
      exact absurd rfl h

end Sys2Proof.Tests
end

section
/-! PROOFS. What stops a step before its fetch (00_scope.md R8; 20_memory.md R55). -/

namespace Sys2Proof.Machine

/-- The refusal of parameters outside 00_scope.md R8 comes first: it does not look at the pc. -/
theorem step_of_not_wf {s : State} (hp : ¬s.params.wf) : step s = .refused .badParameters := by
  unfold step
  rw [if_neg hp]

/-- The alignment check comes second, before the fetch (60_exceptions.md R287). -/
theorem step_of_not_aligned4 {s : State} (hp : s.params.wf) (hpc : ¬aligned4 s.pc = true) :
    step s = .fault (.misalignedFetch s.pc) := by
  unfold step
  rw [if_pos hp, if_neg hpc]

/-- Settles O35: each clause is one branch of `step`; the statement's remainder modulo 4 is the model's check of the
pc's two low bits by `aligned4_toNat`. -/
theorem stepStopsBeforeTheFetch : Obligations.StepStopsBeforeTheFetch := by
  intro s
  constructor
  · exact step_of_not_wf
  · intro hp hpc
    have hmis : ¬aligned4 s.pc = true := fun h => hpc (aligned4_toNat.mp h)
    exact step_of_not_aligned4 hp hmis

end Sys2Proof.Machine
end

section
/-! PROOFS. Registers and stages: what the decode, memory and writeback stages do, one lemma for each (10_state.md R22,
R23; 40_pipeline.md R144 to R166). -/

namespace Sys2Proof.Machine

/-! The read ports of the decode stage. -/

/-- A read port at an index other than 0 returns the slot (10_state.md R22). -/
theorem slot_eq_some_regRead (r : Registers) {i : RegIdx} (hi : i ≠ 0#5) : r[i.toNat - 1]? = some (regRead r i) := by
  rw [regRead, if_neg hi]
  exact Vector.getElem?_eq_getElem (slot_lt i)

@[simp] theorem fetchStage_inst (s : State) : (fetchStage s).inst = fetchRead s s.pc := rfl

@[simp] theorem controlTable_rs1Val (c : OpcodeClass) (f : FetchOut) (r : Registers) (imm : Word) :
    (controlTable c f r imm).rs1Val = regRead r (rs1Of f.inst) := by cases c <;> rfl

@[simp] theorem controlTable_rs2Val (c : OpcodeClass) (f : FetchOut) (r : Registers) (imm : Word) :
    (controlTable c f r imm).rs2Val = regRead r (rs2Of f.inst) := by cases c <;> rfl

@[simp] theorem forceZeroRd_rs1Val (u : MicroOp) : (forceZeroRd u).rs1Val = u.rs1Val := by
  unfold forceZeroRd
  split <;> rfl

@[simp] theorem forceZeroRd_rs2Val (u : MicroOp) : (forceZeroRd u).rs2Val = u.rs2Val := by
  unfold forceZeroRd
  split <;> rfl

/-- What a decode that succeeds has found: the class of the opcode, the immediate, and the micro-op of the class. -/
theorem decodeStage_ok {f : FetchOut} {r : Registers} {u : MicroOp} (h : decodeStage f r = .ok u) :
    ∃ c imm, classOf (opcodeOf f.inst) = some c ∧ extractImmediate f.inst = .ok imm ∧
      u = forceZeroRd (controlTable c f r imm) := by
  unfold decodeStage at h
  split at h
  next c imm hc himm =>
    cases h
    exact ⟨c, imm, hc, himm, rfl⟩
  next => cases h

/-- The decode stage reads both ports whatever the class is. -/
theorem decodeStage_reads {f : FetchOut} {r : Registers} {u : MicroOp} (h : decodeStage f r = .ok u) :
    u.rs1Val = regRead r (rs1Of f.inst) ∧ u.rs2Val = regRead r (rs2Of f.inst) := by
  obtain ⟨c, imm, -, -, rfl⟩ := decodeStage_ok h
  simp

/-- Settles O9: both source values are reads of the file, so they are 0 or the slot as `regRead` says. -/
theorem registerReadPorts : Obligations.RegisterReadPorts := by
  intro s u h
  obtain ⟨h1, h2⟩ := decodeStage_reads h
  rw [fetchStage_inst] at h1 h2
  rw [h1, h2]
  refine ⟨fun hz => ?_, slot_eq_some_regRead _, fun hz => ?_, slot_eq_some_regRead _⟩
  · rw [hz, regRead_zero]
  · rw [hz, regRead_zero]

/-! The memory stage and the register file. -/

@[simp] theorem memRead_regs (s : State) (a : Word) : (memRead s a).1.regs = s.regs := by
  unfold memRead
  split
  · exact lookup_regs s a
  · rfl

@[simp] theorem memRead_pc (s : State) (a : Word) : (memRead s a).1.pc = s.pc := by
  unfold memRead
  split
  · exact lookup_pc s a
  · rfl

@[simp] theorem memWrite_regs (s : State) (a v : Word) : (memWrite s a v).regs = s.regs := by
  unfold memWrite
  split
  · exact lookup_regs s a
  · rfl

@[simp] theorem memWrite_pc (s : State) (a v : Word) : (memWrite s a v).pc = s.pc := by
  unfold memWrite
  split
  · exact lookup_pc s a
  · rfl

@[simp] theorem stageRead_regs (s : State) (x : AgexOut) : (stageRead s x).1.regs = s.regs := by
  unfold stageRead
  split
  · exact memRead_regs s _
  · rfl

@[simp] theorem stageWrite_regs (s : State) (x : AgexOut) : (stageWrite s x).regs = s.regs := by
  unfold stageWrite
  split
  · exact memWrite_regs s _ _
  · rfl

/-- The state a completed memory stage leaves: the read's, then the write's (decision D7). -/
theorem memoryStage_state {s s' : State} {x : AgexOut} {m : MemOut} (h : memoryStage s x = .ok (s', m)) :
    s' = stageWrite (stageRead s x).1 x := by
  unfold memoryStage at h
  split at h
  · cases h
  · cases h
    rfl

/-- No stage but writeback writes the register file (40_pipeline.md R166). -/
theorem memoryStage_regs {s s' : State} {x : AgexOut} {m : MemOut} (h : memoryStage s x = .ok (s', m)) :
    s'.regs = s.regs := by
  rw [memoryStage_state h, stageWrite_regs, stageRead_regs]

/-! The writeback stage. -/

theorem commitValue_eq (m : MemOut) : commitValue m = if m.wbSrc = .mem then m.memData else m.aluResult := by
  unfold commitValue
  cases m.wbSrc <;> rfl

/-- The next pc, the fall-through in numbers (40_pipeline.md R163). -/
theorem nextPcOf_eq (m : MemOut) :
    nextPcOf m = if m.pcSrc = .alu then m.aluResult else BitVec.ofNat 64 ((m.pc.toNat + 4) % 2 ^ 64) := by
  unfold nextPcOf
  cases m.pcSrc
  case pc4 =>
    apply BitVec.eq_of_toNat_eq
    simp
  case alu => rfl

/-- The writeback stage as one register write: an index 0 drops it, so only the enable decides. -/
theorem writebackStage_state (s : State) (m : MemOut) :
    (writebackStage s m).1 = if m.regWe = true then s.setX m.rd (commitValue m) else s := by
  unfold writebackStage
  by_cases hz : m.rd = 0#5
  · simp [hz]
  · simp [hz]

/-- What the read ports return after the writeback stage (10_state.md R23; 40_pipeline.md R162). -/
theorem writebackStage_x (s : State) (m : MemOut) (r : RegIdx) :
    (writebackStage s m).1.x r = if m.regWe = true ∧ m.rd ≠ 0#5 ∧ r = m.rd then commitValue m else s.x r := by
  rw [writebackStage_state]
  by_cases hwe : m.regWe = true
  · rw [if_pos hwe, State.x_setX]
    have hcond : (r = m.rd ∧ r ≠ 0#5) ↔ (m.regWe = true ∧ m.rd ≠ 0#5 ∧ r = m.rd) := by
      constructor
      · rintro ⟨rfl, hr⟩
        exact ⟨hwe, hr, rfl⟩
      · rintro ⟨-, hrd, rfl⟩
        exact ⟨rfl, hrd⟩
    exact if_congr hcond rfl rfl
  · rw [if_neg hwe, if_neg fun h => hwe h.1]

/-- The writeback stage leaves the memory, the cache and the parameters (40_pipeline.md R164). -/
theorem writebackStage_frame (s : State) (m : MemOut) :
    (writebackStage s m).1.mem = s.mem ∧ (writebackStage s m).1.cache = s.cache ∧
      (writebackStage s m).1.params = s.params := by
  rw [writebackStage_state]
  split
  · exact ⟨State.setX_mem .., State.setX_cache .., State.setX_params ..⟩
  · exact ⟨rfl, rfl, rfl⟩

/-- Settles O10: the stage is one register write and the choice of the next pc, and the memory stage's accesses
change no register. -/
theorem writebackCommitsOneRegister : Obligations.WritebackCommitsOneRegister := by
  refine ⟨fun s m => ⟨fun r => ?_, nextPcOf_eq m, writebackStage_frame s m⟩, fun s s' x m h => memoryStage_regs h⟩
  rw [writebackStage_x, commitValue_eq]

end Sys2Proof.Machine
end

section
/-! PROOFS. What a step that answers a next state does, by the class of the fetched word: the one case analysis that
the claims about the pc and the registers of every step go through. -/

namespace Sys2Proof.Machine

/-! The meaning of each decoder class is one family operation, its parameter taken from funct3 (and funct7). -/

theorem funct3_cases (f3 : BitVec 3) :
    f3 = 0#3 ∨ f3 = 1#3 ∨ f3 = 2#3 ∨ f3 = 3#3 ∨ f3 = 4#3 ∨ f3 = 5#3 ∨ f3 = 6#3 ∨ f3 = 7#3 := by
  revert f3
  decide

section
variable (f3 : BitVec 3) (f7 : BitVec 7) (rd rs1 rs2 : RegIdx) (imm : BitVec 12) (off : BitVec 13) (s : State)

/-- Opcode OP (41_alu_reg.md R180; 40_pipeline.md R147). -/
theorem exec_decodeOp : exec (decodeOp f3 f7 rd rs1 rs2) s = aluRegReg (aluOpOf .rType f3 f7) rd rs1 rs2 s := by
  rcases funct3_cases f3 with rfl | rfl | rfl | rfl | rfl | rfl | rfl | rfl
  case inl =>
    by_cases h7 : f7 = funct7Sub
    · subst h7
      rfl
    · simp [decodeOp, aluOpOf, funct3AddSub, h7, exec, execAdd]
  all_goals rfl

/-- Opcode OP-IMM, which ignores funct7 (42_alu_imm.md R200; 40_pipeline.md R147). -/
theorem exec_decodeOpImm : exec (decodeOpImm f3 rd rs1 imm) s = aluRegImm (aluOpOf .iType f3 f7) rd rs1 imm s := by
  rcases funct3_cases f3 with rfl | rfl | rfl | rfl | rfl | rfl | rfl | rfl
  case inl => simp [decodeOpImm, aluOpOf, funct3AddSub, exec, execAddi]
  all_goals rfl

/-- Opcode LOAD, one operation whatever funct3 is (43_load.md R220). -/
theorem exec_decodeLoad : exec (decodeLoad f3 rd rs1 imm) s = loadDword rd rs1 imm s := by
  rcases funct3_cases f3 with rfl | rfl | rfl | rfl | rfl | rfl | rfl | rfl <;> rfl

/-- Opcode STORE, one operation whatever funct3 is (44_store.md R230). -/
theorem exec_decodeStore : exec (decodeStore f3 rs1 rs2 imm) s = storeDword rs1 rs2 imm s := by
  rcases funct3_cases f3 with rfl | rfl | rfl | rfl | rfl | rfl | rfl | rfl <;> rfl

/-- Opcode BRANCH (45_branch.md R240; 40_pipeline.md R148). -/
theorem exec_decodeBranch : exec (decodeBranch f3 rs1 rs2 off) s = condBranch (brCondOf f3) rs1 rs2 off s := by
  rcases funct3_cases f3 with rfl | rfl | rfl | rfl | rfl | rfl | rfl | rfl <;> rfl

end

/-! The same for a word, by its opcode. -/

section
variable {w : InstWord} (s : State)

theorem exec_decodeWord_op (h : opcodeOf w = opcodeOp) : exec (decodeWord w) s =
    aluRegReg (aluOpOf .rType (funct3Of w) (funct7Of w)) (rdOf w) (rs1Of w) (rs2Of w) s := by
  rw [decodeWord, if_pos h, exec_decodeOp]

theorem exec_decodeWord_opImm (h : opcodeOf w = opcodeOpImm) : exec (decodeWord w) s =
    aluRegImm (aluOpOf .iType (funct3Of w) (funct7Of w)) (rdOf w) (rs1Of w) (immIOf w) s := by
  rw [decodeWord, h, if_neg (by decide), if_pos rfl, exec_decodeOpImm _ (funct7Of w)]

theorem exec_decodeWord_load (h : opcodeOf w = opcodeLoad) :
    exec (decodeWord w) s = loadDword (rdOf w) (rs1Of w) (immIOf w) s := by
  rw [decodeWord, h, if_neg (by decide), if_neg (by decide), if_pos rfl, exec_decodeLoad]

theorem exec_decodeWord_store (h : opcodeOf w = opcodeStore) :
    exec (decodeWord w) s = storeDword (rs1Of w) (rs2Of w) (immSOf w) s := by
  rw [decodeWord, h, if_neg (by decide), if_neg (by decide), if_neg (by decide), if_pos rfl, exec_decodeStore]

theorem exec_decodeWord_branch (h : opcodeOf w = opcodeBranch) :
    exec (decodeWord w) s = condBranch (brCondOf (funct3Of w)) (rs1Of w) (rs2Of w) (immBOf w) s := by
  rw [decodeWord, h, if_neg (by decide), if_neg (by decide), if_neg (by decide), if_neg (by decide), if_pos rfl,
    exec_decodeBranch]

theorem exec_decodeWord_unsupported (h : opcodeSupported (opcodeOf w) = false) :
    exec (decodeWord w) s = .fault (.unsupportedInstruction s.pc w) := by
  rw [decodeWord_unsupported h]
  rfl

end

theorem opcodeSupported_iff {op : BitVec 7} : opcodeSupported op = true ↔
    op = opcodeOp ∨ op = opcodeOpImm ∨ op = opcodeLoad ∨ op = opcodeStore ∨ op = opcodeBranch := by
  simp [opcodeSupported, or_assoc]

/-- A load that completes had an aligned address; what it does then. -/
theorem loadDword_next {rd rs1 : RegIdx} {imm : BitVec 12} {s t : State} (h : loadDword rd rs1 imm s = .next t) :
    aligned8 (dataAddr s rs1 imm) = true ∧
      t = ((memRead s (dataAddr s rs1 imm)).1.setX rd (memRead s (dataAddr s rs1 imm)).2).advance := by
  unfold loadDword at h
  split at h
  next ha =>
    cases h
    exact ⟨ha, rfl⟩
  next => cases h

/-- A store that completes had an aligned address; what it does then. -/
theorem storeDword_next {rs1 rs2 : RegIdx} {imm : BitVec 12} {s t : State} (h : storeDword rs1 rs2 imm s = .next t) :
    aligned8 (dataAddr s rs1 imm) = true ∧ t = (memWrite s (dataAddr s rs1 imm) (s.x rs2)).advance := by
  unfold storeDword at h
  split at h
  next ha =>
    cases h
    exact ⟨ha, rfl⟩
  next => cases h

/-- What an instruction word `w` that completes in `s` can have done, by its opcode. -/
inductive WordCase (w : InstWord) (s t : State) : Prop where
  | register (v : Word) (hop : opcodeOf w = opcodeOp ∨ opcodeOf w = opcodeOpImm)
      (ht : t = (s.setX (rdOf w) v).advance)
  | load (a : Word) (hop : opcodeOf w = opcodeLoad) (ha : aligned8 a = true)
      (ht : t = ((memRead s a).1.setX (rdOf w) (memRead s a).2).advance)
  | store (a v : Word) (hop : opcodeOf w = opcodeStore) (ha : aligned8 a = true) (ht : t = (memWrite s a v).advance)
  | taken (hop : opcodeOf w = opcodeBranch)
      (hc : condHolds (brCondOf (funct3Of w)) (s.x (rs1Of w)) (s.x (rs2Of w)) = true)
      (ht : t = s.goto (s.pc + sext (immBOf w)))
  | notTaken (hop : opcodeOf w = opcodeBranch)
      (hc : ¬condHolds (brCondOf (funct3Of w)) (s.x (rs1Of w)) (s.x (rs2Of w)) = true) (ht : t = s.advance)

/-- `exec_cases` for a word whose instruction answers a next state, with the opcode and the fields of the word. -/
theorem wordCase_of_exec {w : InstWord} {s t : State} (h : exec (decodeWord w) s = .next t) : WordCase w s t := by
  cases hs : opcodeSupported (opcodeOf w)
  case false =>
    rw [exec_decodeWord_unsupported s hs] at h
    cases h
  case true =>
    rcases opcodeSupported_iff.mp hs with hop | hop | hop | hop | hop
    · rw [exec_decodeWord_op s hop] at h
      cases h
      exact .register _ (.inl hop) rfl
    · rw [exec_decodeWord_opImm s hop] at h
      cases h
      exact .register _ (.inr hop) rfl
    · rw [exec_decodeWord_load s hop] at h
      obtain ⟨ha, ht⟩ := loadDword_next h
      exact .load _ hop ha ht
    · rw [exec_decodeWord_store s hop] at h
      obtain ⟨ha, ht⟩ := storeDword_next h
      exact .store _ _ hop ha ht
    · rw [exec_decodeWord_branch s hop] at h
      by_cases hc : condHolds (brCondOf (funct3Of w)) (s.x (rs1Of w)) (s.x (rs2Of w)) = true
      · rw [condBranch, if_pos hc] at h
        cases h
        exact .taken hop hc rfl
      · rw [condBranch, if_neg hc] at h
        cases h
        exact .notTaken hop hc rfl

/-- What a step that answers a next state did, by the opcode of the fetched word. -/
theorem step_wordCase {s t : State} (h : step s = .next t) : WordCase (fetchRead s s.pc) s t := by
  obtain ⟨-, -, hexec⟩ := step_next h
  exact wordCase_of_exec hexec

/-! The next pc. -/

/-- The pc advances, or a branch was taken and it is the branch's target (10_state.md R25). -/
theorem WordCase.pc_eq {w : InstWord} {s t : State} (h : WordCase w s t) :
    t.pc = s.pc + 4#64 ∨
      (opcodeOf w = opcodeBranch ∧ condHolds (brCondOf (funct3Of w)) (s.x (rs1Of w)) (s.x (rs2Of w)) = true ∧
        t.pc = s.pc + sext (immBOf w)) := by
  cases h with
  | register v hop ht => exact .inl (by rw [ht, State.advance_pc, State.setX_pc])
  | load a hop ha ht => exact .inl (by rw [ht, State.advance_pc, State.setX_pc, memRead_pc])
  | store a v hop ha ht => exact .inl (by rw [ht, State.advance_pc, memWrite_pc])
  | taken hop hc ht => exact .inr ⟨hop, hc, by rw [ht, State.goto_pc]⟩
  | notTaken hop hc ht => exact .inl (by rw [ht, State.advance_pc])

/-- The fall-through of an aligned pc is aligned, also where it wraps (decision D20). -/
theorem fallThrough_mod4 {a : Word} (ha : a.toNat % 4 = 0) : (a + 4#64).toNat % 4 = 0 := by
  rw [BitVec.toNat_add]
  simp only [BitVec.toNat_ofNat]
  omega

/-- Sign extension of a branch offset keeps its two low bits. -/
theorem sext_mod4 (off : BitVec 13) : (sext off).toNat % 4 = off.toNat % 4 := by
  have hlt := off.isLt
  rw [sext, BitVec.toNat_signExtend, BitVec.toNat_setWidth]
  split <;> omega

/-- A target has the two low bits of the offset, since a branch stands at a multiple of 4. -/
theorem target_mod4 {a : Word} (ha : a.toNat % 4 = 0) (off : BitVec 13) :
    (a + sext off).toNat % 4 = off.toNat % 4 := by
  have hoff := sext_mod4 off
  rw [BitVec.toNat_add]
  omega

/-- An even offset is a multiple of 4 unless its bit 1 is set. -/
theorem bit1_of_mod4_ne_zero {off : BitVec 13} (heven : off.toNat % 2 = 0) (h : off.toNat % 4 ≠ 0) :
    off.getLsbD 1 = true := by
  rw [BitVec.getLsbD, Nat.testBit_succ, Nat.testBit_zero, decide_eq_true_eq]
  omega

/-- Settles O40: the two alternatives are `WordCase.pc_eq`; the fall-through of the aligned pc is aligned, and a
target has the low bits of its offset, whose bit 0 no word can set. -/
theorem nextPcIsFallThroughOrTarget : Obligations.NextPcIsFallThroughOrTarget := by
  intro s t h
  obtain ⟨-, hal, hexec⟩ := step_next h
  have hpc4 : s.pc.toNat % 4 = 0 := aligned4_toNat.mp hal
  have halts := (wordCase_of_exec hexec).pc_eq
  refine ⟨halts, ?_⟩
  rcases halts with hfall | ⟨hop, -, htarget⟩
  · have hmod := fallThrough_mod4 hpc4
    rw [hfall]
    exact ⟨by omega, fun hne => absurd hmod hne⟩
  · have hmod := target_mod4 hpc4 (immBOf (fetchRead s s.pc))
    have heven := (offsetEven_toNat _).mp (immBOf_even (fetchRead s s.pc))
    rw [htarget]
    exact ⟨by omega, fun hne => ⟨hop, bit1_of_mod4_ne_zero heven (by omega)⟩⟩

/-! The registers. -/

/-- A register write changes at most the register it names, and not register 0 (10_state.md R23). -/
theorem State.eq_of_x_setX_ne {s : State} {i r : RegIdx} {v : Word} (h : (s.setX i v).x r ≠ s.x r) :
    r = i ∧ r ≠ 0#5 := by
  by_contra hn
  exact h (by rw [State.x_setX, if_neg hn])

@[simp] theorem State.x_memRead (s : State) (a : Word) (r : RegIdx) : (memRead s a).1.x r = s.x r :=
  congrArg (regRead · r) (memRead_regs s a)

@[simp] theorem State.x_memWrite (s : State) (a v : Word) (r : RegIdx) : (memWrite s a v).x r = s.x r :=
  congrArg (regRead · r) (memWrite_regs s a v)

/-- Settles O41: the register and load cases write rd alone, the other cases no register. -/
theorem onlyTheDestinationRegisterChanges : Obligations.OnlyTheDestinationRegisterChanges := by
  intro s t r h hne
  cases step_wordCase h with
  | register v hop ht =>
    rw [ht, State.x_advance] at hne
    obtain ⟨hr, hr0⟩ := State.eq_of_x_setX_ne hne
    refine ⟨hr, hr0, ?_⟩
    rcases hop with hop | hop <;> simp [hop]
  | load a hop ha ht =>
    rw [ht, State.x_advance, ← State.x_memRead s a r] at hne
    obtain ⟨hr, hr0⟩ := State.eq_of_x_setX_ne hne
    exact ⟨hr, hr0, by simp [hop]⟩
  | store a v hop ha ht => exact absurd (by rw [ht, State.x_advance, State.x_memWrite]) hne
  | taken hop hc ht => exact absurd (by rw [ht, State.x_goto]) hne
  | notTaken hop hc ht => exact absurd (by rw [ht, State.x_advance]) hne

end Sys2Proof.Machine
end

section
/-! PROOFS. Loads and stores by their forms: the eight forms of either are one operation, what it answers at an aligned
address and at any other, and what its address depends on (20_memory.md R54, R70; 30_encoding.md R122). -/

namespace Sys2Proof.Machine

/-! The eight forms of a load or store. -/

theorem exec_of_mem_loadForms {i : Instr} {rd rs1 : RegIdx} {imm : BitVec 12} (hi : i ∈ loadForms rd rs1 imm)
    (s : State) : exec i s = loadDword rd rs1 imm s := by
  simp only [loadForms, List.mem_cons, List.not_mem_nil, or_false] at hi
  rcases hi with rfl | rfl | rfl | rfl | rfl | rfl | rfl | rfl <;> rfl

theorem exec_of_mem_storeForms {i : Instr} {rs1 rs2 : RegIdx} {imm : BitVec 12} (hi : i ∈ storeForms rs1 rs2 imm)
    (s : State) : exec i s = storeDword rs1 rs2 imm s := by
  simp only [storeForms, List.mem_cons, List.not_mem_nil, or_false] at hi
  rcases hi with rfl | rfl | rfl | rfl | rfl | rfl | rfl | rfl <;> rfl

/-! What the two operations answer. -/

section
variable {rd rs1 rs2 : RegIdx} {imm : BitVec 12} {s : State}

theorem loadDword_aligned (ha : aligned8 (dataAddr s rs1 imm) = true) : loadDword rd rs1 imm s =
    .next ((memRead s (dataAddr s rs1 imm)).1.setX rd (memRead s (dataAddr s rs1 imm)).2).advance := by
  rw [loadDword, if_pos ha]

theorem loadDword_misaligned (ha : ¬aligned8 (dataAddr s rs1 imm) = true) :
    loadDword rd rs1 imm s = .fault (.misalignedData (dataAddr s rs1 imm)) := by
  rw [loadDword, if_neg ha]

theorem storeDword_aligned (ha : aligned8 (dataAddr s rs1 imm) = true) :
    storeDword rs1 rs2 imm s = .next (memWrite s (dataAddr s rs1 imm) (s.x rs2)).advance := by
  rw [storeDword, if_pos ha]

theorem storeDword_misaligned (ha : ¬aligned8 (dataAddr s rs1 imm) = true) :
    storeDword rs1 rs2 imm s = .fault (.misalignedData (dataAddr s rs1 imm)) := by
  rw [storeDword, if_neg ha]

end

/-- Settles O28: all sixteen forms check the address before any port call; the statement's remainder modulo 8 is the
model's check of the address's three low bits by `aligned8_toNat`. -/
theorem misalignedDataAccessStops : Obligations.MisalignedDataAccessStops := by
  intro rd rs1 rs2 imm s hmis i hi
  have ha : ¬aligned8 (dataAddr s rs1 imm) = true := fun h => hmis (aligned8_toNat.mp h)
  rcases List.mem_append.mp hi with hload | hstore
  · rw [exec_of_mem_loadForms hload, loadDword_misaligned ha]
  · rw [exec_of_mem_storeForms hstore, storeDword_misaligned ha]

/-! What the addresses and the invariant depend on. -/

/-- An address of a load or store depends on the base register alone. -/
theorem dataAddr_congr {s u : State} {rs1 : RegIdx} (h : s.x rs1 = u.x rs1) (imm : BitVec 12) :
    dataAddr s rs1 imm = dataAddr u rs1 imm := by
  rw [dataAddr, dataAddr, h]

/-- A branch target depends on the pc alone. -/
theorem branchTarget_congr {s u : State} (h : s.pc = u.pc) (imm : BitVec 13) :
    branchTarget s imm = branchTarget u imm := by
  rw [branchTarget, branchTarget, h]

/-- The registers and the pc are no part of the invariant. -/
theorem MachineInv.goto {s : State} (h : MachineInv s) (t : Word) : MachineInv (s.goto t) := inv_of_same h rfl rfl rfl

theorem MachineInv.advance {s : State} (h : MachineInv s) : MachineInv s.advance := h.goto _

theorem MachineInv.setX {s : State} (h : MachineInv s) (rd : RegIdx) (v : Word) : MachineInv (s.setX rd v) :=
  inv_of_same h rfl rfl rfl

end Sys2Proof.Machine
end

section
/-! PROOFS. A machine with the cache and one without, side by side (20_memory.md R64, R67, R69): each operation of the
meanings keeps `SameToLoads`, so each instruction does. -/

namespace Sys2Proof.Machine

section
variable {s u : State} (h : SameToLoads s u)
include h

theorem SameToLoads.keptBy_goto (t : Word) : SameToLoads (s.goto t) (u.goto t) where
  enabled := h.enabled
  disabled := h.disabled
  inv := h.inv.goto t
  inv' := h.inv'.goto t
  reg := h.reg
  pc := rfl
  view := h.view

theorem SameToLoads.keptBy_advance : SameToLoads s.advance u.advance := by
  have hgoto := h.keptBy_goto (s.pc + 4#64)
  rwa [State.advance, State.advance, ← h.pc]

theorem SameToLoads.keptBy_setX (rd : RegIdx) (v : Word) : SameToLoads (s.setX rd v) (u.setX rd v) where
  enabled := h.enabled
  disabled := h.disabled
  inv := h.inv.setX rd v
  inv' := h.inv'.setX rd v
  reg r := by rw [State.x_setX, State.x_setX, h.reg]
  pc := h.pc
  view := h.view

theorem SameToLoads.viewDword_eq (a : Word) : s.viewDword a = u.viewDword a := viewDword_congr fun _ _ => h.view _

/-- A read answers the same value on both sides, and no byte loads see changes: with the cache a lookup may fill and
evict, which loads cannot tell. -/
theorem SameToLoads.keptBy_memRead {a : Word} (ha : aligned8 a = true) :
    SameToLoads (memRead s a).1 (memRead u a).1 ∧ (memRead s a).2 = (memRead u a).2 := by
  have ms := memRead_spec h.inv ha
  have mu := memRead_spec h.inv' ha
  refine ⟨⟨?_, ?_, ms.inv, mu.inv, fun r => ?_, ?_, fun b => ?_⟩, ?_⟩
  · rw [ms.params, h.enabled]
  · rw [mu.params, h.disabled]
  · rw [State.x_memRead, State.x_memRead, h.reg]
  · rw [ms.pc, mu.pc, h.pc]
  · rw [ms.view, mu.view, h.view]
  · rw [ms.value, mu.value, h.viewDword_eq]

/-- A write changes the same eight bytes on both sides, in the set or in the backing store. -/
theorem SameToLoads.keptBy_memWrite {a : Word} (ha : aligned8 a = true) (v : Word) :
    SameToLoads (memWrite s a v) (memWrite u a v) := by
  have ms := memWrite_spec h.inv ha v
  have mu := memWrite_spec h.inv' ha v
  refine ⟨?_, ?_, ms.inv, mu.inv, fun r => ?_, ?_, fun b => ?_⟩
  · rw [ms.params, h.enabled]
  · rw [mu.params, h.disabled]
  · rw [State.x_memWrite, State.x_memWrite, h.reg]
  · rw [ms.pc, mu.pc, h.pc]
  · rw [ms.view, mu.view, h.view]

end

/-- Two outcomes that loads and stores cannot tell apart. -/
inductive SameOutcome : (o o' : Host.Outcome State Fault Refusal) → Prop where
  | next {t t' : State} (h : SameToLoads t t') : SameOutcome (.next t) (.next t')
  | fault (f : Fault) : SameOutcome (.fault f) (.fault f)

section
variable {s u : State} (h : SameToLoads s u)
include h

theorem SameToLoads.sameOutcome_aluRegReg (op : AluOp) (rd rs1 rs2 : RegIdx) :
    SameOutcome (aluRegReg op rd rs1 rs2 s) (aluRegReg op rd rs1 rs2 u) := by
  rw [aluRegReg, aluRegReg, ← h.reg rs1, ← h.reg rs2]
  exact .next (h.keptBy_setX rd _).keptBy_advance

theorem SameToLoads.sameOutcome_aluRegImm (op : AluOp) (rd rs1 : RegIdx) (imm : BitVec 12) :
    SameOutcome (aluRegImm op rd rs1 imm s) (aluRegImm op rd rs1 imm u) := by
  rw [aluRegImm, aluRegImm, ← h.reg rs1]
  exact .next (h.keptBy_setX rd _).keptBy_advance

theorem SameToLoads.sameOutcome_loadDword (rd rs1 : RegIdx) (imm : BitVec 12) :
    SameOutcome (loadDword rd rs1 imm s) (loadDword rd rs1 imm u) := by
  have haddr := dataAddr_congr (h.reg rs1) imm
  by_cases ha : aligned8 (dataAddr s rs1 imm) = true
  · obtain ⟨hread, hvalue⟩ := h.keptBy_memRead ha
    rw [loadDword_aligned ha, loadDword_aligned (haddr ▸ ha), ← haddr, ← hvalue]
    exact .next (hread.keptBy_setX rd _).keptBy_advance
  · rw [loadDword_misaligned ha, loadDword_misaligned (haddr ▸ ha), ← haddr]
    exact .fault _

theorem SameToLoads.sameOutcome_storeDword (rs1 rs2 : RegIdx) (imm : BitVec 12) :
    SameOutcome (storeDword rs1 rs2 imm s) (storeDword rs1 rs2 imm u) := by
  have haddr := dataAddr_congr (h.reg rs1) imm
  by_cases ha : aligned8 (dataAddr s rs1 imm) = true
  · rw [storeDword_aligned ha, storeDword_aligned (haddr ▸ ha), ← haddr, ← h.reg rs2]
    exact .next (h.keptBy_memWrite ha _).keptBy_advance
  · rw [storeDword_misaligned ha, storeDword_misaligned (haddr ▸ ha), ← haddr]
    exact .fault _

theorem SameToLoads.sameOutcome_condBranch (c : BrCond) (rs1 rs2 : RegIdx) (imm : BitVec 13) :
    SameOutcome (condBranch c rs1 rs2 imm s) (condBranch c rs1 rs2 imm u) := by
  rw [condBranch, condBranch, ← h.reg rs1, ← h.reg rs2, ← branchTarget_congr h.pc imm]
  split
  · exact .next (h.keptBy_goto _)
  · exact .next h.keptBy_advance

/-- Both machines run one word alike: each decoder class is one family operation. -/
theorem SameToLoads.sameOutcome_exec (w : InstWord) : SameOutcome (exec (decodeWord w) s) (exec (decodeWord w) u) := by
  cases hs : opcodeSupported (opcodeOf w)
  case false =>
    rw [exec_decodeWord_unsupported s hs, exec_decodeWord_unsupported u hs, h.pc]
    exact .fault _
  case true =>
    rcases opcodeSupported_iff.mp hs with hop | hop | hop | hop | hop
    · rw [exec_decodeWord_op s hop, exec_decodeWord_op u hop]
      exact h.sameOutcome_aluRegReg ..
    · rw [exec_decodeWord_opImm s hop, exec_decodeWord_opImm u hop]
      exact h.sameOutcome_aluRegImm ..
    · rw [exec_decodeWord_load s hop, exec_decodeWord_load u hop]
      exact h.sameOutcome_loadDword ..
    · rw [exec_decodeWord_store s hop, exec_decodeWord_store u hop]
      exact h.sameOutcome_storeDword ..
    · rw [exec_decodeWord_branch s hop, exec_decodeWord_branch u hop]
      exact h.sameOutcome_condBranch ..

/-- One step of each, if the two fetch the same word: the pc and with it the alignment check agree. -/
theorem SameToLoads.sameOutcome_step (hf : fetchRead s s.pc = fetchRead u u.pc) : SameOutcome (step s) (step u) := by
  by_cases hpc : aligned4 s.pc = true
  · rw [step_eq h.inv.params hpc, step_eq h.inv'.params (h.pc ▸ hpc), ← hf]
    exact h.sameOutcome_exec _
  · rw [step_of_not_aligned4 h.inv.params hpc, step_of_not_aligned4 h.inv'.params (h.pc ▸ hpc), h.pc]
    exact .fault _

end

/-- Settles O51: each of the three clauses reads one side of `SameToLoads.sameOutcome_step`. -/
theorem cacheIsTransparentToLoadsAndStores : Obligations.CacheIsTransparentToLoadsAndStores := by
  intro s u h hf
  have hstep := h.sameOutcome_step hf
  generalize step s = o, step u = o' at hstep
  cases hstep with
  | @next t t' ht =>
    refine ⟨fun _ e => ?_, fun _ => ⟨nofun, nofun⟩, fun _ _ => ⟨t, rfl⟩⟩
    cases e
    exact ⟨t', rfl, ht⟩
  | fault f => exact ⟨nofun, fun _ => Iff.rfl, nofun⟩

end Sys2Proof.Machine
end

section
/-! PROOFS. The bytes of a dword: which addresses it has, what a store leaves of another dword, and the bytes of a
fetched word (20_memory.md R53, R54). -/

namespace Sys2Proof.Machine

/-- The address of byte `k` of a dword, as a distance from the dword's address. -/
theorem add_ofNat_sub_toNat (a : Word) {k : Nat} (hk : k < 2 ^ 64) : (a + BitVec.ofNat 64 k - a).toNat = k := by
  rw [BitVec.add_comm, BitVec.add_sub_cancel, BitVec.toNat_ofNat, Nat.mod_eq_of_lt hk]

theorem inDword_add (a : Word) {k : Nat} (hk : k < 8) : inDword a (a + BitVec.ofNat 64 k) = true := by
  rw [inDword_iff, add_ofNat_sub_toNat a (by omega)]
  exact hk

/-- Two aligned dwords share no byte unless they are one. -/
theorem inDword_add_of_ne {a b : Word} (ha : aligned8 a = true) (hb : aligned8 b = true) (hne : b ≠ a) {k : Nat}
    (hk : k < 8) : inDword a (b + BitVec.ofNat 64 k) = false := by
  have ha8 := aligned8_toNat.mp ha
  have hb8 := aligned8_toNat.mp hb
  have hne' : b.toNat ≠ a.toNat := fun h => hne (BitVec.eq_of_toNat_eq h)
  have halt := a.isLt
  have hblt := b.isLt
  simp only [inDword, decide_eq_false_iff_not, BitVec.toNat_sub, BitVec.toNat_add, BitVec.toNat_ofNat]
  omega

/-- Each byte loads see is a byte of the dword they see. -/
theorem byteOf_viewDword (s : State) (a : Word) {k : Nat} (hk : k < 8) :
    byteOf (s.viewDword a) k = s.view (a + BitVec.ofNat 64 k) := by
  have hbytes : dwordBytes (s.viewDword a) = (List.range 8).map fun k => s.view (a + BitVec.ofNat 64 k) :=
    dwordBytes_dwordOf (by simp)
  rw [← dwordBytes_getD hk, hbytes, List.getElem?_map, List.getElem?_range hk]
  rfl

/-- A word is fetched where the backing store holds its four bytes, the first in bits 7:0 (20_memory.md R57). -/
theorem fetchRead_eq_of_bytes {s : State} {a : Word} {w : InstWord}
    (h : ∀ k, k < 4 → s.backing (a + BitVec.ofNat 64 k) = w.extractLsb' (8 * k) 8) : fetchRead s a = w := by
  have hbytes : readBytes s.mem a 4 = leBytes 4 w.toNat := by
    apply bytes_ext (n := 4) (by simp) (by simp)
    intro k hk
    rw [readBytes_getElem? _ _ 4 _ hk, leBytes_getElem? _ _ _ hk]
    refine congrArg some ((h k hk).trans (BitVec.eq_of_toNat_eq ?_))
    simp [Nat.shiftRight_eq_div_pow]
  have hlt := w.isLt
  apply BitVec.eq_of_toNat_eq
  rw [fetchRead, hbytes, leValue_leBytes, BitVec.toNat_ofNat]
  omega

/-- Where the backing store holds the bytes of a dword, a fetch at its byte `j` returns the 32 bits from there on. -/
theorem fetchRead_of_dword {s : State} {a v : Word}
    (h : ∀ k, k < 8 → s.backing (a + BitVec.ofNat 64 k) = byteOf v k) {j : Nat} (hj : j ≤ 4) :
    fetchRead s (a + BitVec.ofNat 64 j) = v.extractLsb' (8 * j) 32 := by
  refine fetchRead_eq_of_bytes fun k hk => ?_
  rw [BitVec.add_assoc, ← BitVec.ofNat_add, h (j + k) (by omega), byteOf]
  ext i hi
  have hin : 8 * k + i < 32 := by omega
  rw [BitVec.getElem_extractLsb', BitVec.getElem_extractLsb', BitVec.getLsbD_extractLsb', decide_eq_true hin,
    Bool.true_and, Nat.mul_add, Nat.add_assoc]

end Sys2Proof.Machine
end

section
/-! PROOFS. A store, and what a load and a fetch see after it (20_memory.md R64, R67). -/

namespace Sys2Proof.Machine

/-! The effect of a store, at the addresses of a dword. -/

section
variable {s t : State} {a v : Word} (h : StoreEffect s t a v)
include h

/-- The dword loads see at an aligned address after a store to an aligned address (20_memory.md R64). -/
theorem StoreEffect.viewDword_after (ha : aligned8 a = true) {b : Word}
    (hb : aligned8 b = true) : t.viewDword b = if b = a then v else s.viewDword b := by
  by_cases hab : b = a
  · subst hab
    rw [if_pos rfl]
    refine viewDword_eq fun k hk => ?_
    rw [h.view, if_pos (inDword_add b hk), add_ofNat_sub_toNat b (by omega)]
  · rw [if_neg hab]
    refine viewDword_congr fun k hk => ?_
    rw [h.view, inDword_add_of_ne ha hb hab hk, if_neg Bool.false_ne_true]

/-- With the cache, a store that evicts nothing leaves the whole backing store (20_memory.md R67). -/
theorem StoreEffect.backing_of_not_evicts (he : s.params.cacheEnable = true)
    (hev : s.evicts a = false) (b : Word) : t.backing b = s.backing b := by
  have hbyte : s.evictedByte a b = false := by rw [State.evictedByte, hev, Bool.false_and, Bool.false_and]
  rw [h.backing he, hbyte, if_neg Bool.false_ne_true]

/-- Without the cache, a store puts its dword into the backing store. -/
theorem StoreEffect.backing_dword (he : s.params.cacheEnable = false)
    {k : Nat} (hk : k < 8) : t.backing (a + BitVec.ofNat 64 k) = byteOf v k := by
  rw [h.direct he, if_pos (inDword_add a hk), add_ofNat_sub_toNat a (by omega)]

end

/-- A store form that completes had an aligned address, keeps the invariant and has the whole effect of a store. -/
theorem storeForm_next {s t : State} {rs1 rs2 : RegIdx} {imm : BitVec 12} {i : Instr} (h : MachineInv s)
    (hi : i ∈ storeForms rs1 rs2 imm) (hexec : exec i s = .next t) :
    aligned8 (dataAddr s rs1 imm) = true ∧ MachineInv t ∧ StoreEffect s t (dataAddr s rs1 imm) (s.x rs2) := by
  rw [exec_of_mem_storeForms hi] at hexec
  obtain ⟨ha, rfl⟩ := storeDword_next hexec
  exact ⟨ha, (memWrite_spec h ha _).inv.advance, store_effect h ha _⟩

/-- Settles O50: the store leaves the base register of the load, so the load's address is the one it had before, and
`load_effect` gives what loads see there after the store. -/
theorem loadAfterStore : Obligations.LoadAfterStore := by
  intro s t rd rs1 rs1' rs2 imm imm' h i hi j hj hexec hb
  obtain ⟨ha, hinv, hstore⟩ := storeForm_next h hi hexec
  have haddr := dataAddr_congr (hstore.reg rs1') imm'
  have hload := load_effect hinv (haddr ▸ hb) rd
  refine ⟨_, (exec_of_mem_loadForms hj t).trans (loadDword_aligned (haddr ▸ hb)), ?_⟩
  rw [hload.reg, haddr, hstore.viewDword_after ha hb]
  by_cases hrd : rd = 0#5
  · rw [if_neg fun hd => hd.2 hrd, if_pos hrd, hrd, State.x_zero]
  · rw [if_pos ⟨rfl, hrd⟩, if_neg hrd]

/-! Fetches. -/

/-- The eight bytes of a dword are written back together: they share the dword's block. -/
theorem evictedByte_dword {s : State} {a b : Word} (hp : s.params.wf) (ha : aligned8 a = true)
    (hev : s.evicts b = true) (hi : setIndexOf s.params a = setIndexOf s.params b)
    (ht : tagOf s.params a = (s.setFor b).tag) {k : Nat} (hk : k < 8) :
    s.evictedByte b (a + BitVec.ofNat 64 k) = true := by
  obtain ⟨-, hset, htag⟩ := parts_add hp ha hk
  simp [State.evictedByte, hev, hset, htag, hi, ht]

/-- Settles O54: with the cache and no eviction no backing byte changes; without it the backing store takes the dword;
and the bytes of an evicted block take what loads saw there. -/
theorem fetchSeesTheBackingStoreOnly : Obligations.FetchSeesTheBackingStoreOnly := by
  refine ⟨fun s t rs1 rs2 imm h i hi hexec => ?_, fun s a b h ha hb hev hi ht => ?_⟩
  · obtain ⟨ha, -, hstore⟩ := storeForm_next h hi hexec
    refine ⟨fun he hev pc => fetchRead_congr fun k _ => hstore.backing_of_not_evicts he hev _, fun he => ?_⟩
    have hlow := fetchRead_of_dword (fun _ => hstore.backing_dword he) (j := 0) (by omega)
    rw [BitVec.add_zero] at hlow
    exact ⟨hlow, fetchRead_of_dword (fun _ => hstore.backing_dword he) (j := 4) (by omega)⟩
  · have hbytes : ∀ k, k < 8 → (memRead s b).1.backing (a + BitVec.ofNat 64 k) = byteOf (s.viewDword a) k := by
      intro k hk
      rw [(memRead_spec h hb).backing, if_pos (evictedByte_dword h.params ha hev hi ht hk), byteOf_viewDword s a hk]
    have hlow := fetchRead_of_dword hbytes (j := 0) (by omega)
    rwa [BitVec.add_zero] at hlow

end Sys2Proof.Machine
end

section
/-! PROOFS. The calls at the port, replayed (20_memory.md R50; 21_cache.md R101): what each sequence of calls makes of
the backing store. -/

namespace Sys2Proof.Machine

theorem replay_append (m : Memory) (cs ds : List PortCall) : replay m (cs ++ ds) = replay (replay m cs) ds := by
  induction cs generalizing m with
  | nil => rfl
  | cons c cs ih =>
    cases c with
    | readByte a => exact ih m
    | writeByte a b => exact ih (m.write a.toNat b)

theorem replay_readCalls (m : Memory) (a : Word) (n : Nat) : replay m (readCalls a n) = m := by
  induction n generalizing a with
  | zero => rfl
  | succ n ih => exact ih (a + 1#64)

theorem replay_writeCalls (m : Memory) (a : Word) (bs : List Byte) :
    replay m (writeCalls a bs) = writeBytes m a bs := by
  induction bs generalizing m a with
  | nil => rfl
  | cons b bs ih => exact ih (m.write a.toNat b) (a + 1#64)

/-- The traffic of a request does to the backing store what its lookup does, row by row of the transition table
(21_cache.md R87). -/
theorem replay_requestCalls (s : State) (a : Word) : replay s.mem (requestCalls s a) = (lookup s a).mem := by
  unfold requestCalls lookup
  cases (s.setFor a).state
  case invalid => rw [fillCalls, replay_readCalls, fill_mem]
  case clean =>
    by_cases ht : (s.setFor a).tag = tagOf s.params a
    · simp only [if_pos ht, replay]
    · simp only [if_neg ht]
      rw [fillCalls, replay_readCalls, fill_mem]
  case dirty =>
    by_cases ht : (s.setFor a).tag = tagOf s.params a
    · simp only [if_pos ht, replay]
    · simp only [if_neg ht]
      rw [replay_append, writebackCalls, replay_writeCalls, fillCalls, replay_readCalls, fill_mem, writeback_mem]

theorem replay_dataCalls_read (s : State) {a : Word} (ha : aligned8 a = true) :
    replay s.mem (dataCalls s (.read a)) = (memRead s a).1.mem := by
  cases he : s.params.cacheEnable
  · simp [dataCalls, DataRequest.aligned, ha, memRead, he, replay_readCalls]
  · simp [dataCalls, DataRequest.aligned, ha, memRead, he, replay_requestCalls, cacheRead]

theorem replay_dataCalls_write (s : State) {a : Word} (ha : aligned8 a = true) (v : Word) :
    replay s.mem (dataCalls s (.write a v)) = (memWrite s a v).mem := by
  cases he : s.params.cacheEnable
  · simp [dataCalls, DataRequest.aligned, ha, memWrite, he, replay_writeCalls]
  · simp [dataCalls, DataRequest.aligned, ha, memWrite, he, replay_requestCalls, cacheWrite]

/-- The data access of an instruction that completes makes the whole change of the backing store: a misaligned access
has stopped, and the other instructions neither call the port nor change the store. -/
theorem replay_dataCalls_exec {i : Instr} {s t : State} (h : exec i s = .next t) :
    replay s.mem (dataCalls s (dataRequest i s)) = t.mem := by
  cases exec_cases i s with
  | register rd v hx hr =>
    rw [hx] at h
    cases h
    rw [hr]
    rfl
  | load rd a hx hr =>
    rw [hx] at h
    split at h
    next ha =>
      cases h
      rw [hr, replay_dataCalls_read s ha]
      rfl
    next => cases h
  | store a v hx hr =>
    rw [hx] at h
    split at h
    next ha =>
      cases h
      rw [hr, replay_dataCalls_write s ha]
      rfl
    next => cases h
  | branch c imm hx hr =>
    rw [hx] at h
    cases h
    rw [hr]
    cases c <;> rfl
  | error w hi hx hr =>
    rw [hx] at h
    cases h

/-- Settles O53: the fetch only reads, so the data access alone makes the backing store after the step. -/
theorem portCallsMakeTheBackingStore : Obligations.PortCallsMakeTheBackingStore := by
  intro s t h
  obtain ⟨hp, hpc, hexec⟩ := step_next h
  rw [stepCalls_eq hp hpc, replay_append, fetchCalls, replay_readCalls]
  exact replay_dataCalls_exec hexec

end Sys2Proof.Machine
end

section
/-! PROOFS. The invariant at reset and along every step (21_cache.md R97, R103; 70_reset_and_hazards.md R325): an
instruction that completes does to the backing store and the cache what its data access does, and both accesses keep
the invariant. -/

namespace Sys2Proof.Machine

/-! A step is its data access, as far as the backing store and the cache go. -/

/-- The state a data access leaves (40_pipeline.md R157, R158). -/
def DataRequest.after (s : State) : DataRequest → State
  | .none => s
  | .read a => (memRead s a).1
  | .write a v => memWrite s a v

@[simp] theorem DataRequest.after_none (s : State) : DataRequest.none.after s = s := rfl
@[simp] theorem DataRequest.after_read (s : State) (a : Word) : (DataRequest.read a).after s = (memRead s a).1 := rfl
@[simp] theorem DataRequest.after_write (s : State) (a v : Word) :
    (DataRequest.write a v).after s = memWrite s a v := rfl

/-- An aligned data access keeps the invariant. -/
theorem DataRequest.after_inv {s : State} (h : MachineInv s) {r : DataRequest} (ha : r.aligned = true) :
    MachineInv (r.after s) := by
  cases r with
  | none => exact h
  | read a => exact (memRead_spec h ha).inv
  | write a v => exact (memWrite_spec h ha v).inv

/-- The fields of a state that the cache engine works on. -/
structure SameStore (s t : State) : Prop where
  params : t.params = s.params
  mem : t.mem = s.mem
  cache : t.cache = s.cache

theorem SameStore.inv {s t : State} (e : SameStore s t) (h : MachineInv s) : MachineInv t :=
  inv_of_same h e.params e.mem e.cache

theorem SameStore.setAt {s t : State} (e : SameStore s t) (i : Word) : t.setAt i = s.setAt i := by
  rw [State.setAt, State.setAt, e.params, e.cache]

/-- An instruction that completes has made an aligned data access, or none, and the rest of it touches registers and
the pc only. -/
theorem exec_next_access {i : Instr} {s t : State} (h : exec i s = .next t) :
    (dataRequest i s).aligned = true ∧ SameStore ((dataRequest i s).after s) t := by
  cases exec_cases i s with
  | register rd v hx hr =>
    rw [hx] at h
    cases h
    rw [hr]
    exact ⟨rfl, rfl, rfl, rfl⟩
  | load rd a hx hr =>
    rw [hx] at h
    split at h
    next ha =>
      cases h
      rw [hr]
      exact ⟨ha, rfl, rfl, rfl⟩
    next => cases h
  | store a v hx hr =>
    rw [hx] at h
    split at h
    next ha =>
      cases h
      rw [hr]
      exact ⟨ha, rfl, rfl, rfl⟩
    next => cases h
  | branch c imm hx hr =>
    rw [hx] at h
    cases h
    rw [hr]
    cases c <;> exact ⟨rfl, rfl, rfl, rfl⟩
  | error w hi hx hr =>
    rw [hx] at h
    cases h

/-- Settles O39: the step's data access keeps the invariant, and the rest of the step touches no field it speaks of. -/
theorem everyStepKeepsTheInvariant : Obligations.EveryStepKeepsTheInvariant := by
  intro s t h hstep
  obtain ⟨-, -, hexec⟩ := step_next hstep
  obtain ⟨haligned, hsame⟩ := exec_next_access hexec
  exact hsame.inv (DataRequest.after_inv h haligned)

/-! Reset. -/

/-- Every set of the state after reset is INVALID, also the default outside the array. -/
@[simp] theorem State.init_setAt (p : Params) (pc : Word) (regs : Registers) (mem : Memory) (i : Word) :
    (State.init p pc regs mem).setAt i = invalidSet p := by
  rw [State.setAt, State.init_cache, State.init_params, List.getElem?_replicate]
  split <;> rfl

theorem init_shape (p : Params) (pc : Word) (regs : Registers) (mem : Memory) :
    CacheShape (State.init p pc regs mem) := by
  refine ⟨List.length_replicate, fun c hc => ?_, fun c hc => ?_⟩
  · rw [List.eq_of_mem_replicate hc]
    exact List.length_replicate
  · rw [List.eq_of_mem_replicate hc]
    exact Nat.two_pow_pos _

theorem init_inv {p : Params} (hp : p.wf) (pc : Word) (regs : Registers) {mem : Memory} (hm : mem.wf) :
    MachineInv (State.init p pc regs mem) where
  params := hp
  mem := hm
  shape := init_shape p pc regs mem
  clean i _ hc := by
    rw [State.init_setAt] at hc
    cases hc
  unused _ c hc := by rw [List.eq_of_mem_replicate hc, invalidSet]

/-- Settles O38: no set is CLEAN and none is in use; the model's own reset state has legal parameters and an empty
memory. -/
theorem invariantHoldsAfterReset : Obligations.InvariantHoldsAfterReset :=
  ⟨fun _ pc regs _ hp hm => init_inv hp pc regs hm, init_inv (by decide) _ _ (by decide)⟩

end Sys2Proof.Machine
end

section
/-! PROOFS. The address split, in the claims' words (21_cache.md R82, R83, R96). -/

namespace Sys2Proof.Machine

variable {p : Params}

/-- One set has no index bits (21_cache.md R82). -/
theorem setIndexOf_eq_zero (hp : p.wf) (h0 : p.setBits = 0) (a : Word) : setIndexOf p a = 0#64 := by
  have hlt := setIndexOf_lt hp a
  rw [h0, pow_zero, Nat.lt_one_iff] at hlt
  exact BitVec.eq_of_toNat_eq hlt

/-- Settles O44: the laws of the split, `BLOCK_SIZE * NUM_SETS` being one power of two. -/
theorem addressSplitsIntoFields : Obligations.AddressSplitsIntoFields := by
  intro p a hp
  have htag : (tagOf p a).toNat = a.toNat / (p.blockSize * p.numSets) := by
    rw [tagOf_toNat, pow_add, Params.blockSize, Params.numSets]
  exact ⟨offsetOf_toNat hp a, setIndexOf_toNat hp a, htag, blockBaseOf_toNat hp a, tagOf_lt hp a,
    fun h0 => setIndexOf_eq_zero hp h0 a⟩

/-- The three fields rebuild the address (21_cache.md R83). -/
theorem reconstruct_parts (hp : p.wf) (a : Word) : reconstruct p (tagOf p a) (setIndexOf p a) (offsetOf p a) = a := by
  obtain ⟨ht, hs, ho⟩ := parts_of_reconstruct hp (tagOf_lt hp a) (setIndexOf_lt hp a) (offsetOf_lt hp a)
  exact eq_of_parts hp ht hs ho

/-- Settles O45: fields within their widths do not overlap, so `reconstruct` is their sum, and taking it apart gives
them back. -/
theorem addressRoundTrip : Obligations.AddressRoundTrip := by
  intro p hp
  refine ⟨reconstruct_parts hp, fun t s o ht hs ho => ?_⟩
  exact ⟨reconstruct_toNat hp ht hs ho, parts_of_reconstruct hp ht hs ho⟩

/-! The base of a block. -/

/-- The base of the block of an address is rebuilt from the address's own tag and set index, with offset 0. -/
theorem blockBaseOf_eq_reconstruct (hp : p.wf) (a : Word) :
    blockBaseOf p a = reconstruct p (tagOf p a) (setIndexOf p a) 0#64 := by
  apply BitVec.eq_of_toNat_eq
  rw [blockBaseOf_eq hp, reconstruct_toNat hp (tagOf_lt hp a) (setIndexOf_lt hp a) (Nat.two_pow_pos _)]
  rfl

theorem tagOf_blockBaseOf (hp : p.wf) (a : Word) : tagOf p (blockBaseOf p a) = tagOf p a := by
  rw [blockBaseOf_eq_reconstruct hp]
  exact (parts_of_reconstruct hp (tagOf_lt hp a) (setIndexOf_lt hp a) (Nat.two_pow_pos _)).1

/-- Byte `k` of a block has offset `k`. -/
theorem reconstruct_add (hp : p.wf) {t i : Word} (ht : t.toNat < 2 ^ (64 - p.blockBits - p.setBits))
    (hi : i.toNat < 2 ^ p.setBits) {o : Word} (ho : o.toNat < 2 ^ p.blockBits) :
    reconstruct p t i 0#64 + o = reconstruct p t i o := by
  have hbase := reconstruct_toNat hp ht hi (o := 0#64) (Nat.two_pow_pos _)
  have hbyte := reconstruct_toNat hp ht hi ho
  have hlt := (reconstruct p t i o).isLt
  apply BitVec.eq_of_toNat_eq
  rw [BitVec.toNat_add, hbase, hbyte, BitVec.toNat_zero, Nat.add_zero]
  exact Nat.mod_eq_of_lt (hbyte ▸ hlt)

end Sys2Proof.Machine
end

section
/-! PROOFS. One cache request, row by row of the transition table: what it makes of the backing store and of its set,
and its traffic (21_cache.md R86 to R96). -/

namespace Sys2Proof.Machine

/-! The two requests as lookups. -/

theorem memRead_enabled {s : State} (he : s.params.cacheEnable = true) (a : Word) : (memRead s a).1 = lookup s a := by
  rw [memRead, if_pos he, cacheRead]

theorem memRead_disabled {s : State} (he : s.params.cacheEnable = false) (a : Word) : (memRead s a).1 = s := by
  rw [memRead, he, if_neg Bool.false_ne_true]

theorem memWrite_enabled {s : State} (he : s.params.cacheEnable = true) (a v : Word) :
    memWrite s a v = modifySet (lookup s a) a v := by
  rw [memWrite, if_pos he, cacheWrite]

theorem memWrite_disabled {s : State} (he : s.params.cacheEnable = false) (a v : Word) :
    memWrite s a v = directWrite s a v := by
  rw [memWrite, he, if_neg Bool.false_ne_true]

/-! Sets. -/

@[simp] theorem directWrite_setFor (s : State) (a v b : Word) : (directWrite s a v).setFor b = s.setFor b := rfl

theorem setFor_congr {s : State} {a b : Word} (h : setIndexOf s.params a = setIndexOf s.params b) :
    s.setFor a = s.setFor b := by
  rw [State.setFor, State.setFor, h]

theorem evicts_iff {s : State} {a : Word} : s.evicts a = true ↔
    s.params.cacheEnable = true ∧ (s.setFor a).state = .dirty ∧ (s.setFor a).tag ≠ tagOf s.params a := by
  simp [State.evicts, and_assoc]

/-! What a lookup makes of the backing store and of its set. -/

/-- The backing store after a lookup: only a DIRTY block of another tag is written to it (21_cache.md R87, R95). -/
theorem lookup_mem (s : State) (a : Word) : (lookup s a).mem =
    if (s.setFor a).state = .dirty ∧ (s.setFor a).tag ≠ tagOf s.params a then (writeback s a).mem else s.mem := by
  rcases lookup_cases s a with ⟨e, -, ht⟩ | ⟨e, hd⟩ | ⟨e, hd, ht⟩ <;> rw [e]
  · rw [if_neg fun hc => hc.2 ht]
  · rw [if_neg fun hc => hd hc.1, fill_mem]
  · rw [if_pos ⟨hd, ht⟩, fill_mem]

/-- A hit changes nothing (21_cache.md R87). -/
theorem lookup_of_hit {s : State} {a : Word} (hv : (s.setFor a).state ≠ .invalid)
    (ht : (s.setFor a).tag = tagOf s.params a) : lookup s a = s := by
  unfold lookup
  split
  next hi => exact absurd hi hv
  next => exact if_pos ht
  next => exact if_pos ht

/-- The set of a lookup: as it was on a hit, else the block filled from the backing store after the writeback
(21_cache.md R87, R89). -/
theorem lookup_setFor {s : State} (h : MachineInv s) (he : s.params.cacheEnable = true) (a : Word) :
    (lookup s a).setFor a =
      if (s.setFor a).state ≠ .invalid ∧ (s.setFor a).tag = tagOf s.params a then s.setFor a
      else { state := .clean, tag := tagOf s.params a,
             data := readBytes (lookup s a).mem (blockBaseOf s.params a) s.params.blockSize } := by
  by_cases hit : (s.setFor a).state ≠ .invalid ∧ (s.setFor a).tag = tagOf s.params a
  · rw [if_pos hit, lookup_of_hit hit.1 hit.2]
  · rw [if_neg hit]
    rcases lookup_cases s a with ⟨-, hv, ht⟩ | ⟨e, -⟩ | ⟨e, hd, -⟩
    · exact absurd ⟨hv, ht⟩ hit
    · rw [e, fill_setFor h.params h.shape, if_pos rfl, fill_mem]
    · rw [e, fill_setFor (s := writeback s a) h.params (writeback_inv h he hd).shape, if_pos rfl, fill_mem,
        writeback_params]

/-! The traffic, by what the set holds. -/

section
variable {s : State} {a : Word}

theorem requestCalls_of_invalid (hi : (s.setFor a).state = .invalid) : requestCalls s a = fillCalls s a := by
  rw [requestCalls, hi]

theorem requestCalls_of_hit (hv : (s.setFor a).state ≠ .invalid) (ht : (s.setFor a).tag = tagOf s.params a) :
    requestCalls s a = [] := by
  unfold requestCalls
  split
  next hi => exact absurd hi hv
  next => exact if_pos ht
  next => exact if_pos ht

theorem requestCalls_of_clean_miss (hc : (s.setFor a).state = .clean) (ht : (s.setFor a).tag ≠ tagOf s.params a) :
    requestCalls s a = fillCalls s a := by
  rw [requestCalls, hc]
  exact if_neg ht

theorem requestCalls_of_dirty_miss (hd : (s.setFor a).state = .dirty) (ht : (s.setFor a).tag ≠ tagOf s.params a) :
    requestCalls s a = writebackCalls s a ++ fillCalls s a := by
  rw [requestCalls, hd]
  exact if_neg ht

end

theorem readCalls_isWrite {a : Word} {n : Nat} {c : PortCall} (h : c ∈ readCalls a n) : c.isWrite = false := by
  induction n generalizing a with
  | zero => cases h
  | succ n ih =>
    rcases List.mem_cons.mp h with rfl | h
    · rfl
    · exact ih h

/-- A request whose set is not DIRTY only reads at the port (21_cache.md R95). -/
theorem requestCalls_isWrite {s : State} {a : Word} (hd : (s.setFor a).state ≠ .dirty) {c : PortCall}
    (hc : c ∈ requestCalls s a) : c.isWrite = false := by
  unfold requestCalls at hc
  split at hc
  next => exact readCalls_isWrite hc
  next =>
    split at hc
    next => cases hc
    next => exact readCalls_isWrite hc
  next hdirty => exact absurd hdirty hd

/-- Settles O47: the traffic is at most a fill, and without a writeback a lookup leaves the backing store. -/
theorem noWritebackUnlessDirty : Obligations.NoWritebackUnlessDirty := by
  intro s a v he hd
  have hmem : (lookup s a).mem = s.mem := by rw [lookup_mem, if_neg fun hc => hd hc.1]
  refine ⟨fun c hc => requestCalls_isWrite hd hc, ?_, ?_⟩
  · rw [memRead_enabled he, hmem]
  · rw [memWrite_enabled he, modifySet_mem, hmem]

/-! The state of the addressed set after a read. -/

/-- A read of a set that is not DIRTY leaves it CLEAN (21_cache.md R87). -/
theorem lookup_state_of_not_dirty {s : State} (h : MachineInv s) (he : s.params.cacheEnable = true) {a : Word}
    (hd : (s.setFor a).state ≠ .dirty) : ((lookup s a).setFor a).state = .clean := by
  rw [lookup_state h he]
  split
  next hc =>
    obtain ⟨-, hv, -⟩ := (s.cached_iff a).mp hc
    cases hs : (s.setFor a).state
    case invalid => exact absurd hs hv
    case clean => rfl
    case dirty => exact absurd hs hd
  next => rfl

/-- A read miss leaves its set CLEAN, also where it evicts (21_cache.md R87). -/
theorem lookup_state_of_miss {s : State} (h : MachineInv s) (he : s.params.cacheEnable = true) {a : Word}
    (ht : (s.setFor a).tag ≠ tagOf s.params a) : ((lookup s a).setFor a).state = .clean := by
  have hmiss : ¬s.cached a = true := fun hc => ht ((s.cached_iff a).mp hc).2.2
  rw [lookup_state h he, if_neg hmiss]

/-- Settles O46: each row has its state, from what the lookup leaves, and its traffic. -/
theorem cacheTransitionTable : Obligations.CacheTransitionTable := by
  intro s a v h he ha
  obtain ⟨hdirty, hwtag⟩ := (memWrite_spec h ha v).dirty he
  rw [memRead_enabled he]
  refine ⟨(lookup_hit h he a).2, hwtag, hdirty, fun hs => ?invalid, fun hs ht => ?cleanHit, fun hs ht => ?cleanMiss,
    fun hs ht => ?dirtyHit, fun hs ht => ?dirtyMiss⟩
  case invalid => exact ⟨lookup_state_of_not_dirty h he (by simp [hs]), requestCalls_of_invalid hs⟩
  case cleanHit => exact ⟨lookup_state_of_not_dirty h he (by simp [hs]), requestCalls_of_hit (by simp [hs]) ht⟩
  case cleanMiss => exact ⟨lookup_state_of_miss h he ht, requestCalls_of_clean_miss hs ht⟩
  case dirtyHit =>
    have hv : (s.setFor a).state ≠ .invalid := by simp [hs]
    exact ⟨by rw [lookup_of_hit hv ht, hs], requestCalls_of_hit hv ht⟩
  case dirtyMiss =>
    exact ⟨lookup_state_of_miss h he ht, requestCalls_of_dirty_miss hs ht, setFor_data_length h.params h.shape a⟩

end Sys2Proof.Machine
end

section
/-! PROOFS. Eviction: where the victim's bytes go, and that none is lost (21_cache.md R96, R99). -/

namespace Sys2Proof.Machine

/-- The backing store after a read that evicts is the one after the writeback: the fill only reads. -/
theorem memRead_backing_of_evicts {s : State} {a : Word} (hev : s.evicts a = true) (b : Word) :
    (memRead s a).1.backing b = (writeback s a).backing b := by
  obtain ⟨he, hd, ht⟩ := evicts_iff.mp hev
  rw [memRead_enabled he, State.backing, State.backing, lookup_mem, if_pos ⟨hd, ht⟩]

/-- Byte `k` of a set's block goes to the block's base plus `k` (21_cache.md R90). -/
theorem writeback_block {s : State} (hp : s.params.wf) (hs : CacheShape s) (a : Word) {k : Nat}
    (hk : k < s.params.blockSize) :
    some ((writeback s a).backing
      (reconstruct s.params (s.setFor a).tag (setIndexOf s.params a) 0#64 + BitVec.ofNat 64 k)) =
      (s.setFor a).data[k]? := by
  have htag := setFor_tag_lt hp hs a
  have hset := setIndexOf_lt hp a
  have hk64 : k < 2 ^ 64 := lt_trans hk (Nat.pow_lt_pow_right (by omega) (by have := hp.2; omega))
  have hkn : (BitVec.ofNat 64 k).toNat = k := by rw [BitVec.toNat_ofNat, Nat.mod_eq_of_lt hk64]
  have hoff : (BitVec.ofNat 64 k).toNat < 2 ^ s.params.blockBits := hkn.symm ▸ hk
  obtain ⟨ht, hi, ho⟩ := parts_of_reconstruct hp htag hset hoff
  rw [reconstruct_add hp htag hset hoff, (writeback_backing hp hs a _).1 ⟨hi, ht⟩, ho, hkn]

/-- Settles O48: the parts of both bases are read off `reconstruct`; the victim's bytes are the writeback's, and a byte
of the block to be filled is not in the victim's block, whose tag is another. -/
theorem writebackGoesToTheStoredTag : Obligations.WritebackGoesToTheStoredTag := by
  intro s a h hev ha base
  obtain ⟨-, -, hne⟩ := evicts_iff.mp hev
  obtain ⟨ht, hi, -⟩ := parts_of_reconstruct h.params (setFor_tag_lt h.params h.shape a) (setIndexOf_lt h.params a)
    (o := 0#64) (Nat.two_pow_pos _)
  refine ⟨ht, hi, blockBaseOf_eq_reconstruct h.params a, ?_, fun k hk => ?_, fun b hb => ?_⟩
  · rw [tagOf_blockBaseOf h.params]
    exact ht ▸ hne
  · rw [memRead_backing_of_evicts hev]
    exact writeback_block h.params h.shape a hk
  · rw [memRead_backing_of_evicts hev]
    refine (writeback_backing h.params h.shape a b).2 fun hin => hne ?_
    rw [← hin.2, ← tagOf_blockBaseOf h.params b, hb, tagOf_blockBaseOf h.params]

/-- What a read and a write have in common: the set ends with the request's tag, and of the backing store only a
DIRTY victim's bytes change. -/
theorem request_effect {s : State} (h : MachineInv s) (he : s.params.cacheEnable = true) {b : Word}
    (hb : aligned8 b = true) {v : Word} {u : State} (hu : u ∈ [(memRead s b).1, memWrite s b v]) :
    MachineInv u ∧ u.params = s.params ∧ (u.setFor b).tag = tagOf s.params b ∧
      ∀ c, u.backing c = if s.evictedByte b c then s.view c else s.backing c := by
  simp only [List.mem_cons, List.not_mem_nil, or_false] at hu
  rcases hu with rfl | rfl
  · have m := memRead_spec h hb
    refine ⟨m.inv, m.params, ?_, m.backing⟩
    rw [memRead_enabled he]
    exact (lookup_hit h he b).2
  · have m := memWrite_spec h hb v
    exact ⟨m.inv, m.params, (m.dirty he).2, m.cached he⟩

/-- The dword loads see just after a write of it. -/
theorem memWrite_view_dword {s : State} (h : MachineInv s) {a : Word} (ha : aligned8 a = true) (v : Word) {k : Nat}
    (hk : k < 8) : (memWrite s a v).view (a + BitVec.ofNat 64 k) = byteOf v k := by
  rw [(memWrite_spec h ha v).view, if_pos (inDword_add a hk), add_ofNat_sub_toNat a (by omega), dwordBytes_getD hk]

/-- A load of a block that its set does not hold returns what the backing store holds. -/
theorem memRead_value_of_backing {u : State} (h : MachineInv u) {a v : Word} (ha : aligned8 a = true)
    (ht : (u.setFor a).tag ≠ tagOf u.params a)
    (hv : ∀ k, k < 8 → u.backing (a + BitVec.ofNat 64 k) = byteOf v k) : (memRead u a).2 = v := by
  rw [(memRead_spec h ha).value]
  refine viewDword_eq fun k hk => ?_
  obtain ⟨-, hset, htag⟩ := parts_add h.params ha hk
  have hmiss : ¬u.cached (a + BitVec.ofNat 64 k) = true := fun hc => by
    obtain ⟨-, -, htc⟩ := (u.cached_iff _).mp hc
    exact ht (by rw [← setFor_congr hset, htc, htag])
  rw [State.view_of_not_cached hmiss, hv k hk]

/-- An eviction saves the dword of `a` that a DIRTY set held: a request at `b` writes its eight bytes back, so a load
of `a` misses and finds them in the backing store. -/
theorem eviction_saves_dword {s : State} (h : MachineInv s) (he : s.params.cacheEnable = true) {a b v v' : Word}
    (ha : aligned8 a = true) (hb : aligned8 b = true) (hi : setIndexOf s.params b = setIndexOf s.params a)
    (ht : tagOf s.params b ≠ tagOf s.params a) (hd : (s.setFor a).state = .dirty)
    (hta : (s.setFor a).tag = tagOf s.params a) (hv : ∀ k, k < 8 → s.view (a + BitVec.ofNat 64 k) = byteOf v k)
    {u : State} (hu : u ∈ [(memRead s b).1, memWrite s b v']) :
    (u.setFor a).tag = tagOf s.params b ∧ (∀ k, k < 8 → u.backing (a + BitVec.ofNat 64 k) = byteOf v k) ∧
      (memRead u a).2 = v := by
  obtain ⟨hinv, hparams, htag, hbacking⟩ := request_effect h he hb hu
  have hset : s.setFor b = s.setFor a := setFor_congr hi
  have hev : s.evicts b = true := evicts_iff.mpr ⟨he, by rw [hset, hd], by rw [hset, hta]; exact ht.symm⟩
  have hsaved : ∀ k, k < 8 → u.backing (a + BitVec.ofNat 64 k) = byteOf v k := by
    intro k hk
    have hvictim := evictedByte_dword h.params ha hev hi.symm (by rw [hset, hta]) hk
    rw [hbacking, if_pos hvictim, hv k hk]
  have htag' : (u.setFor a).tag = tagOf s.params b := by rw [← htag, setFor_congr (by rw [hparams, hi])]
  have hgone : (u.setFor a).tag ≠ tagOf u.params a := by
    rw [htag', hparams]
    exact ht
  exact ⟨htag', hsaved, memRead_value_of_backing hinv ha hgone hsaved⟩

/-- Settles O49: the write leaves the set DIRTY with the tag of `a` and the value in it, which an eviction saves. -/
theorem dirtyDataSurvivesEviction : Obligations.DirtyDataSurvivesEviction := by
  intro s a b v v' h he ha hb hi ht
  have m := memWrite_spec h ha v
  obtain ⟨hdirty, htag⟩ := m.dirty he
  refine ⟨hdirty, fun u hu => ?_⟩
  rw [← m.params] at he hi ht htag ⊢
  exact eviction_saves_dword m.inv he ha hb hi ht hdirty htag (fun k hk => memWrite_view_dword h ha v hk) hu

end Sys2Proof.Machine
end

section
/-! PROOFS. What changes a set: a data access alone, the addressed set alone, and as a function of that set, the
request and the backing store (21_cache.md R87, R88). -/

namespace Sys2Proof.Machine

/-! A data access and the sets. -/

/-- A set in use means that the cache is enabled (21_cache.md R103). -/
theorem enabled_of_valid {s : State} (h : MachineInv s) {i : Word} (hv : (s.setAt i).state ≠ .invalid) :
    s.params.cacheEnable = true := by
  by_contra he
  have hunused := h.unused (Bool.eq_false_of_not_eq_true he)
  by_cases hlt : i.toNat < s.cache.length
  · exact hv (hunused _ (s.setAt_mem i hlt))
  · exact hv (by rw [State.setAt, List.getElem?_eq_none (by omega)]; rfl)

/-- A read leaves no set INVALID that was not: the addressed one ends a hit, the others stay. -/
theorem memRead_valid {s : State} (h : MachineInv s) {a : Word} (ha : aligned8 a = true) {i : Word}
    (hv : (s.setAt i).state ≠ .invalid) : ((memRead s a).1.setAt i).state ≠ .invalid := by
  by_cases hi : i = setIndexOf s.params a
  · have he := enabled_of_valid h hv
    have hit := (lookup_hit h he a).1
    rw [State.setFor, lookup_params, ← hi] at hit
    rwa [memRead_enabled he]
  · rwa [(memRead_spec h ha).others i hi]

/-- A write leaves no set INVALID that was not: the addressed one ends DIRTY, the others stay. -/
theorem memWrite_valid {s : State} (h : MachineInv s) {a : Word} (ha : aligned8 a = true) (v : Word) {i : Word}
    (hv : (s.setAt i).state ≠ .invalid) : ((memWrite s a v).setAt i).state ≠ .invalid := by
  have m := memWrite_spec h ha v
  by_cases hi : i = setIndexOf s.params a
  · have hdirty := (m.dirty (enabled_of_valid h hv)).1
    rw [State.setFor, m.params, ← hi] at hdirty
    simp [hdirty]
  · rwa [m.others i hi]

theorem DataRequest.after_valid {s : State} (h : MachineInv s) {r : DataRequest} (ha : r.aligned = true) {i : Word}
    (hv : (s.setAt i).state ≠ .invalid) : ((r.after s).setAt i).state ≠ .invalid := by
  cases r with
  | none => exact hv
  | read a => exact memRead_valid h ha hv
  | write a v => exact memWrite_valid h ha v hv

/-- A data access leaves every set that it does not address. -/
theorem DataRequest.after_setAt {s : State} (h : MachineInv s) {r : DataRequest} (ha : r.aligned = true) {i : Word}
    (hi : ∀ a, (r = .read a ∨ ∃ v, r = .write a v) → i ≠ setIndexOf s.params a) :
    (r.after s).setAt i = s.setAt i := by
  cases r with
  | none => rfl
  | read a => exact (memRead_spec h ha).others i (hi a (.inl rfl))
  | write a v => exact (memWrite_spec h ha v).others i (hi a (.inr ⟨v, rfl⟩))

/-! The addressed set afterwards. -/

section
variable {s u : State} {a : Word} (h : MachineInv s) (h' : MachineInv u) (hp : s.params = u.params)
  (hset : s.setFor a = u.setFor a)
include h h' hp hset

/-- What a lookup makes of its set is a function of the set, the address and the backing store. -/
theorem lookup_setFor_congr (he : s.params.cacheEnable = true) (hm : s.mem = u.mem) :
    (lookup s a).setFor a = (lookup u a).setFor a := by
  rw [lookup_setFor h he, lookup_setFor h' (hp ▸ he), lookup_mem, lookup_mem, writeback_mem, writeback_mem, hset, hm,
    hp]

theorem modifySet_setFor_congr (v : Word) : (modifySet s a v).setFor a = (modifySet u a v).setFor a := by
  rw [modifySet_setFor h.params h.shape, if_pos rfl, modifySet_setFor h'.params h'.shape, if_pos rfl, hset, hp]

theorem memRead_setFor_congr (hm : s.mem = u.mem) : (memRead s a).1.setFor a = (memRead u a).1.setFor a := by
  cases he : s.params.cacheEnable
  · rwa [memRead_disabled he, memRead_disabled (hp ▸ he)]
  · rw [memRead_enabled he, memRead_enabled (hp ▸ he)]
    exact lookup_setFor_congr h h' hp hset he hm

theorem memWrite_setFor_congr (hm : s.mem = u.mem) (v : Word) :
    (memWrite s a v).setFor a = (memWrite u a v).setFor a := by
  cases he : s.params.cacheEnable
  · rwa [memWrite_disabled he, memWrite_disabled (hp ▸ he), directWrite_setFor, directWrite_setFor]
  · have he' : u.params.cacheEnable = true := hp ▸ he
    rw [memWrite_enabled he, memWrite_enabled he']
    refine modifySet_setFor_congr (lookup_inv h he a) (lookup_inv h' he' a) ?_ ?_ v
    · rw [lookup_params, lookup_params, hp]
    · exact lookup_setFor_congr h h' hp hset he hm

end

/-- Settles O52: a step does to the sets what its data access does, which leaves the sets it does not address and makes
none INVALID; and what it makes of the addressed one is a function of what the statement lists. -/
theorem onlyTheAddressedSetChanges : Obligations.OnlyTheAddressedSetChanges := by
  refine ⟨fun s t i h hstep => ?_, fun s u a v h h' hp hset hm => ?_⟩
  · obtain ⟨-, -, hexec⟩ := step_next hstep
    obtain ⟨haligned, hsame⟩ := exec_next_access hexec
    rw [hsame.setAt]
    exact ⟨DataRequest.after_setAt h haligned, DataRequest.after_valid h haligned⟩
  · exact ⟨memRead_setFor_congr h h' hp hset hm, memWrite_setFor_congr h h' hp hset hm v⟩

end Sys2Proof.Machine
end

section
/-! PROOFS. The decoder and the encoder are inverse to each other (30_encoding.md R111 to R115, R124, R130): a word's
instruction by its opcode, what each class of the decoder keeps of the fields, and the bytes of a word. -/

namespace Sys2Proof.Machine

/-! The instruction of a word, by its opcode. -/

section
variable {w : InstWord}

theorem decodeWord_op (h : opcodeOf w = opcodeOp) :
    decodeWord w = decodeOp (funct3Of w) (funct7Of w) (rdOf w) (rs1Of w) (rs2Of w) := by
  rw [decodeWord, if_pos h]

theorem decodeWord_opImm (h : opcodeOf w = opcodeOpImm) :
    decodeWord w = decodeOpImm (funct3Of w) (rdOf w) (rs1Of w) (immIOf w) := by
  rw [decodeWord, h, if_neg (by decide), if_pos rfl]

theorem decodeWord_load (h : opcodeOf w = opcodeLoad) :
    decodeWord w = decodeLoad (funct3Of w) (rdOf w) (rs1Of w) (immIOf w) := by
  rw [decodeWord, h, if_neg (by decide), if_neg (by decide), if_pos rfl]

theorem decodeWord_store (h : opcodeOf w = opcodeStore) :
    decodeWord w = decodeStore (funct3Of w) (rs1Of w) (rs2Of w) (immSOf w) := by
  rw [decodeWord, h, if_neg (by decide), if_neg (by decide), if_neg (by decide), if_pos rfl]

theorem decodeWord_branch (h : opcodeOf w = opcodeBranch) :
    decodeWord w = decodeBranch (funct3Of w) (rs1Of w) (rs2Of w) (immBOf w) := by
  rw [decodeWord, h, if_neg (by decide), if_neg (by decide), if_neg (by decide), if_neg (by decide), if_pos rfl]

end

/-! Each class answers a well-formed term, whose word has the fields the class was given. -/

section
variable (f3 : BitVec 3) (f7 : BitVec 7) (rd rs1 rs2 : RegIdx) (imm : BitVec 12) (off : BitVec 13)

/-- The subtract mark goes to SUB, so the ADD term carries another funct7 (30_encoding.md R120). -/
theorem wf_encode_decodeOp : (decodeOp f3 f7 rd rs1 rs2).wf = true ∧
    encode (decodeOp f3 f7 rd rs1 rs2) = encodeR f7 rs2 rs1 f3 rd opcodeOp := by
  rcases funct3_cases f3 with rfl | rfl | rfl | rfl | rfl | rfl | rfl | rfl
  case inl =>
    by_cases h7 : f7 = funct7Sub
    · subst h7
      exact ⟨rfl, rfl⟩
    · have hadd : decodeOp 0#3 f7 rd rs1 rs2 = .add f7 rd rs1 rs2 := if_neg h7
      rw [hadd]
      exact ⟨bne_iff_ne.mpr h7, rfl⟩
  all_goals exact ⟨rfl, rfl⟩

theorem wf_encode_decodeOpImm : (decodeOpImm f3 rd rs1 imm).wf = true ∧
    encode (decodeOpImm f3 rd rs1 imm) = encodeI imm rs1 f3 rd opcodeOpImm := by
  rcases funct3_cases f3 with rfl | rfl | rfl | rfl | rfl | rfl | rfl | rfl <;> exact ⟨rfl, rfl⟩

theorem wf_encode_decodeLoad : (decodeLoad f3 rd rs1 imm).wf = true ∧
    encode (decodeLoad f3 rd rs1 imm) = encodeI imm rs1 f3 rd opcodeLoad := by
  rcases funct3_cases f3 with rfl | rfl | rfl | rfl | rfl | rfl | rfl | rfl <;> exact ⟨rfl, rfl⟩

theorem wf_encode_decodeStore : (decodeStore f3 rs1 rs2 imm).wf = true ∧
    encode (decodeStore f3 rs1 rs2 imm) = encodeS imm rs2 rs1 f3 opcodeStore := by
  rcases funct3_cases f3 with rfl | rfl | rfl | rfl | rfl | rfl | rfl | rfl <;> exact ⟨rfl, rfl⟩

/-- A branch term is well-formed as its offset is (30_encoding.md R115). -/
theorem wf_encode_decodeBranch : (decodeBranch f3 rs1 rs2 off).wf = offsetEven off ∧
    encode (decodeBranch f3 rs1 rs2 off) = encodeB off rs2 rs1 f3 opcodeBranch := by
  rcases funct3_cases f3 with rfl | rfl | rfl | rfl | rfl | rfl | rfl | rfl <;> exact ⟨rfl, rfl⟩

end

theorem wf_unsupported {w : InstWord} :
    (Instr.unsupported w).wf = true ↔ opcodeSupported (opcodeOf w) = false := by
  rw [Instr.wf, Bool.not_eq_true']

/-- The word back from its instruction, in each class from its fields. -/
theorem wf_encode_decodeWord (w : InstWord) : (decodeWord w).wf = true ∧ encode (decodeWord w) = w := by
  cases hs : opcodeSupported (opcodeOf w)
  case false =>
    rw [decodeWord_unsupported hs]
    exact ⟨wf_unsupported.mpr hs, rfl⟩
  case true =>
    rcases opcodeSupported_iff.mp hs with hop | hop | hop | hop | hop
    · obtain ⟨hwf, henc⟩ := wf_encode_decodeOp (funct3Of w) (funct7Of w) (rdOf w) (rs1Of w) (rs2Of w)
      rw [decodeWord_op hop, henc, ← hop]
      exact ⟨hwf, encodeR_fields w⟩
    · obtain ⟨hwf, henc⟩ := wf_encode_decodeOpImm (funct3Of w) (rdOf w) (rs1Of w) (immIOf w)
      rw [decodeWord_opImm hop, henc, ← hop]
      exact ⟨hwf, encodeI_fields w⟩
    · obtain ⟨hwf, henc⟩ := wf_encode_decodeLoad (funct3Of w) (rdOf w) (rs1Of w) (immIOf w)
      rw [decodeWord_load hop, henc, ← hop]
      exact ⟨hwf, encodeI_fields w⟩
    · obtain ⟨hwf, henc⟩ := wf_encode_decodeStore (funct3Of w) (rs1Of w) (rs2Of w) (immSOf w)
      rw [decodeWord_store hop, henc, ← hop]
      exact ⟨hwf, encodeS_fields w⟩
    · obtain ⟨hwf, henc⟩ := wf_encode_decodeBranch (funct3Of w) (rs1Of w) (rs2Of w) (immBOf w)
      rw [decodeWord_branch hop, henc, ← hop]
      exact ⟨hwf.trans (immBOf_even w), encodeB_fields w⟩

/-- Settles O2: a word's fields make up the word, in the format of each of the five opcodes, and the rest is carried
whole by UNSUPPORTED. -/
theorem encodeOfDecodeIsTheWord : Obligations.EncodeOfDecodeIsTheWord := wf_encode_decodeWord

/-! The instruction back from its word. -/

/-- Each constructor's word is of the constructor's format, opcode and funct3, which its decoder class reads. -/
theorem decodeWord_encode {i : Instr} (h : i.wf = true) : decodeWord (encode i) = i := by
  cases i
  case add f7 rd rs1 rs2 => exact (decodeWord_encodeR f7 rs2 rs1 rd funct3AddSub).trans (if_neg (bne_iff_ne.mp h))
  case sub | xor | or | and | opF3_001 | opF3_010 | opF3_011 | opF3_101 => exact decodeWord_encodeR ..
  case addi | xori | ori | andi | opImmF3_001 | opImmF3_010 | opImmF3_011 | opImmF3_101 => exact decodeWord_encodeI ..
  case ld | loadF3_000 | loadF3_001 | loadF3_010 | loadF3_100 | loadF3_101 | loadF3_110 | loadF3_111 =>
    exact decodeWord_encodeI_load ..
  case sd | storeF3_000 | storeF3_001 | storeF3_010 | storeF3_100 | storeF3_101 | storeF3_110 | storeF3_111 =>
    exact decodeWord_encodeS ..
  case beq | bne | blt | bge | bltu | bgeu | branchF3_010 | branchF3_011 => exact decodeWord_encodeB _ _ _ _ h
  case unsupported => exact decodeWord_unsupported (wf_unsupported.mp h)

/-- The four bytes in which a word lies in memory decode to the word's instruction, whatever follows (20_memory.md
R53). -/
theorem decodeBytes_leBytes (w : InstWord) (rest : List Byte) :
    decodeBytes (leBytes 4 w.toNat ++ rest) = .ok (decodeWord w, rest) := by
  have hw : BitVec.ofNat 32 (leValue (leBytes 4 w.toNat)) = w := by
    have hlt := w.isLt
    apply BitVec.eq_of_toNat_eq
    rw [BitVec.toNat_ofNat, leValue_leBytes]
    omega
  calc decodeBytes (leBytes 4 w.toNat ++ rest)
      = .ok (decodeWord (BitVec.ofNat 32 (leValue (leBytes 4 w.toNat))), rest) := decodeBytes_of_bytes _ _ _ _ rest
    _ = .ok (decodeWord w, rest) := by rw [hw]

/-- Settles O1: each format's word has the fields it was made of, and its four bytes are the word's. -/
theorem decodeOfEncodeIsTheInstruction : Obligations.DecodeOfEncodeIsTheInstruction := by
  intro i hwf
  have hdecode := decodeWord_encode hwf
  refine ⟨hdecode, fun rest => ?_⟩
  rw [decodeBytes_leBytes, hdecode]

end Sys2Proof.Machine
end

section
/-! PROOFS. The opcode table and the decoder (30_encoding.md R129): which rows share a word, and the first row a word
matches. -/

namespace Sys2Proof.Machine

/-! Two rows that share a word. -/

/-- A row but the last is a row of one of the five opcodes, and its mask holds opcode and funct3. -/
theorem row_kinds : ∀ r ∈ opcodeRows,
    (r.order < 42 ∧ r.mask &&& 0x0000707F#32 = 0x0000707F#32 ∧ opcodeSupported (opcodeOf r.value) = true) ∨
      (r.order = 42 ∧ r.mnemonic = "UNSUPPORTED") := by
  decide

/-- Of two rows but the last, only those of SUB and ADD have opcode and funct3 in common. -/
theorem rows_of_same_fields : ∀ r ∈ opcodeRows, ∀ q ∈ opcodeRows, r.order < q.order → q.order < 42 →
    opcodeOf r.value = opcodeOf q.value → funct3Of r.value = funct3Of q.value →
    r = opRows[0] ∧ q = opRows[1] := by
  decide

/-- A word of a row that holds opcode and funct3 has the row's. -/
theorem fields_of_covers {r : OpcodeRow} {w : InstWord} (hm : r.mask &&& 0x0000707F#32 = 0x0000707F#32)
    (hc : r.covers w = true) : opcodeOf w = opcodeOf r.value ∧ funct3Of w = funct3Of r.value := by
  have hrow : w &&& r.mask = r.value := beq_iff_eq.mp hc
  have hw : w &&& 0x0000707F#32 = r.value &&& 0x0000707F#32 := by rw [← hrow, BitVec.and_assoc, hm]
  have hv : (r.value &&& 0x0000707F#32) &&& 0x0000707F#32 = r.value &&& 0x0000707F#32 := by
    rw [BitVec.and_assoc, BitVec.and_self]
  obtain ⟨hop, h3⟩ := (match_opcode_funct3 hv).mp hw
  obtain ⟨hop', h3'⟩ := (match_opcode_funct3 hv).mp rfl
  exact ⟨hop.trans hop'.symm, h3.trans h3'.symm⟩

section
variable {r q : OpcodeRow} {w : InstWord} (hr : r ∈ opcodeRows) (hq : q ∈ opcodeRows) (hrw : r.covers w = true)
  (hlt : r.order < q.order)
include hr hq hrw hlt

/-- The earlier of two rows that share a word is not the last row. -/
theorem earlier_row_supported : opcodeSupported (opcodeOf w) = true := by
  rcases row_kinds r hr with ⟨-, hm, hs⟩ | ⟨h42, -⟩
  · rwa [(fields_of_covers hm hrw).1]
  · rcases row_kinds q hq with ⟨hq42, -, -⟩ | ⟨hq42, -⟩ <;> omega

/-- The rows of SUB and ADD, or the later is the last row. -/
theorem rows_sharing_word (hqw : q.covers w = true) :
    (r = opRows[0] ∧ q = opRows[1]) ∨ (q.order = 42 ∧ q.mnemonic = "UNSUPPORTED") := by
  rcases row_kinds q hq with ⟨hq42, hmq, -⟩ | hlast
  · rcases row_kinds r hr with ⟨-, hmr, -⟩ | ⟨hr42, -⟩
    · obtain ⟨hopr, h3r⟩ := fields_of_covers hmr hrw
      obtain ⟨hopq, h3q⟩ := fields_of_covers hmq hqw
      exact .inl (rows_of_same_fields r hr q hq hlt hq42 (hopr.symm.trans hopq) (h3r.symm.trans h3q))
    · omega
  · exact .inr hlast

end

/-! The first row that matches. -/

theorem opcodeRows_sorted : opcodeRows.Pairwise fun r q => r.order < q.order := by decide

theorem firstMatch_eq_some {r : OpcodeRow} {w : InstWord} (hr : r ∈ opcodeRows) (hc : r.covers w = true)
    (hfirst : ∀ q ∈ opcodeRows, q.covers w = true → ¬q.order < r.order) : firstMatch w = some r := by
  obtain ⟨before, after, hsplit⟩ := List.append_of_mem hr
  have hsorted := opcodeRows_sorted
  rw [hsplit, List.pairwise_append] at hsorted
  obtain ⟨-, -, hbefore⟩ := hsorted
  refine List.find?_eq_some_iff_append.mpr ⟨hc, before, after, hsplit, fun q hq => ?_⟩
  have hmem : q ∈ opcodeRows := by rw [hsplit]; exact List.mem_append_left _ hq
  have hno : ¬q.covers w = true := fun hqc => hfirst q hmem hqc (hbefore q hq r List.mem_cons_self)
  rw [Bool.eq_false_of_not_eq_true hno, Bool.not_false]

/-! The row of an instruction. -/

theorem eq_add_of_rowOrder {i : Instr} (h : rowOrder i = 2) : ∃ f7 rd rs1 rs2, i = .add f7 rd rs1 rs2 := by
  cases i
  case add f7 rd rs1 rs2 => exact ⟨f7, rd, rs1, rs2, rfl⟩
  all_goals cases h

theorem eq_unsupported_of_rowOrder {i : Instr} (h : rowOrder i = 42) : ∃ w, i = .unsupported w := by
  cases i
  case unsupported w => exact ⟨w, rfl⟩
  all_goals cases h

/-- The row of SUB does not match the word of an ADD, which carries another funct7 (30_encoding.md R120). -/
theorem sub_row_not_covers_add {f7 : BitVec 7} {rd rs1 rs2 : RegIdx} (hwf : (Instr.add f7 rd rs1 rs2).wf = true) :
    ¬opRows[0].covers (encode (.add f7 rd rs1 rs2)) = true := by
  intro hc
  obtain ⟨-, -, h7⟩ := (match_opcode_funct3_funct7 (v := 0x40000033#32) (by decide)).mp (beq_iff_eq.mp hc)
  obtain ⟨-, -, h7', -⟩ := fields_encodeR f7 rs2 rs1 rd funct3AddSub opcodeOp
  exact bne_iff_ne.mp hwf (h7'.symm.trans h7)

/-- The family of one fact for each constructor, as one fact. -/
theorem matchesItsRow (i : Instr) : Laws.MatchesItsRow.Statement i :=
  match i with
  | .sub _ _ _ => Laws.MatchesItsRow.sub _ _ _
  | .add _ _ _ _ => Laws.MatchesItsRow.add _ _ _ _
  | .xor _ _ _ _ => Laws.MatchesItsRow.xor _ _ _ _
  | .or _ _ _ _ => Laws.MatchesItsRow.or _ _ _ _
  | .and _ _ _ _ => Laws.MatchesItsRow.and _ _ _ _
  | .opF3_001 _ _ _ _ => Laws.MatchesItsRow.opF3_001 _ _ _ _
  | .opF3_010 _ _ _ _ => Laws.MatchesItsRow.opF3_010 _ _ _ _
  | .opF3_011 _ _ _ _ => Laws.MatchesItsRow.opF3_011 _ _ _ _
  | .opF3_101 _ _ _ _ => Laws.MatchesItsRow.opF3_101 _ _ _ _
  | .addi _ _ _ => Laws.MatchesItsRow.addi _ _ _
  | .xori _ _ _ => Laws.MatchesItsRow.xori _ _ _
  | .ori _ _ _ => Laws.MatchesItsRow.ori _ _ _
  | .andi _ _ _ => Laws.MatchesItsRow.andi _ _ _
  | .opImmF3_001 _ _ _ => Laws.MatchesItsRow.opImmF3_001 _ _ _
  | .opImmF3_010 _ _ _ => Laws.MatchesItsRow.opImmF3_010 _ _ _
  | .opImmF3_011 _ _ _ => Laws.MatchesItsRow.opImmF3_011 _ _ _
  | .opImmF3_101 _ _ _ => Laws.MatchesItsRow.opImmF3_101 _ _ _
  | .ld _ _ _ => Laws.MatchesItsRow.ld _ _ _
  | .loadF3_000 _ _ _ => Laws.MatchesItsRow.loadF3_000 _ _ _
  | .loadF3_001 _ _ _ => Laws.MatchesItsRow.loadF3_001 _ _ _
  | .loadF3_010 _ _ _ => Laws.MatchesItsRow.loadF3_010 _ _ _
  | .loadF3_100 _ _ _ => Laws.MatchesItsRow.loadF3_100 _ _ _
  | .loadF3_101 _ _ _ => Laws.MatchesItsRow.loadF3_101 _ _ _
  | .loadF3_110 _ _ _ => Laws.MatchesItsRow.loadF3_110 _ _ _
  | .loadF3_111 _ _ _ => Laws.MatchesItsRow.loadF3_111 _ _ _
  | .sd _ _ _ => Laws.MatchesItsRow.sd _ _ _
  | .storeF3_000 _ _ _ => Laws.MatchesItsRow.storeF3_000 _ _ _
  | .storeF3_001 _ _ _ => Laws.MatchesItsRow.storeF3_001 _ _ _
  | .storeF3_010 _ _ _ => Laws.MatchesItsRow.storeF3_010 _ _ _
  | .storeF3_100 _ _ _ => Laws.MatchesItsRow.storeF3_100 _ _ _
  | .storeF3_101 _ _ _ => Laws.MatchesItsRow.storeF3_101 _ _ _
  | .storeF3_110 _ _ _ => Laws.MatchesItsRow.storeF3_110 _ _ _
  | .storeF3_111 _ _ _ => Laws.MatchesItsRow.storeF3_111 _ _ _
  | .beq _ _ _ => Laws.MatchesItsRow.beq _ _ _
  | .bne _ _ _ => Laws.MatchesItsRow.bne _ _ _
  | .blt _ _ _ => Laws.MatchesItsRow.blt _ _ _
  | .bge _ _ _ => Laws.MatchesItsRow.bge _ _ _
  | .bltu _ _ _ => Laws.MatchesItsRow.bltu _ _ _
  | .bgeu _ _ _ => Laws.MatchesItsRow.bgeu _ _ _
  | .branchF3_010 _ _ _ => Laws.MatchesItsRow.branchF3_010 _ _ _
  | .branchF3_011 _ _ _ => Laws.MatchesItsRow.branchF3_011 _ _ _
  | .unsupported _ => Laws.MatchesItsRow.unsupported _

/-- No row before an instruction's own matches its word: SUB's excludes the words of ADD, and the words of the last
row have none of the opcodes of the others. -/
theorem no_earlier_row {i : Instr} {r q : OpcodeRow} (hwf : i.wf = true) (hr : r ∈ opcodeRows)
    (horder : r.order = rowOrder i) (hri : r.covers (encode i) = true) (hq : q ∈ opcodeRows)
    (hqi : q.covers (encode i) = true) : ¬q.order < r.order := by
  intro hlt
  rcases rows_sharing_word hq hr hqi hlt hri with ⟨rfl, rfl⟩ | ⟨h42, -⟩
  · obtain ⟨f7, rd, rs1, rs2, rfl⟩ := eq_add_of_rowOrder horder.symm
    exact sub_row_not_covers_add hwf hqi
  · obtain ⟨w, rfl⟩ := eq_unsupported_of_rowOrder (horder.symm.trans h42)
    have hsupported := earlier_row_supported hq hr hqi hlt
    exact Bool.false_ne_true ((wf_unsupported.mp hwf).symm.trans hsupported)

/-- The first row that an instruction's word matches is the instruction's own, canonically or not. -/
theorem firstMatch_encode {i : Instr} (hwf : i.wf = true) : ∃ r, firstMatch (encode i) = some r ∧
    r.order = rowOrder i ∧ r.coversCanonically (encode i) = i.canonical := by
  obtain ⟨r, hr, horder, hri, hcanon⟩ := matchesItsRow i hwf
  exact ⟨r, firstMatch_eq_some hr hri fun q hq hqi => no_earlier_row hwf hr horder hri hq hqi, horder, hcanon⟩

/-- Settles O4: a word is the word of its instruction, whose row is the first that matches; the overlaps are
`rows_sharing_word`. -/
theorem firstMatchingRowIsDecoded : Obligations.FirstMatchingRowIsDecoded := by
  intro w
  obtain ⟨hwf, henc⟩ := wf_encode_decodeWord w
  obtain ⟨r, hfirst, horder, hcanon⟩ := firstMatch_encode hwf
  rw [henc] at hfirst hcanon
  refine ⟨by rw [hfirst, Option.map_some, horder], fun r hr q hq hrw hqw hlt => ?_, ?_⟩
  · rcases rows_sharing_word hr hq hrw hlt hqw with ⟨rfl, rfl⟩ | ⟨-, hlast⟩
    · exact .inl ⟨rfl, rfl⟩
    · exact .inr hlast
  · simp [hfirst, hcanon]

end Sys2Proof.Machine
end

section
/-! PROOFS. What the decode stage makes of a word by its opcode: the words the spec writes out, the immediate and its
range, the error, and the eight forms of LOAD and STORE (30_encoding.md R113 to R116, R122, R123, R130). -/

namespace Sys2Proof.Machine

/-- Settles O3: the decoder run on each of the twelve words. -/
theorem specExampleWordsDecode : Obligations.SpecExampleWordsDecode := by
  unfold Obligations.SpecExampleWordsDecode
  decide

/-! The class of an opcode. -/

/-- The control table has a row for each of the five opcodes (30_encoding.md R117). -/
theorem classOf_supported {op : BitVec 7} (h : opcodeSupported op = true) : ∃ c, classOf op = some c := by
  rcases opcodeSupported_iff.mp h with rfl | rfl | rfl | rfl | rfl <;> exact ⟨_, rfl⟩

/-- The control table has a row for no other opcode (30_encoding.md R123). -/
theorem classOf_unsupported {op : BitVec 7} (h : opcodeSupported op = false) : classOf op = none := by
  simp only [opcodeSupported, Bool.or_eq_false_iff, beq_eq_false_iff_ne] at h
  obtain ⟨⟨⟨⟨hop, himm⟩, hload⟩, hstore⟩, hbranch⟩ := h
  rw [classOf, if_neg hop, if_neg himm, if_neg hload, if_neg hstore, if_neg hbranch]

/-! The immediate of a word, by its opcode. -/

section
variable {w : InstWord}

theorem extractImmediate_op (h : opcodeOf w = opcodeOp) : extractImmediate w = .ok 0#64 := by
  rw [extractImmediate, h]
  rfl

theorem extractImmediate_opImm (h : opcodeOf w = opcodeOpImm) : extractImmediate w = .ok (sext (immIOf w)) := by
  rw [extractImmediate, h]
  rfl

theorem extractImmediate_load (h : opcodeOf w = opcodeLoad) : extractImmediate w = .ok (sext (immIOf w)) := by
  rw [extractImmediate, h]
  rfl

theorem extractImmediate_store (h : opcodeOf w = opcodeStore) : extractImmediate w = .ok (sext (immSOf w)) := by
  rw [extractImmediate, h]
  rfl

theorem extractImmediate_branch (h : opcodeOf w = opcodeBranch) : extractImmediate w = .ok (sext (immBOf w)) := by
  rw [extractImmediate, h]
  rfl

end

/-- Every opcode of a class has an immediate (30_encoding.md R116). -/
theorem extractImmediate_of_supported {w : InstWord} (h : opcodeSupported (opcodeOf w) = true) :
    ∃ imm, extractImmediate w = .ok imm := by
  rcases opcodeSupported_iff.mp h with hop | hop | hop | hop | hop
  · exact ⟨_, extractImmediate_op hop⟩
  · exact ⟨_, extractImmediate_opImm hop⟩
  · exact ⟨_, extractImmediate_load hop⟩
  · exact ⟨_, extractImmediate_store hop⟩
  · exact ⟨_, extractImmediate_branch hop⟩

theorem extractImmediate_unsupported {w : InstWord} (h : opcodeSupported (opcodeOf w) = false) :
    extractImmediate w = .error w := by
  rw [extractImmediate, classOf_unsupported h]

/-! The decode stage, by the opcode of the word. -/

theorem decodeStage_supported {f : FetchOut} (h : opcodeSupported (opcodeOf f.inst) = true) (r : Registers) :
    ∃ u, decodeStage f r = .ok u := by
  obtain ⟨c, hc⟩ := classOf_supported h
  obtain ⟨imm, himm⟩ := extractImmediate_of_supported h
  exact ⟨forceZeroRd (controlTable c f r imm), by rw [decodeStage, hc, himm]⟩

/-- The error carries the pc and the word (60_exceptions.md R282). -/
theorem decodeStage_unsupported {f : FetchOut} (h : opcodeSupported (opcodeOf f.inst) = false) (r : Registers) :
    decodeStage f r = .error (.unsupportedInstruction f.pc f.inst) := by
  rw [decodeStage, classOf_unsupported h]

theorem mem_opcodes_iff {op : BitVec 7} :
    op ∈ [opcodeOp, opcodeOpImm, opcodeLoad, opcodeStore, opcodeBranch] ↔ opcodeSupported op = true := by
  rw [opcodeSupported_iff]
  simp

/-- Settles O5: the list of the five opcodes is the decoder's check, and it alone decides. -/
theorem decodeFailsOnOpcodeAlone : Obligations.DecodeFailsOnOpcodeAlone := by
  intro f r
  constructor
  · intro h
    exact decodeStage_supported (mem_opcodes_iff.mp h) r
  · intro h
    have hs : opcodeSupported (opcodeOf f.inst) = false := Bool.eq_false_of_not_eq_true (mt mem_opcodes_iff.mpr h)
    exact ⟨f.pc, f.inst, decodeStage_unsupported hs r⟩

/-! The ranges of the immediates. -/

/-- Sign extension keeps the signed value (40_pipeline.md R143). -/
theorem sext_toInt {n : Nat} (hn : n ≤ 64) (f : BitVec n) : (sext f).toInt = f.toInt :=
  BitVec.toInt_signExtend_of_le hn

theorem sext_imm12_range (imm : BitVec 12) : -2048 ≤ (sext imm).toInt ∧ (sext imm).toInt ≤ 2047 := by
  have hlow := imm.le_toInt
  have hhigh := imm.toInt_lt
  rw [sext_toInt (by decide)]
  omega

/-- An even 13-bit offset ends at 4094, one less than the field does (30_encoding.md R115). -/
theorem sext_offset_range {off : BitVec 13} (h : offsetEven off = true) :
    -4096 ≤ (sext off).toInt ∧ (sext off).toInt ≤ 4094 ∧ (sext off).toInt % 2 = 0 := by
  have heven := (offsetEven_toNat off).mp h
  have hlt := off.isLt
  rw [sext_toInt (by decide), BitVec.toInt_eq_toNat_cond]
  split <;> omega

/-- Settles O6: the immediate by opcode, and the range of its width. -/
theorem immediateOfEveryWord : Obligations.ImmediateOfEveryWord := by
  refine ⟨fun w => ⟨extractImmediate_op, fun h => ?_, fun h => ?_, fun h => ?_, fun h => ?_⟩,
    rfl, rfl, rfl, rfl, rfl, rfl⟩
  · have himm : extractImmediate w = .ok (sext (immIOf w)) := h.elim extractImmediate_opImm extractImmediate_load
    exact ⟨_, himm, rfl, sext_imm12_range (immIOf w)⟩
  · exact ⟨_, extractImmediate_store h, rfl, sext_imm12_range (immSOf w)⟩
  · exact ⟨_, extractImmediate_branch h, rfl, sext_offset_range (immBOf_even w)⟩
  · exact ⟨extractImmediate_unsupported h, fun pc r => decodeStage_unsupported (f := ⟨pc, w⟩) h r⟩

/-! The eight forms of LOAD and STORE. -/

theorem decodeLoad_mem_loadForms (f3 : BitVec 3) (rd rs1 : RegIdx) (imm : BitVec 12) :
    decodeLoad f3 rd rs1 imm ∈ loadForms rd rs1 imm := by
  rcases funct3_cases f3 with rfl | rfl | rfl | rfl | rfl | rfl | rfl | rfl <;>
    simp [decodeLoad, loadForms, funct3Dword]

theorem decodeStore_mem_storeForms (f3 : BitVec 3) (rs1 rs2 : RegIdx) (imm : BitVec 12) :
    decodeStore f3 rs1 rs2 imm ∈ storeForms rs1 rs2 imm := by
  rcases funct3_cases f3 with rfl | rfl | rfl | rfl | rfl | rfl | rfl | rfl <;>
    simp [decodeStore, storeForms, funct3Dword]

/-- Settles O27: the class gives one of the eight forms of the word's fields, and all of them run as LD and SD do. -/
theorem loadAndStoreWordsIgnoreFunct3 : Obligations.LoadAndStoreWordsIgnoreFunct3 := by
  intro w
  constructor
  · intro h
    refine ⟨?_, fun s => exec_decodeWord_load s h⟩
    rw [decodeWord_load h]
    exact decodeLoad_mem_loadForms ..
  · intro h
    refine ⟨?_, fun s => exec_decodeWord_store s h⟩
    rw [decodeWord_store h]
    exact decodeStore_mem_storeForms ..

end Sys2Proof.Machine
end

section
/-! PROOFS. The words of 40_pipeline.md: bit-field extraction and sign extension, the ALU, the branch conditions
(40_pipeline.md R142, R143, R152, R153). -/

namespace Sys2Proof.Machine

/-- Settles O7: a field is a quotient and a remainder of the word, and bits 31 to 0 are the whole word. -/
theorem bitFieldExtraction : Obligations.BitFieldExtraction := by
  refine ⟨fun w msb lsb _ _ => extractBits_toNat w msb lsb, fun w => ?_, by decide, by decide, by decide, by decide,
    by decide, by decide⟩
  have hlt := w.isLt
  rw [extractBits_toNat]
  omega

/-- Settles O8: Lean's sign extension adds the difference of the two powers when the top bit is set, and that bit is
bit N-1. -/
theorem signExtensionByTopBit : Obligations.SignExtensionByTopBit := by
  intro n f _ hn
  have hlt : f.toNat < 2 ^ 64 := lt_of_lt_of_le f.isLt (Nat.pow_le_pow_right (by decide) hn)
  rw [sext, BitVec.toNat_signExtend, BitVec.toNat_setWidth, Nat.mod_eq_of_lt hlt, BitVec.msb_eq_getLsbD_last]
  split
  · rfl
  · rfl

/-- Settles O14: the operations of `BitVec` in numbers and bit by bit. -/
theorem aluComputesModulo64 : Obligations.AluComputesModulo64 := by
  refine ⟨fun a b => ⟨BitVec.toNat_add a b, ?_, ?_,
    fun k => ⟨BitVec.getLsbD_xor, BitVec.getLsbD_or, BitVec.getLsbD_and⟩⟩, by decide⟩
  · have hb := b.isLt
    rw [alu, BitVec.toNat_sub]
    omega
  · rw [alu, BitVec.sub_eq_add_neg, BitVec.neg_eq_not_add, BitVec.add_assoc]

/-- A signed value is its unsigned value, less `2^64` when bit 63 is set (00_scope.md R10). -/
theorem toInt_eq_of_bit63 (a : Word) :
    a.toInt = if a.getLsbD 63 = true then (a.toNat : Int) - 2 ^ 64 else (a.toNat : Int) := by
  rw [BitVec.toInt_eq_msb_cond, BitVec.msb_eq_getLsbD_last]
  rfl

/-- GE is the complement of LT (45_branch.md R244). -/
theorem condHolds_ge (a b : Word) : condHolds .ge a b = !condHolds .lt a b := by
  rw [condHolds, condHolds, ← decide_not]
  exact decide_eq_decide.mpr not_lt.symm

/-- GEU is the complement of LTU (45_branch.md R246). -/
theorem condHolds_geu (a b : Word) : condHolds .geu a b = !condHolds .ltu a b := by
  rw [condHolds, condHolds, ← decide_not]
  exact decide_eq_decide.mpr not_lt.symm

/-- Settles O15: each condition is the decision of its comparison. -/
theorem branchConditionsCompare : Obligations.BranchConditionsCompare :=
  ⟨toInt_eq_of_bit63, fun a b => ⟨decide_eq_true_iff, decide_eq_true_iff, decide_eq_true_iff, decide_eq_true_iff,
    decide_eq_true_iff, decide_eq_true_iff, condHolds_ge a b, condHolds_geu a b, rfl, rfl⟩⟩

end Sys2Proof.Machine
end

section
/-! PROOFS. The micro-op of a decoded word: what its class says of each control field, and what the rule for rd = 0
changes of it (40_pipeline.md R145 to R149); with it the AGEX stage (R151 to R155). -/

namespace Sys2Proof.Machine

/-! The opcode of a class. -/

/-- The opcode of each class, `classOf` read backwards (30_encoding.md R117). -/
def OpcodeClass.opcode : OpcodeClass → BitVec 7
  | .rType => opcodeOp
  | .iType => opcodeOpImm
  | .load => opcodeLoad
  | .store => opcodeStore
  | .branch => opcodeBranch

theorem classOf_opcode (c : OpcodeClass) : classOf c.opcode = some c := by cases c <;> rfl

theorem opcode_of_classOf {op : BitVec 7} {c : OpcodeClass} (h : classOf op = some c) : op = c.opcode := by
  cases hs : opcodeSupported op
  case false =>
    rw [classOf_unsupported hs] at h
    cases h
  case true =>
    rcases opcodeSupported_iff.mp hs with rfl | rfl | rfl | rfl | rfl <;> cases h <;> rfl

theorem OpcodeClass.opcode_inj {c d : OpcodeClass} : c.opcode = d.opcode ↔ c = d := by
  refine ⟨fun h => Option.some.inj ?_, congrArg _⟩
  rw [← classOf_opcode c, ← classOf_opcode d, h]

/-! The control table, field by field. -/

section
variable (c : OpcodeClass) (f : FetchOut) (r : Registers) (imm : Word)

@[simp] theorem controlTable_rd : (controlTable c f r imm).rd = rdOf f.inst := by cases c <;> rfl

theorem controlTable_regWe :
    (controlTable c f r imm).regWe = true ↔ c.opcode ∈ [opcodeOp, opcodeOpImm, opcodeLoad] := by
  cases c
  case rType | iType | load => exact iff_of_true rfl (by decide)
  case store | branch => exact iff_of_false Bool.false_ne_true (by decide)

theorem controlTable_brCond :
    (controlTable c f r imm).brCond = if c = .branch then brCondOf (funct3Of f.inst) else .never := by
  cases c <;> rfl

/-- Only a load reads and only a store writes (40_pipeline.md R146). -/
theorem controlTable_not_both_flags :
    ¬((controlTable c f r imm).memRe = true ∧ (controlTable c f r imm).memWe = true) := by
  cases c
  case load => exact fun h => Bool.false_ne_true h.2
  case rType | iType | store | branch => exact fun h => Bool.false_ne_true h.1

end

/-! The rule for rd = 0. -/

/-- The rule for rd = 0 touches the register-write-enable alone (40_pipeline.md R149). -/
theorem forceZeroRd_eq (u : MicroOp) : forceZeroRd u = { u with regWe := u.regWe && u.rd != 0#5 } := by
  unfold forceZeroRd
  by_cases h : u.rd = 0#5
  · have hz : (u.rd != 0#5) = false := bne_eq_false_iff_eq.mpr h
    rw [if_pos h, hz, Bool.and_false]
  · have hnz : (u.rd != 0#5) = true := bne_iff_ne.mpr h
    rw [if_neg h, hnz, Bool.and_true]

section
variable (u : MicroOp)

@[simp] theorem forceZeroRd_rd : (forceZeroRd u).rd = u.rd := by rw [forceZeroRd_eq]
@[simp] theorem forceZeroRd_brCond : (forceZeroRd u).brCond = u.brCond := by rw [forceZeroRd_eq]
@[simp] theorem forceZeroRd_memRe : (forceZeroRd u).memRe = u.memRe := by rw [forceZeroRd_eq]
@[simp] theorem forceZeroRd_memWe : (forceZeroRd u).memWe = u.memWe := by rw [forceZeroRd_eq]
@[simp] theorem forceZeroRd_regWe : (forceZeroRd u).regWe = (u.regWe && u.rd != 0#5) := by rw [forceZeroRd_eq]

/-- The AGEX stage does not look at the register-write-enable. -/
@[simp] theorem agexStage_forceZeroRd_aluResult :
    (agexStage (forceZeroRd u)).aluResult = (agexStage u).aluResult := by
  rw [forceZeroRd_eq]
  rfl

end

/-- What a decode that succeeds answers, by the class whose opcode the word has. -/
theorem decodeStage_class {f : FetchOut} {r : Registers} {u : MicroOp} (h : decodeStage f r = .ok u) :
    ∃ c imm, opcodeOf f.inst = c.opcode ∧ extractImmediate f.inst = .ok imm ∧
      u = forceZeroRd (controlTable c f r imm) := by
  obtain ⟨c, imm, hc, himm, hu⟩ := decodeStage_ok h
  exact ⟨c, imm, opcode_of_classOf hc, himm, hu⟩

/-- Settles O11: the rule for rd = 0 adds to the control table's enable that rd is not 0. -/
theorem zeroDestinationDisablesWrite : Obligations.ZeroDestinationDisablesWrite := by
  intro f r u h
  obtain ⟨c, imm, hop, -, rfl⟩ := decodeStage_class h
  have htable := controlTable_regWe c f r imm
  rw [hop, ← htable, forceZeroRd_regWe, forceZeroRd_rd]
  refine ⟨controlTable_rd .., fun h0 => ?_, fun hne => ?_⟩
  · rw [h0, bne_self_eq_false, Bool.and_false]
  · rw [bne_iff_ne.mpr hne, Bool.and_true]

/-! The branch condition. -/

theorem brCondOf_ne_always : ∀ f3 : BitVec 3, brCondOf f3 ≠ .always := by decide

/-- A branch has the condition of its funct3, every other class NEVER (40_pipeline.md R146, R148). -/
theorem decodeStage_brCond {f : FetchOut} {r : Registers} {u : MicroOp} (h : decodeStage f r = .ok u) :
    u.brCond = if opcodeOf f.inst = opcodeBranch then brCondOf (funct3Of f.inst) else .never := by
  obtain ⟨c, imm, hop, -, rfl⟩ := decodeStage_class h
  have hbranch : opcodeOf f.inst = opcodeBranch ↔ c = .branch := hop ▸ OpcodeClass.opcode_inj (d := .branch)
  rw [forceZeroRd_brCond, controlTable_brCond]
  exact if_congr hbranch.symm rfl rfl

/-- Settles O12: NEVER and the conditions of funct3 are all there is, and none of them is ALWAYS. -/
theorem noWordDecodesToAlways : Obligations.NoWordDecodesToAlways := by
  intro f r u h
  rw [decodeStage_brCond h]
  refine ⟨?_, fun hne => if_neg hne, fun hop => if_pos hop⟩
  split
  · exact brCondOf_ne_always _
  · nofun

/-! The AGEX stage. -/

theorem operandA_eq (u : MicroOp) : operandA u = if u.aSrc = .pc then u.pc else u.rs1Val := by
  unfold operandA
  cases u.aSrc <;> rfl

theorem operandB_eq (u : MicroOp) : operandB u = if u.bSrc = .imm then u.imm else u.rs2Val := by
  unfold operandB
  cases u.bSrc <;> rfl

theorem agexStage_aluResult (u : MicroOp) : (agexStage u).aluResult = alu u.aluOp (operandA u) (operandB u) := rfl

/-- The next-pc selector is ALU when the condition holds (40_pipeline.md R154). -/
theorem agexStage_pcSrc (u : MicroOp) :
    (agexStage u).pcSrc = if condHolds u.brCond u.rs1Val u.rs2Val = true then .alu else .pc4 := rfl

theorem agexStage_pcSrc_eq_alu (u : MicroOp) :
    (agexStage u).pcSrc = .alu ↔ condHolds u.brCond u.rs1Val u.rs2Val = true := by
  rw [agexStage_pcSrc]
  split
  next h => exact iff_of_true rfl h
  next h => exact iff_of_false nofun h

/-- The ALU result of a decoded branch is its target, taken or not (40_pipeline.md R155). -/
theorem agexStage_target {f : FetchOut} {r : Registers} {u : MicroOp} (h : decodeStage f r = .ok u)
    (hop : opcodeOf f.inst = opcodeBranch) : (agexStage u).aluResult = f.pc + sext (immBOf f.inst) := by
  obtain ⟨c, imm, hc, himm, rfl⟩ := decodeStage_class h
  have hbranch : c = .branch := OpcodeClass.opcode_inj.mp (hc.symm.trans hop)
  rw [extractImmediate_branch hop] at himm
  cases himm
  rw [agexStage_forceZeroRd_aluResult, hbranch]
  rfl

/-- Settles O13: the stage's definition field by field; of a decoded word only a branch has a condition that can
hold. -/
theorem agexOperandsAndSelector : Obligations.AgexOperandsAndSelector := by
  refine ⟨fun u => ⟨?_, agexStage_pcSrc_eq_alu u, rfl, rfl, rfl, rfl, rfl, rfl, rfl⟩,
    fun f r u h => ⟨fun hne => ?_, agexStage_target h⟩⟩
  · rw [agexStage_aluResult, operandA_eq, operandB_eq]
  · rw [agexStage_pcSrc, decodeStage_brCond h, if_neg hne]
    rfl

end Sys2Proof.Machine
end

section
/-! PROOFS. The memory stage: what it answers, by its two flags and the alignment of the address (40_pipeline.md R156
to R160). -/

namespace Sys2Proof.Machine

/-- What the memory stage passes on: the AGEX result's fields and the value read (10_state.md R33). -/
def AgexOut.toMemOut (x : AgexOut) (v : Word) : MemOut :=
  { pc := x.pc, rd := x.rd, wbSrc := x.wbSrc, regWe := x.regWe, pcSrc := x.pcSrc, aluResult := x.aluResult,
    memData := v }

section
variable {s : State} {x : AgexOut}

/-- The stage answers when no flag asks for an access or the address is aligned. -/
theorem memoryStage_ok (s : State) (h : x.memRe = true ∨ x.memWe = true → aligned8 x.aluResult = true) :
    memoryStage s x = .ok (stageWrite (stageRead s x).1 x, x.toMemOut (stageRead s x).2) := by
  refine if_neg fun hstop => ?_
  rw [Bool.and_eq_true, Bool.or_eq_true, Bool.not_eq_true'] at hstop
  exact Bool.false_ne_true (hstop.2.symm.trans (h hstop.1))

/-- An access that is not aligned stops the stage (20_memory.md R54). -/
theorem memoryStage_misaligned (s : State) (h : x.memRe = true ∨ x.memWe = true)
    (ha : ¬aligned8 x.aluResult = true) : memoryStage s x = .error (.misalignedData x.aluResult) := by
  refine if_pos ?_
  rw [Bool.and_eq_true, Bool.or_eq_true, Bool.not_eq_true']
  exact ⟨h, Bool.eq_false_of_not_eq_true ha⟩

theorem stageRead_of_flag (h : x.memRe = true) : stageRead s x = memRead s x.aluResult := if_pos h

theorem stageRead_of_no_flag (h : x.memRe = false) : stageRead s x = (s, 0#64) := by
  rw [stageRead, h, if_neg Bool.false_ne_true]

theorem stageWrite_of_flag (h : x.memWe = true) : stageWrite s x = memWrite s x.aluResult x.rs2Val := if_pos h

theorem stageWrite_of_no_flag (h : x.memWe = false) : stageWrite s x = s := by
  rw [stageWrite, h, if_neg Bool.false_ne_true]

end

/-- Settles O16: the stage is its read and then its write, each decided by its own flag. -/
theorem memoryStageChecksEachFlag : Obligations.MemoryStageChecksEachFlag := by
  intro s x ha
  refine ⟨_, _, memoryStage_ok s ha, fun hre => ?_, fun hre => ?_, fun hre hwe => ?_, fun hre hwe => ?_,
    fun hre hwe => ?_, rfl, rfl, rfl, rfl, rfl, rfl⟩
  · rw [stageRead_of_flag hre]
    rfl
  · rw [stageRead_of_no_flag hre]
    rfl
  · rw [stageWrite_of_no_flag hwe, stageRead_of_flag hre]
  · rw [stageWrite_of_flag hwe, stageRead_of_no_flag hre]
  · rw [stageWrite_of_no_flag hwe, stageRead_of_no_flag hre]

/-- Settles O17: the value is `memRead`'s in the state before, and the write finds the view the read left as it was. -/
theorem bothFlagsReadBeforeWrite : Obligations.BothFlagsReadBeforeWrite := by
  refine ⟨fun f r u h => ?_, fun s x h hre hwe ha => ⟨_, _, memoryStage_ok s fun _ => ha, ?_, fun b => ?_⟩⟩
  · obtain ⟨c, imm, -, -, rfl⟩ := decodeStage_class h
    rw [forceZeroRd_memRe, forceZeroRd_memWe]
    exact controlTable_not_both_flags c f r imm
  · rw [stageRead_of_flag hre]
    exact (memRead_spec h ha).value
  · have hread := memRead_spec h ha
    rw [stageWrite_of_flag hwe, stageRead_of_flag hre, (memWrite_spec hread.inv ha _).view, stored_byte, hread.view]

end Sys2Proof.Machine
end

section
/-! PROOFS. The step: the instruction it runs is the one its four bytes decode to, and the five stages composed are
that instruction's meaning (40_pipeline.md R140, R165). -/

namespace Sys2Proof.Machine

/-! The fetched instruction. -/

/-- The bytes of a multi-byte read, address by address. -/
theorem readBytes_eq_map (s : State) (a : Word) (n : Nat) :
    readBytes s.mem a n = (List.range n).map fun k => s.backing (a + BitVec.ofNat 64 k) := by
  apply bytes_ext (n := n) (by simp) (by simp)
  intro k hk
  rw [readBytes_getElem? _ _ n _ hk, List.getElem?_map, List.getElem?_range hk]
  rfl

/-- The four bytes of a fetch decode to the instruction of the fetched word. -/
theorem decodeBytes_fetch (s : State) (a : Word) :
    decodeBytes ((List.range 4).map fun k => s.backing (a + BitVec.ofNat 64 k)) =
      .ok (decodeWord (fetchRead s a), []) := by
  rw [← readBytes_eq_map]
  rfl

/-- Settles O34: the bytes decode to the fetched word's instruction, which is well-formed as every word's is. -/
theorem stepRunsTheFetchedInstruction : Obligations.StepRunsTheFetchedInstruction := by
  intro s i hp hpc hdecode
  rw [decodeBytes_fetch] at hdecode
  cases hdecode
  exact ⟨(wf_encode_decodeWord _).1, step_eq hp hpc⟩

/-! The stages after decode. -/

/-- The writeback stage, and the driver's update of the pc with what it yields (40_pipeline.md R165). -/
def retire (s : State) (m : MemOut) : State := (writebackStage s m).1.goto (writebackStage s m).2.nextPc

/-- The AGEX, memory and writeback stages on a micro-op: what `pipelineStep` does after a decode that succeeds. -/
def laterStages (s : State) (u : MicroOp) : Host.Outcome State Fault Refusal :=
  match memoryStage s (agexStage u) with
  | .error e => .fault e
  | .ok (s', m) => .next (retire s' m)

theorem retire_of_regWe {s : State} {m : MemOut} (h : m.regWe = true) :
    retire s m = (s.setX m.rd (commitValue m)).goto (nextPcOf m) := by
  rw [retire, writebackStage_state, if_pos h]
  rfl

theorem retire_of_not_regWe {s : State} {m : MemOut} (h : m.regWe = false) : retire s m = s.goto (nextPcOf m) := by
  rw [retire, writebackStage_state, h, if_neg Bool.false_ne_true]
  rfl

/-- The writeback stage checks rd itself, so an enable that rd = 0 has forced false makes no difference
(40_pipeline.md R149, R166). -/
theorem retire_forced (s : State) (m : MemOut) :
    retire s { m with regWe := m.regWe && m.rd != 0#5 } = retire s m := by
  have henable : (m.regWe && m.rd != 0#5 && m.rd != 0#5) = (m.regWe && m.rd != 0#5) := by
    rw [Bool.and_assoc, Bool.and_self]
  unfold retire writebackStage
  rw [henable]
  rfl

theorem nextPcOf_alu {m : MemOut} (h : m.pcSrc = .alu) : nextPcOf m = m.aluResult := by rw [nextPcOf, h]

theorem nextPcOf_pc4 {m : MemOut} (h : m.pcSrc = .pc4) : nextPcOf m = m.pc + 4#64 := by rw [nextPcOf, h]

section
variable (s : State) (u : MicroOp)

theorem laterStages_ok (h : u.memRe = true ∨ u.memWe = true → aligned8 (agexStage u).aluResult = true) :
    laterStages s u = .next (retire (stageWrite (stageRead s (agexStage u)).1 (agexStage u))
      ((agexStage u).toMemOut (stageRead s (agexStage u)).2)) := by
  rw [laterStages, memoryStage_ok s h]

theorem laterStages_misaligned (h : u.memRe = true ∨ u.memWe = true)
    (ha : ¬aligned8 (agexStage u).aluResult = true) :
    laterStages s u = .fault (.misalignedData (agexStage u).aluResult) := by
  rw [laterStages, memoryStage_misaligned s h ha]

/-- With neither flag the memory stage passes the ALU result on. -/
theorem laterStages_of_no_access (hre : u.memRe = false) (hwe : u.memWe = false) :
    laterStages s u = .next (retire s ((agexStage u).toMemOut 0#64)) := by
  rw [laterStages_ok, stageWrite_of_no_flag hwe, stageRead_of_no_flag hre]
  rw [hre, hwe]
  nofun

/-- The rule for rd = 0 changes nothing that the later stages answer. -/
theorem laterStages_forceZeroRd : laterStages s (forceZeroRd u) = laterStages s u := by
  rw [forceZeroRd_eq]
  by_cases h : u.memRe = true ∨ u.memWe = true → aligned8 (agexStage u).aluResult = true
  · rw [laterStages_ok s u h, ← retire_forced _ ((agexStage u).toMemOut _)]
    exact laterStages_ok s _ h
  · obtain ⟨hflag, ha⟩ := Classical.not_imp.mp h
    rw [laterStages_misaligned s u hflag ha]
    exact laterStages_misaligned s _ hflag ha

end

/-! Each row of the control table is the family operation of its class. -/

section
variable (s : State) (w : InstWord) (imm : BitVec 12) (off : BitVec 13) (z : Word)

theorem laterStages_rType : laterStages s (controlTable .rType ⟨s.pc, w⟩ s.regs z) =
    aluRegReg (aluOpOf .rType (funct3Of w) (funct7Of w)) (rdOf w) (rs1Of w) (rs2Of w) s := by
  rw [laterStages_of_no_access, retire_of_regWe] <;> rfl

theorem laterStages_iType : laterStages s (controlTable .iType ⟨s.pc, w⟩ s.regs (sext imm)) =
    aluRegImm (aluOpOf .iType (funct3Of w) (funct7Of w)) (rdOf w) (rs1Of w) imm s := by
  rw [laterStages_of_no_access, retire_of_regWe] <;> rfl

theorem laterStages_load : laterStages s (controlTable .load ⟨s.pc, w⟩ s.regs (sext imm)) =
    loadDword (rdOf w) (rs1Of w) imm s := by
  by_cases ha : aligned8 (dataAddr s (rs1Of w) imm) = true
  · rw [loadDword_aligned ha, laterStages_ok, retire_of_regWe, State.advance, State.setX_pc, memRead_pc]
    · rfl
    · rfl
    · exact fun _ => ha
  · rw [loadDword_misaligned ha]
    exact laterStages_misaligned s _ (.inl rfl) ha

theorem laterStages_store : laterStages s (controlTable .store ⟨s.pc, w⟩ s.regs (sext imm)) =
    storeDword (rs1Of w) (rs2Of w) imm s := by
  by_cases ha : aligned8 (dataAddr s (rs1Of w) imm) = true
  · rw [storeDword_aligned ha, laterStages_ok, retire_of_not_regWe, State.advance, memWrite_pc]
    · rfl
    · rfl
    · exact fun _ => ha
  · rw [storeDword_misaligned ha]
    exact laterStages_misaligned s _ (.inr rfl) ha

theorem laterStages_branch : laterStages s (controlTable .branch ⟨s.pc, w⟩ s.regs (sext off)) =
    condBranch (brCondOf (funct3Of w)) (rs1Of w) (rs2Of w) off s := by
  rw [laterStages_of_no_access s _ rfl rfl, retire_of_not_regWe rfl]
  by_cases hc : condHolds (brCondOf (funct3Of w)) (s.x (rs1Of w)) (s.x (rs2Of w)) = true
  · rw [condBranch, if_pos hc, nextPcOf_alu (if_pos hc)]
    rfl
  · rw [condBranch, if_neg hc, nextPcOf_pc4 (if_neg hc)]
    rfl

end

/-! The whole step. -/

theorem decodeStage_of_class {f : FetchOut} {c : OpcodeClass} {imm : Word} (hop : opcodeOf f.inst = c.opcode)
    (himm : extractImmediate f.inst = .ok imm) (r : Registers) :
    decodeStage f r = .ok (forceZeroRd (controlTable c f r imm)) := by
  rw [decodeStage, hop, classOf_opcode, himm]

section
variable {s : State} (hp : s.params.wf) (hpc : aligned4 s.pc = true)
include hp hpc

/-- After a decode error no later stage is invoked (40_pipeline.md R165). -/
theorem pipelineStep_unsupported (h : opcodeSupported (opcodeOf (fetchRead s s.pc)) = false) :
    pipelineStep s = .fault (.unsupportedInstruction s.pc (fetchRead s s.pc)) := by
  rw [pipelineStep, if_pos hp, if_pos hpc, decodeStage_unsupported (f := fetchStage s) h]
  rfl

theorem pipelineStep_of_class (c : OpcodeClass) {imm : Word} (hop : opcodeOf (fetchRead s s.pc) = c.opcode)
    (himm : extractImmediate (fetchRead s s.pc) = .ok imm) :
    pipelineStep s = laterStages s (controlTable c ⟨s.pc, fetchRead s s.pc⟩ s.regs imm) := by
  rw [← laterStages_forceZeroRd, pipelineStep, if_pos hp, if_pos hpc,
    decodeStage_of_class (f := fetchStage s) hop himm]
  rfl

/-- The stages composed run the fetched instruction: each class of the control table is one family operation, which is
also the meaning of every instruction of the class. -/
theorem pipelineStep_eq_exec : pipelineStep s = exec (decodeWord (fetchRead s s.pc)) s := by
  cases hs : opcodeSupported (opcodeOf (fetchRead s s.pc))
  case false => rw [exec_decodeWord_unsupported s hs, pipelineStep_unsupported hp hpc hs]
  case true =>
    rcases opcodeSupported_iff.mp hs with hop | hop | hop | hop | hop
    · rw [exec_decodeWord_op s hop, pipelineStep_of_class hp hpc .rType hop (extractImmediate_op hop),
        laterStages_rType]
    · rw [exec_decodeWord_opImm s hop, pipelineStep_of_class hp hpc .iType hop (extractImmediate_opImm hop),
        laterStages_iType]
    · rw [exec_decodeWord_load s hop, pipelineStep_of_class hp hpc .load hop (extractImmediate_load hop),
        laterStages_load]
    · rw [exec_decodeWord_store s hop, pipelineStep_of_class hp hpc .store hop (extractImmediate_store hop),
        laterStages_store]
    · rw [exec_decodeWord_branch s hop, pipelineStep_of_class hp hpc .branch hop (extractImmediate_branch hop),
        laterStages_branch]

end

/-- Settles O18: both machines stop before the fetch on the same conditions, and past them both run the fetched
instruction. -/
theorem pipelineOfStagesIsTheStep : Obligations.PipelineOfStagesIsTheStep := by
  intro s
  by_cases hp : s.params.wf
  · by_cases hpc : aligned4 s.pc = true
    · rw [step_eq hp hpc, pipelineStep_eq_exec hp hpc]
    · rw [step_of_not_aligned4 hp hpc, pipelineStep, if_pos hp, if_neg hpc]
  · rw [step_of_not_wf hp, pipelineStep, if_neg hp]

end Sys2Proof.Machine
end

section
/-! PROOFS. The register-register instructions of opcode OP: the micro-op of a word, and the whole effect of each
instruction, which is that of its family's one operation (41_alu_reg.md R180 to R190). -/

namespace Sys2Proof.Machine

/-! The fields of a micro-op that the rule for rd = 0 leaves (40_pipeline.md R149). -/

section
variable (u : MicroOp)

@[simp] theorem forceZeroRd_aSrc : (forceZeroRd u).aSrc = u.aSrc := by rw [forceZeroRd_eq]
@[simp] theorem forceZeroRd_bSrc : (forceZeroRd u).bSrc = u.bSrc := by rw [forceZeroRd_eq]
@[simp] theorem forceZeroRd_imm : (forceZeroRd u).imm = u.imm := by rw [forceZeroRd_eq]
@[simp] theorem forceZeroRd_aluOp : (forceZeroRd u).aluOp = u.aluOp := by rw [forceZeroRd_eq]
@[simp] theorem forceZeroRd_wbSrc : (forceZeroRd u).wbSrc = u.wbSrc := by rw [forceZeroRd_eq]

/-- The enable survives the rule exactly when rd is not 0. -/
theorem forceZeroRd_regWe_iff : (forceZeroRd u).regWe = true ↔ u.regWe = true ∧ u.rd ≠ 0#5 := by
  rw [forceZeroRd_regWe, Bool.and_eq_true, bne_iff_ne]

end

/-! The family operation, and the instructions that are one with it. -/

section
variable (f7 : BitVec 7) (rd rs1 rs2 : RegIdx) (s : State)

/-- A register-register operation completes: the register, the pc, nothing else (41_alu_reg.md R180). -/
theorem aluRegReg_effect (op : AluOp) : ∃ t, aluRegReg op rd rs1 rs2 s = .next t ∧
    RegisterEffect s t rd (alu op (s.x rs1) (s.x rs2)) (s.pc + 4#64) :=
  ⟨_, rfl, setX_advance_effect ..⟩

theorem exec_sub : exec (.sub rd rs1 rs2) s = aluRegReg .sub rd rs1 rs2 s := rfl
theorem exec_xor : exec (.xor f7 rd rs1 rs2) s = aluRegReg .xor rd rs1 rs2 s := rfl
theorem exec_or : exec (.or f7 rd rs1 rs2) s = aluRegReg .or rd rs1 rs2 s := rfl
theorem exec_and : exec (.and f7 rd rs1 rs2) s = aluRegReg .and rd rs1 rs2 s := rfl

/-- ADD and the four slots of opcode OP that execute as ADD (41_alu_reg.md R181, R186 to R189). -/
def addForms : List Instr :=
  [.add f7 rd rs1 rs2, .opF3_001 f7 rd rs1 rs2, .opF3_010 f7 rd rs1 rs2, .opF3_011 f7 rd rs1 rs2,
    .opF3_101 f7 rd rs1 rs2]

/-- Each of the five runs as ADD, whatever funct7 is (41_alu_reg.md R190). -/
theorem exec_of_mem_addForms {i : Instr} {f7 : BitVec 7} {rd rs1 rs2 : RegIdx} (hi : i ∈ addForms f7 rd rs1 rs2) :
    exec i s = aluRegReg .add rd rs1 rs2 s := by
  simp only [addForms, List.mem_cons, List.not_mem_nil, or_false] at hi
  rcases hi with rfl | rfl | rfl | rfl | rfl <;> rfl

end

/-! The results in numbers (40_pipeline.md R152). -/

theorem alu_add_eq_ofNat (a b : Word) : alu .add a b = BitVec.ofNat 64 ((a.toNat + b.toNat) % 2 ^ 64) := by
  apply BitVec.eq_of_toNat_eq
  simp [alu]

theorem alu_sub_eq_ofInt (a b : Word) : alu .sub a b = BitVec.ofInt 64 ((a.toNat : Int) - (b.toNat : Int)) := by
  rw [alu, BitVec.sub_eq_add_neg, Int.sub_eq_add_neg, BitVec.ofInt_add, BitVec.ofInt_neg]
  simp only [BitVec.ofInt_natCast, BitVec.ofNat_toNat, BitVec.setWidth_eq]

/-- The fall-through is the ALU's sum of the pc and 4 (41_alu_reg.md R180; decision D20). -/
theorem fallThrough_eq_ofNat (a : Word) : a + 4#64 = BitVec.ofNat 64 ((a.toNat + 4) % 2 ^ 64) :=
  alu_add_eq_ofNat a 4#64

/-- Settles O19: the micro-op is the control table's row for opcode OP, the rule for rd = 0 applied to it, and the word
runs as the family operation. -/
theorem registerRegisterWords : Obligations.RegisterRegisterWords := by
  intro w s hop
  constructor
  · refine ⟨_, decodeStage_of_class (c := .rType) hop (extractImmediate_op hop) s.regs, forceZeroRd_aSrc _,
      forceZeroRd_bSrc _, forceZeroRd_imm _, forceZeroRd_aluOp _, forceZeroRd_brCond _, forceZeroRd_wbSrc _, ?_,
      forceZeroRd_memRe _, forceZeroRd_memWe _⟩
    rw [forceZeroRd_regWe_iff, controlTable_rd]
    exact and_iff_right rfl
  · rw [exec_decodeWord_op s hop]
    exact aluRegReg_effect ..

/-- Settles O21: the five forms run as ADD, whose result and next pc are the sums in numbers. -/
theorem addWritesTheSum : Obligations.AddWritesTheSum := by
  intro f7 rd rs1 rs2 s i hi
  rw [exec_of_mem_addForms s hi, ← alu_add_eq_ofNat, ← fallThrough_eq_ofNat]
  exact aluRegReg_effect ..

/-- Settles O22: each of the four runs as the family operation, and SUB's difference is read as an integer. -/
theorem subAndBitwiseResults : Obligations.SubAndBitwiseResults := by
  intro f7 rd rs1 rs2 s
  rw [exec_sub, exec_xor, exec_or, exec_and, ← alu_sub_eq_ofInt]
  exact ⟨aluRegReg_effect rd rs1 rs2 s .sub, aluRegReg_effect rd rs1 rs2 s .xor, aluRegReg_effect rd rs1 rs2 s .or,
    aluRegReg_effect rd rs1 rs2 s .and⟩

end Sys2Proof.Machine
end

section
/-! PROOFS. The register-immediate instructions of opcode OP-IMM: the micro-op of a word, and the whole effect of each
instruction, which is that of its family's one operation (42_alu_imm.md R200 to R208). -/

namespace Sys2Proof.Machine

/-! The operation of a word of opcode OP-IMM (40_pipeline.md R147). -/

section
variable (f3 : BitVec 3) (f7 : BitVec 7)

/-- funct7, whose bits are immediate bits here, takes no part (42_alu_imm.md R200). -/
theorem aluOpOf_iType_ignores_funct7 : aluOpOf .iType f3 f7 = aluOpOf .iType f3 0#7 := by
  have hsub (g : BitVec 7) : ¬(OpcodeClass.iType = .rType ∧ g = funct7Sub) := by rintro ⟨⟨⟩, -⟩
  rw [aluOpOf, aluOpOf, if_neg (hsub f7), if_neg (hsub 0#7)]

/-- There is no SUB with an immediate (42_alu_imm.md R200). -/
theorem aluOpOf_iType_ne_sub : aluOpOf .iType f3 f7 ≠ .sub := by
  rw [aluOpOf_iType_ignores_funct7]
  rcases funct3_cases f3 with rfl | rfl | rfl | rfl | rfl | rfl | rfl | rfl <;> decide

end

/-! The family operation, and the instructions that are one with it. -/

section
variable (rd rs1 : RegIdx) (imm : BitVec 12) (s : State)

/-- A register-immediate operation completes: the register, the pc, nothing else (42_alu_imm.md R200). -/
theorem aluRegImm_effect (op : AluOp) : ∃ t, aluRegImm op rd rs1 imm s = .next t ∧
    RegisterEffect s t rd (alu op (s.x rs1) (sext imm)) (s.pc + 4#64) :=
  ⟨_, rfl, setX_advance_effect ..⟩

theorem exec_xori : exec (.xori rd rs1 imm) s = aluRegImm .xor rd rs1 imm s := rfl
theorem exec_ori : exec (.ori rd rs1 imm) s = aluRegImm .or rd rs1 imm s := rfl
theorem exec_andi : exec (.andi rd rs1 imm) s = aluRegImm .and rd rs1 imm s := rfl

/-- ADDI and the four slots of opcode OP-IMM that execute as ADDI (42_alu_imm.md R201, R205 to R208). -/
def addiForms : List Instr :=
  [.addi rd rs1 imm, .opImmF3_001 rd rs1 imm, .opImmF3_010 rd rs1 imm, .opImmF3_011 rd rs1 imm,
    .opImmF3_101 rd rs1 imm]

/-- Each of the five runs as ADDI. -/
theorem exec_of_mem_addiForms {i : Instr} {rd rs1 : RegIdx} {imm : BitVec 12} (hi : i ∈ addiForms rd rs1 imm) :
    exec i s = aluRegImm .add rd rs1 imm s := by
  simp only [addiForms, List.mem_cons, List.not_mem_nil, or_false] at hi
  rcases hi with rfl | rfl | rfl | rfl | rfl <;> rfl

end

/-! The extended immediate as an operand: its value as a signed number, and its bits (40_pipeline.md R143). -/

theorem alu_add_sext_eq_ofInt {n : Nat} (a : Word) (f : BitVec n) :
    alu .add a (sext f) = BitVec.ofInt 64 ((a.toNat : Int) + f.toInt) := by
  rw [BitVec.ofInt_add, BitVec.ofInt_natCast, BitVec.ofNat_toNat, BitVec.setWidth_eq]
  rfl

/-- Bit 11 of a 12-bit field is the bit copied into every higher place. -/
theorem sext_imm12_getLsbD (imm : BitVec 12) {k : Nat} (hk : k < 64) :
    (sext imm).getLsbD k = imm.getLsbD (min k 11) := by
  rw [sext, BitVec.getLsbD_signExtend, decide_eq_true hk, Bool.true_and]
  by_cases hlow : k < 12
  · rw [if_pos hlow, Nat.min_eq_left (Nat.le_of_lt_succ hlow)]
  · rw [if_neg hlow, Nat.min_eq_right (by omega), BitVec.msb_eq_getLsbD_last]

/-- A bitwise operation on the extended immediate, bit by bit: each bit is `f` of the register's bit and the immediate's
bit, or of bit 11 above it. -/
theorem aluRegImm_bitwise_effect {op : AluOp} {f : Bool → Bool → Bool}
    (hop : ∀ (a b : Word) (k : Nat), (alu op a b).getLsbD k = f (a.getLsbD k) (b.getLsbD k))
    (rd rs1 : RegIdx) (imm : BitVec 12) (s : State) :
    ∃ t v, aluRegImm op rd rs1 imm s = .next t ∧ RegisterEffect s t rd v (s.pc + 4#64) ∧
      ∀ k, k < 64 → v.getLsbD k = f ((s.x rs1).getLsbD k) (imm.getLsbD (min k 11)) := by
  obtain ⟨t, hnext, heffect⟩ := aluRegImm_effect rd rs1 imm s op
  refine ⟨t, _, hnext, heffect, fun k hk => ?_⟩
  rw [hop, sext_imm12_getLsbD imm hk]

/-- Settles O20: the micro-op is the control table's row for opcode OP-IMM, the rule for rd = 0 applied to it, and the
word runs as the family operation. -/
theorem registerImmediateWords : Obligations.RegisterImmediateWords := by
  intro w s hop
  obtain ⟨hlow, hhigh⟩ := sext_imm12_range (immIOf w)
  refine ⟨?_, aluOpOf_iType_ignores_funct7 _, aluOpOf_iType_ne_sub _ _, ?_⟩
  · have himm := forceZeroRd_imm (controlTable .iType ⟨s.pc, w⟩ s.regs (sext (immIOf w)))
    refine ⟨_, decodeStage_of_class (c := .iType) hop (extractImmediate_opImm hop) s.regs, forceZeroRd_aSrc _,
      forceZeroRd_bSrc _, himm, himm ▸ hlow, himm ▸ hhigh, forceZeroRd_aluOp _, forceZeroRd_brCond _,
      forceZeroRd_wbSrc _, ?_, forceZeroRd_memRe _, forceZeroRd_memWe _⟩
    rw [forceZeroRd_regWe_iff, controlTable_rd]
    exact and_iff_right rfl
  · rw [exec_decodeWord_opImm s hop]
    exact aluRegImm_effect ..

/-- Settles O23: the five forms run as ADDI, whose sum is read as an integer. -/
theorem addImmediateWritesTheSum : Obligations.AddImmediateWritesTheSum := by
  intro rd rs1 imm s i hi
  rw [exec_of_mem_addiForms s hi, ← alu_add_sext_eq_ofInt]
  exact aluRegImm_effect ..

/-- Settles O24: each of the three runs as the family operation, whose bits are those of the ALU's operation. -/
theorem bitwiseImmediateResults : Obligations.BitwiseImmediateResults := by
  intro rd rs1 imm s
  rw [exec_xori, exec_ori, exec_andi]
  exact ⟨aluRegImm_bitwise_effect (fun _ _ _ => BitVec.getLsbD_xor) rd rs1 imm s,
    aluRegImm_bitwise_effect (fun _ _ _ => BitVec.getLsbD_or) rd rs1 imm s,
    aluRegImm_bitwise_effect (fun _ _ _ => BitVec.getLsbD_and) rd rs1 imm s⟩

end Sys2Proof.Machine
end

section
/-! PROOFS. The loads of opcode LOAD: the address as a number, and the whole effect of each of the eight forms, which is
that of the one load (43_load.md R220 to R228; 20_memory.md R58). -/

namespace Sys2Proof.Machine

/-- The address of a load or store is the base plus the signed displacement, modulo 2^64 (20_memory.md R70). -/
theorem dataAddr_eq_ofInt (s : State) (rs1 : RegIdx) (imm : BitVec 12) :
    dataAddr s rs1 imm = BitVec.ofInt 64 (((s.x rs1).toNat : Int) + imm.toInt) :=
  alu_add_sext_eq_ofInt (s.x rs1) imm

/-- A load form completes at an aligned address (43_load.md R220; 30_encoding.md R122). -/
theorem loadForm_effect {rd rs1 : RegIdx} {imm : BitVec 12} {s : State} {i : Instr} (h : MachineInv s)
    (ha : aligned8 (dataAddr s rs1 imm) = true) (hi : i ∈ loadForms rd rs1 imm) :
    ∃ t, exec i s = .next t ∧ LoadEffect s t rd (dataAddr s rs1 imm) :=
  ⟨_, (exec_of_mem_loadForms hi s).trans (loadDword_aligned ha), load_effect h ha rd⟩

/-- Settles O25: the address is the ALU's sum read as an integer, and each of the eight forms runs as the one load. -/
theorem everyLoadCompletes : Obligations.EveryLoadCompletes :=
  fun _ rs1 imm s h ha => ⟨dataAddr_eq_ofInt s rs1 imm, fun _ => loadForm_effect h ha⟩

end Sys2Proof.Machine
end

section
/-! PROOFS. The stores of opcode STORE: the whole effect of each of the eight forms, which is that of the one store
(44_store.md R230 to R238; 20_memory.md R59). -/

namespace Sys2Proof.Machine

/-- A store form completes at an aligned address (44_store.md R230; 30_encoding.md R122). -/
theorem storeForm_effect {rs1 rs2 : RegIdx} {imm : BitVec 12} {s : State} {i : Instr} (h : MachineInv s)
    (ha : aligned8 (dataAddr s rs1 imm) = true) (hi : i ∈ storeForms rs1 rs2 imm) :
    ∃ t, exec i s = .next t ∧ StoreEffect s t (dataAddr s rs1 imm) (s.x rs2) :=
  ⟨_, (exec_of_mem_storeForms hi s).trans (storeDword_aligned ha), store_effect h ha (s.x rs2)⟩

/-- Settles O26: the address is the ALU's sum read as an integer, and each of the eight forms runs as the one store. -/
theorem everyStoreCompletes : Obligations.EveryStoreCompletes :=
  fun rs1 _ imm s h ha => ⟨dataAddr_eq_ofInt s rs1 imm, fun _ => storeForm_effect h ha⟩

end Sys2Proof.Machine
end

section
/-! PROOFS. The branches of opcode BRANCH: the micro-op of a word, the whole effect of the family's one operation, the
six conditions, the two reserved slots, and the branch to itself (45_branch.md R240 to R249). -/

namespace Sys2Proof.Machine

/-! The family operation, and the instructions that are one with it. -/

section
variable (c : BrCond) (rs1 rs2 : RegIdx) (imm : BitVec 13) (s : State)

theorem exec_beq : exec (.beq rs1 rs2 imm) s = condBranch .eq rs1 rs2 imm s := rfl
theorem exec_bne : exec (.bne rs1 rs2 imm) s = condBranch .neq rs1 rs2 imm s := rfl
theorem exec_blt : exec (.blt rs1 rs2 imm) s = condBranch .lt rs1 rs2 imm s := rfl
theorem exec_bge : exec (.bge rs1 rs2 imm) s = condBranch .ge rs1 rs2 imm s := rfl
theorem exec_bltu : exec (.bltu rs1 rs2 imm) s = condBranch .ltu rs1 rs2 imm s := rfl
theorem exec_bgeu : exec (.bgeu rs1 rs2 imm) s = condBranch .geu rs1 rs2 imm s := rfl
theorem exec_branchF3_010 : exec (.branchF3_010 rs1 rs2 imm) s = condBranch .never rs1 rs2 imm s := rfl
theorem exec_branchF3_011 : exec (.branchF3_011 rs1 rs2 imm) s = condBranch .never rs1 rs2 imm s := rfl

/-- The target of a branch is its own address plus the signed offset, modulo 2^64 (45_branch.md R240). -/
theorem branchTarget_eq_ofInt : branchTarget s imm = BitVec.ofInt 64 ((s.pc.toNat : Int) + imm.toInt) :=
  alu_add_sext_eq_ofInt s.pc imm

/-- A branch completes, taken or not: the pc, nothing else (45_branch.md R240). -/
theorem condBranch_effect : ∃ t, condBranch c rs1 rs2 imm s = .next t ∧
    PcEffect s t (if condHolds c (s.x rs1) (s.x rs2) = true then branchTarget s imm else s.pc + 4#64) := by
  refine ⟨_, rfl, ?_⟩
  split
  next => exact goto_effect ..
  next => exact goto_effect ..

end

/-- A branch whose condition decides `p` goes to its target when `p` holds, and else to the next instruction. -/
theorem condBranch_effect_of_iff {c : BrCond} {rs1 rs2 : RegIdx} {s : State} {p : Prop}
    (hp : condHolds c (s.x rs1) (s.x rs2) = true ↔ p) (imm : BitVec 13) :
    ∃ t, condBranch c rs1 rs2 imm s = .next t ∧
      (p → PcEffect s t (BitVec.ofInt 64 ((s.pc.toNat : Int) + imm.toInt))) ∧ (¬p → PcEffect s t (s.pc + 4#64)) := by
  obtain ⟨t, hnext, heffect⟩ := condBranch_effect c rs1 rs2 imm s
  rw [branchTarget_eq_ofInt] at heffect
  refine ⟨t, hnext, fun h => ?_, fun h => ?_⟩
  · rwa [if_pos (hp.mpr h)] at heffect
  · rwa [if_neg (mt hp.mp h)] at heffect

/-- Settles O29: the micro-op is the control table's row for opcode BRANCH, which the rule for rd = 0 leaves as it is,
and the word runs as the family operation. -/
theorem branchWords : Obligations.BranchWords := by
  intro w s hop
  obtain ⟨hlow, hhigh, heven⟩ := sext_offset_range (immBOf_even w)
  refine ⟨?_, heven, hlow, hhigh, ?_⟩
  · exact ⟨_, decodeStage_of_class (c := .branch) hop (extractImmediate_branch hop) s.regs, forceZeroRd_aSrc _,
      forceZeroRd_bSrc _, forceZeroRd_imm _, forceZeroRd_aluOp _, forceZeroRd_brCond _, forceZeroRd_regWe _,
      forceZeroRd_memRe _, forceZeroRd_memWe _⟩
  · rw [exec_decodeWord_branch s hop]
    exact condBranch_effect ..

/-- Settles O30: each of the six runs as the family operation, whose condition is its comparison. -/
theorem sixBranchesTakenExactlyWhen : Obligations.SixBranchesTakenExactlyWhen := by
  intro rs1 rs2 imm s
  obtain ⟨-, hconditions⟩ := branchConditionsCompare
  obtain ⟨heq, hne, hlt, hge, hltu, hgeu, -⟩ := hconditions (s.x rs1) (s.x rs2)
  simp only [List.forall_mem_cons, exec_beq, exec_bne, exec_blt, exec_bge, exec_bltu, exec_bgeu]
  exact ⟨condBranch_effect_of_iff heq imm, condBranch_effect_of_iff hne imm, condBranch_effect_of_iff hlt imm,
    condBranch_effect_of_iff hge imm, condBranch_effect_of_iff hltu imm, condBranch_effect_of_iff hgeu imm, nofun⟩

/-! The two reserved slots. -/

/-- A word that matches a row of opcode BRANCH has the row's funct3 and its own other fields (30_encoding.md R121). -/
theorem decodeWord_of_match_branch {w v : InstWord} (hv : v &&& 0x0000707F#32 = v) (hop : opcodeOf v = opcodeBranch)
    (h : w &&& 0x0000707F#32 = v) : decodeWord w = decodeBranch (funct3Of v) (rs1Of w) (rs2Of w) (immBOf w) := by
  obtain ⟨hopw, h3⟩ := (match_opcode_funct3 hv).mp h
  rw [decodeWord_branch (hopw.trans hop), h3]

/-- Settles O31: both slots run as the family operation with the condition NEVER, and funct3 tells their words. -/
theorem reservedBranchSlotsNeverTaken : Obligations.ReservedBranchSlotsNeverTaken := by
  refine ⟨fun rs1 rs2 imm s => ?_, fun w => ⟨decodeWord_of_match_branch (by decide) (by decide),
    decodeWord_of_match_branch (by decide) (by decide)⟩⟩
  have hnever := condBranch_effect .never rs1 rs2 imm s
  simp only [List.forall_mem_cons, exec_branchF3_010, exec_branchF3_011]
  exact ⟨hnever, hnever, nofun⟩

/-! The branch to itself. -/

/-- A step that gives the same state again gives it for ever. -/
theorem run_of_step_self {M : Host.Core} {s : M.State} (h : M.step s = .next s) (n : Nat) : M.run n s = .next s := by
  induction n with
  | zero => rfl
  | succ n ih => rw [run_succ h, ih]

theorem branchTarget_zero (s : State) : branchTarget s 0#13 = s.pc := BitVec.add_zero s.pc

theorem condHolds_eq_self (a : Word) : condHolds .eq a a = true := decide_eq_true (p := a = a) rfl

/-- `beq x0, x0, 0` finds x0 equal to itself and branches to its own address (45_branch.md R249). -/
theorem exec_parkingBranch (s : State) : exec (.beq 0#5 0#5 0#13) s = .next s := by
  rw [exec_beq, condBranch, if_pos (condHolds_eq_self _), branchTarget_zero]
  rfl

/-- Settles O43: the fetched word is `beq x0, x0, 0`, whose step gives the same state. -/
theorem parkingBranchRepeatsForEver : Obligations.ParkingBranchRepeatsForEver := by
  intro s hp hpc hfetch
  have hdecode : decodeWord 0x00000063#32 = .beq 0#5 0#5 0#13 := by decide
  have hstep : step s = .next s := by rw [step_eq hp hpc, hfetch, hdecode, exec_parkingBranch]
  exact run_of_step_self hstep

end Sys2Proof.Machine
end

section
/-! PROOFS. Which instructions complete: the words the decoder rejects, the errors an instruction can answer, and when a
step has a next state (46_unsupported.md R260 to R272; 60_exceptions.md R285, R298; 70_reset_and_hazards.md R328). -/

namespace Sys2Proof.Machine

/-! The words of another opcode. -/

/-- The decoder's last row carries the word itself, and takes no word of the five opcodes (30_encoding.md R123). -/
theorem unsupported_of_decodeWord {w v : InstWord} (h : decodeWord w = .unsupported v) :
    v = w ∧ opcodeSupported (opcodeOf w) = false := by
  obtain ⟨hwf, henc⟩ := wf_encode_decodeWord w
  rw [h] at hwf henc
  have hvw : v = w := henc
  exact ⟨hvw, hvw ▸ wf_unsupported.mp hwf⟩

theorem decodeWord_eq_unsupported_iff {w : InstWord} :
    decodeWord w = .unsupported w ↔ opcodeSupported (opcodeOf w) = false :=
  ⟨fun h => (unsupported_of_decodeWord h).2, decodeWord_unsupported⟩

theorem not_mem_opcodes_iff {op : BitVec 7} :
    op ∉ [opcodeOp, opcodeOpImm, opcodeLoad, opcodeStore, opcodeBranch] ↔ opcodeSupported op = false := by
  rw [mem_opcodes_iff, Bool.not_eq_true]

/-- A word of another opcode matches none of the rows of the five opcodes (30_encoding.md R129). -/
theorem firstMatch_unsupported {w : InstWord} (h : opcodeSupported (opcodeOf w) = false) :
    (firstMatch w).map (·.mnemonic) = some "UNSUPPORTED" := by
  obtain ⟨r, hfirst, horder, -⟩ := firstMatch_encode (wf_unsupported.mpr h)
  have hfirst' : firstMatch w = some r := hfirst
  have h42 : r.order = 42 := horder
  rcases row_kinds r (List.mem_of_find?_eq_some hfirst) with ⟨hlt, -, -⟩ | ⟨-, hname⟩
  · omega
  · rw [hfirst', Option.map_some, hname]

/-- Settles O32: the statement's list is the decoder's check, and `exec` of the last row is the error alone. -/
theorem otherOpcodesRaiseUnsupported : Obligations.OtherOpcodesRaiseUnsupported := by
  intro w
  have hlist : opcodeOf w ∉ [0x33#7, 0x13#7, 0x03#7, 0x23#7, 0x63#7] ↔ opcodeSupported (opcodeOf w) = false :=
    not_mem_opcodes_iff
  exact ⟨hlist.trans decodeWord_eq_unsupported_iff.symm, fun h => firstMatch_unsupported (hlist.mp h), fun _ => rfl⟩

/-- Every supported opcode ends in 11 (46_unsupported.md R270). -/
theorem low_bits_of_supported {op : BitVec 7} (h : opcodeSupported op = true) : op.extractLsb 1 0 = 3#2 := by
  rcases opcodeSupported_iff.mp h with rfl | rfl | rfl | rfl | rfl <;> rfl

/-- Settles O33: the opcodes of the list one by one; the low bits of the five; and the decoder run on each
of the seventeen words. -/
theorem absentRiscvOpcodes : Obligations.AbsentRiscvOpcodes := by
  refine ⟨by decide, fun op hlow => ?_, by decide⟩
  exact Bool.eq_false_of_not_eq_true (mt low_bits_of_supported hlow)

/-! The outcomes of an instruction. -/

/-- Settles O37: of the kinds of instructions only a load and a store check anything, their address. -/
theorem ordinaryInstructionsAreExceptionFree : Obligations.OrdinaryInstructionsAreExceptionFree := by
  intro i s hi
  cases exec_cases i s with
  | register rd v hx hr => exact .inl ⟨_, hx⟩
  | load rd a hx hr =>
    by_cases ha : aligned8 a = true
    · exact .inl ⟨_, hx.trans (if_pos ha)⟩
    · exact .inr ⟨a, .inl hr, mt aligned8_toNat.mpr ha, hx.trans (if_neg ha)⟩
  | store a v hx hr =>
    by_cases ha : aligned8 a = true
    · exact .inl ⟨_, hx.trans (if_pos ha)⟩
    · exact .inr ⟨a, .inr ⟨v, hr⟩, mt aligned8_toNat.mpr ha, hx.trans (if_neg ha)⟩
  | branch c imm hx hr => exact .inl ⟨_, hx⟩
  | error w hw hx hr => exact absurd hw (hi w)

/-- The address of an aligned data access is a multiple of 8 (20_memory.md R54). -/
theorem DataRequest.mod8_of_aligned {r : DataRequest} {a : Word} (h : r.aligned = true)
    (hr : r = .read a ∨ ∃ v, r = .write a v) : a.toNat % 8 = 0 := by
  rcases hr with rfl | ⟨v, rfl⟩ <;> exact aligned8_toNat.mp h

/-- An instruction has a next state exactly when it is of one of the five classes and its data access is aligned. -/
theorem exec_next_iff {i : Instr} {s : State} :
    (∃ t, exec i s = .next t) ↔ (∀ w, i ≠ .unsupported w) ∧ (dataRequest i s).aligned = true := by
  constructor
  · rintro ⟨t, h⟩
    refine ⟨fun w hi => ?_, (exec_next_access h).1⟩
    subst hi
    cases h
  · rintro ⟨hi, ha⟩
    rcases ordinaryInstructionsAreExceptionFree i s hi with hnext | ⟨a, hr, hmis, -⟩
    · exact hnext
    · exact absurd (DataRequest.mod8_of_aligned ha hr) hmis

theorem decodeWord_ne_unsupported_iff {w : InstWord} :
    (∀ v, decodeWord w ≠ .unsupported v) ↔ opcodeSupported (opcodeOf w) = true := by
  rw [← Bool.not_eq_false, ← decodeWord_eq_unsupported_iff]
  exact ⟨fun h => h w, fun h v hv => h ((unsupported_of_decodeWord hv).1 ▸ hv)⟩

/-- Settles O36: a step with a next state got past its two checks and ran an instruction that has one. -/
theorem stepCompletesExactlyWhenReady : Obligations.StepCompletesExactlyWhenReady := by
  intro s
  rw [Ready, ← decodeWord_ne_unsupported_iff, ← exec_next_iff]
  constructor
  · rintro ⟨t, h⟩
    obtain ⟨hp, hpc, hexec⟩ := step_next h
    exact ⟨hp, hpc, t, hexec⟩
  · rintro ⟨hp, hpc, hexec⟩
    rwa [step_eq hp hpc]

end Sys2Proof.Machine
end

section
/-! PROOFS. What no step changes: the parameters, and with the cache disabled every set (70_reset_and_hazards.md R331;
21_cache.md R103). -/

namespace Sys2Proof.Machine

@[simp] theorem memRead_params (s : State) (a : Word) : (memRead s a).1.params = s.params := by
  unfold memRead
  split
  · exact lookup_params s a
  · rfl

@[simp] theorem memWrite_params (s : State) (a v : Word) : (memWrite s a v).params = s.params := by
  unfold memWrite
  split
  · exact lookup_params s a
  · rfl

theorem DataRequest.after_params (s : State) (r : DataRequest) : (r.after s).params = s.params := by
  cases r with
  | none => rfl
  | read a => exact memRead_params s a
  | write a v => exact memWrite_params s a v

/-- Without the cache a data access goes to the backing store alone (20_memory.md R60). -/
theorem DataRequest.after_cache_disabled {s : State} (he : s.params.cacheEnable = false) (r : DataRequest) :
    (r.after s).cache = s.cache := by
  cases r with
  | none => rfl
  | read a => rw [DataRequest.after_read, memRead_disabled he]
  | write a v => rw [DataRequest.after_write, memWrite_disabled he, directWrite_cache]

/-- Settles O42: a step does to the parameters and the sets what its data access does. -/
theorem parametersAndDisabledCacheStay : Obligations.ParametersAndDisabledCacheStay := by
  intro s t h
  obtain ⟨-, -, hexec⟩ := step_next h
  obtain ⟨-, hsame⟩ := exec_next_access hexec
  refine ⟨?_, fun he => ?_⟩
  · rw [hsame.params, DataRequest.after_params]
  · rw [hsame.cache, DataRequest.after_cache_disabled he]

end Sys2Proof.Machine
end

section
/-! PROOFS. The state after reset, field by field (70_reset_and_hazards.md R320 to R325; 10_state.md R38). -/

namespace Sys2Proof.Machine

/-- Slot `k` of the register file is what the port for `x(k+1)` returns (10_state.md R21). -/
theorem regRead_succ (r : Registers) (k : Fin 31) : regRead r (BitVec.ofNat 5 (k.val + 1)) = r[k] := by
  have hk : (BitVec.ofNat 5 (k.val + 1)).toNat = k.val + 1 := by
    rw [BitVec.toNat_ofNat]
    omega
  have hne : BitVec.ofNat 5 (k.val + 1) ≠ 0#5 := fun h => by simp [h] at hk
  have hslot := slot_eq_some_regRead r hne
  rw [hk, Nat.add_sub_cancel, Vector.getElem?_eq_getElem k.isLt] at hslot
  exact (Option.some.inj hslot).symm

section
variable (p : Params) (pc : Word) (regs : Registers) (mem : Memory)

@[simp] theorem State.init_setFor (a : Word) : (State.init p pc regs mem).setFor a = invalidSet p :=
  State.init_setAt p pc regs mem _

theorem init_not_cached (a : Word) : ¬(State.init p pc regs mem).cached a = true := by
  rw [State.cached_iff, State.init_setFor]
  exact fun h => h.2.1 rfl

/-- No set holds anything, so loads see MEM_INIT (70_reset_and_hazards.md R323). -/
theorem init_view (a : Word) : (State.init p pc regs mem).view a = mem.read a.toNat :=
  State.view_of_not_cached (init_not_cached p pc regs mem a)

end

/-- Settles O56: each field is the given one; the array is NUM_SETS copies of one INVALID set; and the model's own
values are those of Machine/ResetValues.lean. -/
theorem resetState : Obligations.ResetState := by
  refine ⟨fun p pc regs mem => ⟨rfl, rfl, rfl, regRead_succ regs, List.length_replicate, fun c hc => ?_, fun a => ?_⟩,
    rfl⟩
  · rw [List.eq_of_mem_replicate hc, invalidSet]
  · exact ⟨rfl, init_view p pc regs mem a⟩

end Sys2Proof.Machine
end

section
/-! PROOFS. Two machines that differ in the tags and bytes of INVALID sets alone (70_reset_and_hazards.md R320;
21_cache.md R85): each operation of the meanings keeps `SameButStale`, and so does each step; the port calls and the
bytes loads see are the same. -/

namespace Sys2Proof.Machine

/-! A set of the array, also where the index is outside it. -/

/-- `State.setAt_putSet` at every index: outside the array nothing is replaced. -/
theorem State.setAt_putSet_total (s : State) (i j : Word) (c : CacheSet) :
    (s.putSet i c).setAt j = if j = i ∧ i.toNat < s.cache.length then c else s.setAt j := by
  by_cases hi : i.toNat < s.cache.length
  · simp only [s.setAt_putSet i j c hi, hi, and_true]
  · rw [if_neg fun h => hi h.2, State.setAt, State.putSet_cache, List.set_eq_of_length_le (by omega)]
    rfl

theorem State.setAt_of_outside {s : State} {i : Word} (hi : ¬i.toNat < s.cache.length) :
    s.setAt i = invalidSet s.params := by
  rw [State.setAt, List.getElem?_eq_none (by omega), Option.getD_none]

/-! Sets and what loads see. -/

section
variable {s u : State} (h : SameButStale s u)
include h

theorem SameButStale.x_eq (r : RegIdx) : s.x r = u.x r := congrArg (regRead · r) h.regs

theorem SameButStale.setFor_state (a : Word) : (s.setFor a).state = (u.setFor a).state := by
  rw [State.setFor, State.setFor, ← h.params, h.state]

/-- A set that is not INVALID is the same in both machines. -/
theorem SameButStale.setFor_held {a : Word} (hv : (s.setFor a).state ≠ .invalid) : s.setFor a = u.setFor a := by
  rw [State.setFor, State.setFor, ← h.params]
  exact h.held _ hv

/-- An INVALID set's block is not looked at: the byte comes from the backing store (20_memory.md R69). -/
theorem SameButStale.view_eq (a : Word) : s.view a = u.view a := by
  by_cases hv : (s.setFor a).state = .invalid
  · have hs : ¬s.cached a = true := fun hc => ((s.cached_iff a).mp hc).2.1 hv
    have hu : ¬u.cached a = true := fun hc => ((u.cached_iff a).mp hc).2.1 (h.setFor_state a ▸ hv)
    rw [State.view_of_not_cached hs, State.view_of_not_cached hu, State.backing, State.backing, h.mem]
  · have hset := h.setFor_held hv
    rw [State.view, State.view, State.cached, State.cached, State.backing, State.backing, hset, h.params, h.mem]

theorem SameButStale.fetchRead_eq : fetchRead s s.pc = fetchRead u u.pc := by
  rw [fetchRead, fetchRead, h.mem, h.pc]

/-! The record updates. -/

theorem SameButStale.keptBy_goto (t : Word) : SameButStale (s.goto t) (u.goto t) :=
  ⟨h.params, rfl, h.regs, h.mem, h.sets, h.state, h.held⟩

theorem SameButStale.keptBy_advance : SameButStale s.advance u.advance := by
  rw [State.advance, State.advance, ← h.pc]
  exact h.keptBy_goto _

theorem SameButStale.keptBy_setX (rd : RegIdx) (v : Word) : SameButStale (s.setX rd v) (u.setX rd v) :=
  ⟨h.params, h.pc, congrArg (regWrite · rd v) h.regs, h.mem, h.sets, h.state, h.held⟩

theorem SameButStale.keptBy_setMem {m m' : Memory} (hm : m = m') :
    SameButStale { s with mem := m } { u with mem := m' } :=
  ⟨h.params, h.pc, h.regs, hm, h.sets, h.state, h.held⟩

theorem SameButStale.keptBy_putSet (i : Word) (c : CacheSet) : SameButStale (s.putSet i c) (u.putSet i c) := by
  refine ⟨h.params, h.pc, h.regs, h.mem, ?_, fun j => ?_, fun j hv => ?_⟩
  · rw [State.putSet_cache, State.putSet_cache, List.length_set, List.length_set, h.sets]
  · rw [State.setAt_putSet_total, State.setAt_putSet_total, ← h.sets]
    split
    · rfl
    · exact h.state j
  · rw [State.setAt_putSet_total] at hv ⊢
    rw [State.setAt_putSet_total, ← h.sets]
    split at hv
    next hc => rw [if_pos hc, if_pos hc]
    next hc => rw [if_neg hc, if_neg hc, h.held j hv]

/-! The cache engine. -/

theorem SameButStale.keptBy_fill (a : Word) : SameButStale (fill s a) (fill u a) := by
  rw [fill, fill, ← h.params, ← h.mem]
  exact h.keptBy_putSet _ _

/-- A writeback takes the tag and the bytes of a set in use. -/
theorem SameButStale.keptBy_writeback {a : Word} (hv : (s.setFor a).state ≠ .invalid) :
    SameButStale (writeback s a) (writeback u a) :=
  h.keptBy_setMem (by rw [h.setFor_held hv, h.params, h.mem])

/-- A lookup compares the tag of a set in use only, and fills an INVALID one (21_cache.md R87; decision D22). -/
theorem SameButStale.keptBy_lookup (a : Word) : SameButStale (lookup s a) (lookup u a) := by
  by_cases hv : (s.setFor a).state = .invalid
  · have hu : (u.setFor a).state = .invalid := h.setFor_state a ▸ hv
    rw [lookup, lookup, hv, hu]
    exact h.keptBy_fill a
  · have hset := h.setFor_held hv
    rw [lookup, lookup, ← hset, ← h.params]
    split
    next => exact h.keptBy_fill a
    next => split; exacts [h, h.keptBy_fill a]
    next => split; exacts [h, (h.keptBy_writeback hv).keptBy_fill a]

end

/-- A lookup leaves no set INVALID at its index, if the array has one there (21_cache.md R87). -/
theorem lookup_state_ne_invalid (s : State) {a : Word} (hi : (setIndexOf s.params a).toNat < s.cache.length) :
    ((lookup s a).setFor a).state ≠ .invalid := by
  have hfill : ∀ v : State, v.params = s.params → v.cache = s.cache → ((fill v a).setFor a).state ≠ .invalid := by
    intro v hp hc
    rw [State.setFor, fill_params, fill, State.setAt_putSet_total, hp, hc, if_pos ⟨rfl, hi⟩]
    exact nofun
  rcases lookup_cases s a with ⟨e, hv, -⟩ | ⟨e, -⟩ | ⟨e, -⟩ <;> rw [e]
  · exact hv
  · exact hfill s rfl rfl
  · exact hfill _ rfl rfl

@[simp] theorem lookup_cache_length (s : State) (a : Word) : (lookup s a).cache.length = s.cache.length := by
  have hfill : ∀ v : State, (fill v a).cache.length = v.cache.length := fun v => List.length_set
  rcases lookup_cases s a with ⟨e, -⟩ | ⟨e, -⟩ | ⟨e, -⟩ <;> rw [e]
  · exact hfill s
  · exact hfill (writeback s a)

section
variable {s u : State} (h : SameButStale s u)
include h

/-- After a lookup both machines hold the same block for the address, tag and bytes too. -/
theorem SameButStale.lookup_setFor_eq (a : Word) : (lookup s a).setFor a = (lookup u a).setFor a := by
  by_cases hi : (setIndexOf s.params a).toNat < s.cache.length
  · exact (h.keptBy_lookup a).setFor_held (lookup_state_ne_invalid s hi)
  · rw [State.setFor, State.setFor, lookup_params, lookup_params, ← h.params, State.setAt_of_outside,
      State.setAt_of_outside, lookup_params, lookup_params, h.params]
    · rwa [lookup_cache_length, ← h.sets]
    · rwa [lookup_cache_length]

theorem SameButStale.keptBy_modifySet {a : Word} (hset : s.setFor a = u.setFor a) (v : Word) :
    SameButStale (modifySet s a v) (modifySet u a v) := by
  rw [modifySet, modifySet, ← hset, ← h.params]
  exact h.keptBy_putSet _ _

/-! The two accesses of the memory stage. -/

theorem SameButStale.keptBy_memRead (a : Word) : SameButStale (memRead s a).1 (memRead u a).1 := by
  cases he : s.params.cacheEnable
  · rwa [memRead_disabled he, memRead_disabled (h.params ▸ he)]
  · rw [memRead_enabled he, memRead_enabled (h.params ▸ he)]
    exact h.keptBy_lookup a

theorem SameButStale.memRead_value (a : Word) : (memRead s a).2 = (memRead u a).2 := by
  rw [memRead, memRead, ← h.params]
  split
  · rw [cacheRead, cacheRead, h.lookup_setFor_eq, h.params]
  · rw [directRead, directRead, h.mem]

theorem SameButStale.keptBy_memWrite (a v : Word) : SameButStale (memWrite s a v) (memWrite u a v) := by
  cases he : s.params.cacheEnable
  · rw [memWrite_disabled he, memWrite_disabled (h.params ▸ he)]
    exact h.keptBy_setMem (by rw [h.mem])
  · rw [memWrite_enabled he, memWrite_enabled (h.params ▸ he)]
    exact (h.keptBy_lookup a).keptBy_modifySet (h.lookup_setFor_eq a) v

/-! The port calls. -/

theorem SameButStale.requestCalls_eq (a : Word) : requestCalls s a = requestCalls u a := by
  have hfill : fillCalls s a = fillCalls u a := by rw [fillCalls, fillCalls, h.params]
  by_cases hv : (s.setFor a).state = .invalid
  · rw [requestCalls_of_invalid hv, requestCalls_of_invalid (h.setFor_state a ▸ hv), hfill]
  · have hback : writebackCalls s a = writebackCalls u a := by
      rw [writebackCalls, writebackCalls, h.setFor_held hv, h.params]
    rw [requestCalls, requestCalls, h.setFor_held hv, h.params, hfill, hback]

theorem SameButStale.dataCalls_eq (r : DataRequest) : dataCalls s r = dataCalls u r := by
  cases r with
  | none => rfl
  | read a => rw [dataCalls, dataCalls, h.params, h.requestCalls_eq]
  | write a v => rw [dataCalls, dataCalls, h.params, h.requestCalls_eq]

end

/-! One instruction in two states with the same registers and pc. -/

/-- `ExecCase` for two such states at once: the same kind of instruction, with the same operands. -/
inductive ExecCaseOfTwo (i : Instr) (s u : State) : Prop where
  | register (rd : RegIdx) (v : Word) (hs : exec i s = .next (s.setX rd v).advance)
      (hu : exec i u = .next (u.setX rd v).advance)
  | load (rd : RegIdx) (a : Word)
      (hs : exec i s = if aligned8 a then .next ((memRead s a).1.setX rd (memRead s a).2).advance
        else .fault (.misalignedData a))
      (hu : exec i u = if aligned8 a then .next ((memRead u a).1.setX rd (memRead u a).2).advance
        else .fault (.misalignedData a))
  | store (a v : Word)
      (hs : exec i s = if aligned8 a then .next (memWrite s a v).advance else .fault (.misalignedData a))
      (hu : exec i u = if aligned8 a then .next (memWrite u a v).advance else .fault (.misalignedData a))
  | branch (c : Bool) (imm : BitVec 13)
      (hs : exec i s = .next (if c then s.goto (s.pc + sext imm) else s.advance))
      (hu : exec i u = .next (if c then u.goto (u.pc + sext imm) else u.advance))
  | error (w : InstWord) (hs : exec i s = .fault (.unsupportedInstruction s.pc w))
      (hu : exec i u = .fault (.unsupportedInstruction u.pc w))

section
variable {s u : State} (hr : s.regs = u.regs)
include hr

/-- An instruction's operands are registers and the immediate it carries. -/
theorem execCaseOfTwo (i : Instr) : ExecCaseOfTwo i s u := by
  obtain ⟨p, pc, regs, mem, cache⟩ := s
  obtain ⟨p', pc', regs', mem', cache'⟩ := u
  cases hr
  cases i
  case sub | add | xor | or | and | opF3_001 | opF3_010 | opF3_011 | opF3_101 => exact .register _ _ rfl rfl
  case addi | xori | ori | andi | opImmF3_001 | opImmF3_010 | opImmF3_011 | opImmF3_101 =>
    exact .register _ _ rfl rfl
  case ld | loadF3_000 | loadF3_001 | loadF3_010 | loadF3_100 | loadF3_101 | loadF3_110 | loadF3_111 =>
    exact .load _ _ rfl rfl
  case sd | storeF3_000 | storeF3_001 | storeF3_010 | storeF3_100 | storeF3_101 | storeF3_110 | storeF3_111 =>
    exact .store _ _ rfl rfl
  case beq | bne | blt | bge | bltu | bgeu | branchF3_010 | branchF3_011 => exact .branch _ _ rfl rfl
  case unsupported => exact .error _ rfl rfl

theorem dataRequest_congr (i : Instr) : dataRequest i s = dataRequest i u := by
  obtain ⟨p, pc, regs, mem, cache⟩ := s
  obtain ⟨p', pc', regs', mem', cache'⟩ := u
  cases hr
  cases i <;> rfl

end

/-! The step. -/

/-- Two outcomes that differ in INVALID sets alone: the same stop, or next states that do. -/
inductive SameOutcomeButStale : (o o' : Host.Outcome State Fault Refusal) → Prop where
  | next {t t' : State} (h : SameButStale t t') : SameOutcomeButStale (.next t) (.next t')
  | fault (f : Fault) : SameOutcomeButStale (.fault f) (.fault f)
  | refused (r : Refusal) : SameOutcomeButStale (.refused r) (.refused r)

section
variable {s u : State} (h : SameButStale s u)
include h

theorem SameButStale.sameOutcome_exec (i : Instr) : SameOutcomeButStale (exec i s) (exec i u) := by
  cases execCaseOfTwo h.regs i with
  | register rd v hs hu =>
    rw [hs, hu]
    exact .next (h.keptBy_setX rd v).keptBy_advance
  | load rd a hs hu =>
    rw [hs, hu, ← h.memRead_value]
    split
    · exact .next ((h.keptBy_memRead a).keptBy_setX rd _).keptBy_advance
    · exact .fault _
  | store a v hs hu =>
    rw [hs, hu]
    split
    · exact .next (h.keptBy_memWrite a v).keptBy_advance
    · exact .fault _
  | branch c imm hs hu =>
    rw [hs, hu, ← h.pc]
    cases c
    · exact .next h.keptBy_advance
    · exact .next (h.keptBy_goto _)
  | error w hs hu =>
    rw [hs, hu, ← h.pc]
    exact .fault _

theorem SameButStale.sameOutcome_step : SameOutcomeButStale (step s) (step u) := by
  rw [step, step, ← h.params, ← h.fetchRead_eq, ← h.pc]
  split
  · split
    · exact h.sameOutcome_exec _
    · exact .fault _
  · exact .refused _

theorem SameButStale.stepCalls_eq : stepCalls s = stepCalls u := by
  rw [stepCalls, stepCalls, ← h.params, ← h.fetchRead_eq, ← h.pc, dataRequest_congr h.regs, h.dataCalls_eq]

end

/-- Settles O55: the set array of `State.init` is INVALID throughout; the request on an INVALID set is the first row of
the transition table; and two machines that differ in INVALID sets alone run one step alike. -/
theorem staleContentsAreUnobservable : Obligations.StaleContentsAreUnobservable := by
  refine ⟨fun p pc regs mem i => ?_, fun s a hv => ?_, fun s u h => ⟨h.stepCalls_eq, h.view_eq, ?_⟩⟩
  · rw [State.init_setAt, invalidSet]
  · exact ⟨requestCalls_of_invalid hv, fun c => requestCalls_isWrite (by simp [hv])⟩
  · have hstep := h.sameOutcome_step
    generalize step s = o, step u = o' at hstep
    cases hstep with
    | @next t t' ht =>
      refine ⟨fun _ e => ?_, nofun⟩
      cases e
      exact ⟨t', rfl, ht⟩
    | fault f => exact ⟨nofun, fun _ e => e⟩
    | refused r => exact ⟨nofun, nofun⟩

end Sys2Proof.Machine
end
